-- ==== Sys2Proof/Word.lean ====
section
/-! DEFINITION. The words of the block: bytes, and the 16-bit memory addresses of the address header. -/

namespace Sys2Proof

/-- A byte is 8 bits (spec/00_scope.md R7). -/
abbrev Byte := BitVec 8

/-- A memory address as it is carried on the wire and in `base`: 16 bits, `ADDR_W` (00_scope.md R6). -/
abbrev Addr := BitVec 16

end Sys2Proof
end

