-- ==== Sys2Proof/Config.lean ====
section
/-! DEFINITION. What is fixed for one machine: the wired constants of spec/00_scope.md R6, the open parameters
LEN_W, ERR_W and T_UNIT, and the free values (constants without a body), which the spec leaves open. -/

namespace Sys2Proof

namespace Config

/-- `PAGE_SIZE` (00_scope.md R6): bytes in one device page. -/
def pageSize : Nat := 32

/-- `HDR_LEN` (R6): bytes of the address header. -/
def hdrLen : Nat := 2

/-- `SCRATCH_LEN` (R6): `PAGE_SIZE + HDR_LEN`. -/
def scratchLen : Nat := 34

/-- `CAPACITY` (R6): bytes of the device. -/
def capacity : Nat := 8192

/-- `BASE_DEV_ADDR` (R6): the 7-bit base device bus address. -/
def baseDevAddr : BitVec 7 := 0x50

/-- `MAX_RETRIES` (R6): retries after the first attempt of a raw write. -/
def maxRetries : Nat := 10

/-- `MAX_ATTEMPTS` (R6): `MAX_RETRIES + 1`. -/
def maxAttempts : Nat := 11

/-- `RETRY_DELAY` (R6): the argument of the sleep primitive, in time units. -/
def retryDelay : Nat := 1

/-- The default of the open parameter `LEN_W` (R6, 92_eei_decisions.md D5). Log 7. -/
def defaultLenW : Nat := 16

/-- The default of the open parameter `ERR_W` (R6, 92_eei_decisions.md D15). Log 7. -/
def defaultErrW : Nat := 8

/-- What a byte of the device's memory that nothing has written reads as. DESIGN CHOICE, log 12: the spec gives no
contents of the device. -/
def unlistedDeviceByte : Byte := 0xFF

/-- `T_UNIT` (R6): the real duration of one time unit. OPEN: no rule uses its value (20_memory.md R58), so it has
no body. -/
opaque tUnit : Nat

/-- Free value: a byte the environment leaves unspecified, one for each draw (20_memory.md R57, log 10). -/
opaque freeByte : Nat → Byte

/-- Free value: the host's write data at an index the state does not list (log 11). -/
opaque hostData : Nat → Byte

/-- Free value: what the host's read buffer holds at an index the state does not list (log 11). -/
opaque hostBuf : Nat → Byte

/-- Free value: NEXT_CHUNK outside its stated operands, `m = 0` (43_paginated_write.md R153, log 16). -/
opaque freeChunkLen : Nat → BitVec 6

end Config

/-- The open parameters a model takes as arguments (00_scope.md R6): the bits of `cmd_len` and of an error value. -/
structure Params where
  /-- `LEN_W`. -/
  lenW : Nat
  /-- `ERR_W`. -/
  errW : Nat
  deriving DecidableEq, Repr

/-- `CUR_W = max(ADDR_W, LEN_W) + 2` (R6, R25). -/
def Params.curW (p : Params) : Nat := max 16 p.lenW + 2

/-- "at least 1" (92_eei_decisions.md, Open parameters). -/
abbrev Params.Ok (p : Params) : Prop := 1 ≤ p.lenW ∧ 1 ≤ p.errW

end Sys2Proof
end

