-- ==== Sys2Proof/Syntax.lean ====
section
/-! DEFINITION. The operations of the block: one constructor of `Instr` for each of the 21 rows of
spec/opcode_table.json (30_encoding.md R89). The block fetches no instruction stream: a row is selected by a command
word, by a transport request kind, by the sequencer state, or is a byte layout; `Format` says which. -/

namespace Sys2Proof

/-- The command kind, `cmd_op` and the register `op`: 0 READ, 1 WRITE (10_state.md R24, 30_encoding.md R84). -/
inductive Op where
  | read
  | write
  deriving DecidableEq, Repr

/-- The sequencer state (10_state.md R23). The values 5, 6 and 7 do not exist. -/
inductive Fsm where
  | idle
  | chunk
  | encode
  | attempt
  | delay
  deriving DecidableEq, Repr

/-- The format a row of the opcode table is written in (30_encoding.md R80, R89). -/
inductive Format where
  /-- F5, the command word on CMD, with `LEN_W` bits of length (R84). -/
  | command (lenW : Nat)
  /-- The five low bits of a cursor, the operand pattern of NEXT_CHUNK. -/
  | cursor
  /-- F1, indices 0 and 1: the address header (R81). -/
  | header
  /-- F1, indices 2 and up: the data bytes of a chunk, 8 bits per index (R81). -/
  | payload
  /-- F4, the 7-bit device bus address (R85). -/
  | devAddr
  /-- The selector `{fsm, op}` read as a raw operation spanning several states (R89). -/
  | raw
  /-- The field `tr_kind` of F6 (R86). -/
  | trKind
  /-- F2, the write transaction frame (R82). -/
  | writeFrame
  /-- F3, the part of the read transaction frame that is sent (R83). -/
  | readFrame
  /-- The selector `{fsm, op}` read as one sequencer step, and the step's number T1 to T8 (R89). -/
  | seq
  deriving DecidableEq, Repr

/-- One constructor per row of spec/opcode_table.json. -/
inductive Instr where
  /-- WRITE (43_paginated_write.md R150): `a` is `cmd_addr`, `n` is `cmd_len`; the bytes come over WDATA. -/
  | write (a : Addr) (n : Nat)
  /-- READ (44_paginated_read.md R170): `a` is `cmd_addr`, `n` is `cmd_len`; the bytes go over RDATA. -/
  | read (a : Addr) (n : Nat)
  /-- NEXT_CHUNK (43_paginated_write.md R153): `c` is `cur[4:0]`, the only bits of the cursor it uses. -/
  | nextChunk (c : BitVec 5)
  /-- ENC_HDR (40_address_encoder.md R110): `a` is `cur[15:0]`. -/
  | encHdr (a : Addr)
  /-- LOAD_PAYLOAD (40_address_encoder.md R111): the bytes `data[rel + i]`, `klen` of them. -/
  | loadPayload (ds : List Byte)
  /-- DEV_ADDR (40_address_encoder.md R112): `h` is `hw_addr`. -/
  | devAddr (h : BitVec 3)
  /-- RAW_WRITE (41_raw_write_retry.md R120), taken up in state `f` with `op = 1`. -/
  | rawWrite (f : Fsm)
  /-- RAW_READ (42_raw_read.md R140), taken up in state `f` with `op = 0`. -/
  | rawRead (f : Fsm)
  /-- TR_WRITE (20_memory.md R56). -/
  | trWrite
  /-- TR_WRITE_READ (20_memory.md R57). -/
  | trWriteRead
  /-- TR_SLEEP (20_memory.md R58). -/
  | trSleep
  /-- WFRAME (30_encoding.md R82): the address and the data bytes. -/
  | wframe (a : Addr) (ds : List Byte)
  /-- RFRAME (30_encoding.md R83): the address. -/
  | rframe (a : Addr)
  /-- ACCEPT, step T1 (43_paginated_write.md R161); `o` is the old value of `op`. -/
  | accept (o : Op)
  /-- CHUNK_DONE, step T2 (43_paginated_write.md R162). -/
  | chunkDone (o : Op)
  /-- CHUNK_NEXT, step T3 (43_paginated_write.md R163). -/
  | chunkNext (o : Op)
  /-- ENCODE, step T4 (40_address_encoder.md R113). -/
  | encode (o : Op)
  /-- ATTEMPT_OK, step T5 (41_raw_write_retry.md R124). -/
  | attemptOk (o : Op)
  /-- ATTEMPT_RETRY, step T6 (41_raw_write_retry.md R125); its selector has `op = 1`. -/
  | attemptRetry
  /-- ATTEMPT_FAIL, step T7 (41_raw_write_retry.md R126). -/
  | attemptFail (o : Op)
  /-- DELAY, step T8 (41_raw_write_retry.md R127); its selector has `op = 1`. -/
  | delay
  deriving DecidableEq, Repr

end Sys2Proof
end

