-- ==== Sys2Proof/WellFormed.lean ====
section
/-! DEFINITION. Which operations are well formed: the operand ranges the spec's encodings admit. -/

namespace Sys2Proof

/-- A chunk's data: 1 to 32 bytes (30_encoding.md R81, R82). -/
def payloadLenOk (ds : List Byte) : Bool := decide (1 ≤ ds.length ∧ ds.length ≤ 32)

/-- A write frame never crosses a page: `(A mod 32) + k <= 32` (30_encoding.md R82). -/
def insidePage (a : Addr) (k : Nat) : Bool := decide (a.toNat % 32 + k ≤ 32)

/-- The states a RAW_WRITE spans: ENCODE, ATTEMPT, DELAY (opcode_table.json, row RAW_WRITE). -/
def rawWritePhase : Fsm → Bool
  | .encode | .attempt | .delay => true
  | .idle | .chunk => false

/-- The states a RAW_READ spans: ENCODE, ATTEMPT (opcode_table.json, row RAW_READ). -/
def rawReadPhase : Fsm → Bool
  | .encode | .attempt => true
  | .idle | .chunk | .delay => false

/-- Operand ranges at a length width of `lenW` bits. Every command word is legal (30_encoding.md R90): the only bound
on `n` is the width of its field. -/
def Instr.wf (lenW : Nat) : Instr → Bool
  | .write _ n => decide (n < 2 ^ lenW)
  | .read _ n => decide (n < 2 ^ lenW)
  | .nextChunk _ => true
  | .encHdr _ => true
  | .loadPayload ds => payloadLenOk ds
  | .devAddr _ => true
  | .rawWrite f => rawWritePhase f
  | .rawRead f => rawReadPhase f
  | .trWrite => true
  | .trWriteRead => true
  | .trSleep => true
  | .wframe a ds => payloadLenOk ds && insidePage a ds.length
  | .rframe _ => true
  | .accept _ => true
  | .chunkDone _ => true
  | .chunkNext _ => true
  | .encode _ => true
  | .attemptOk _ => true
  | .attemptRetry => true
  | .attemptFail _ => true
  | .delay => true

end Sys2Proof
end

