-- ==== Sys2Proof/Decode.lean ====
section
/-! DEFINITION. The decoder, total on any format and bytes and rejecting by name; after it the encoder, written from
the same tables (spec/30_encoding.md R80 to R90); and the reading of an untagged word of spec/opcode_table.json. -/

namespace Sys2Proof

/-! ## Bits and bytes -/

/-- The number a byte sequence spells, first byte most significant. -/
def beNat (bs : List Byte) : Nat := bs.foldl (fun acc b => acc * 256 + b.toNat) 0

/-- The `k` bytes that spell `v`, first byte most significant. -/
def beBytes : Nat → Nat → List Byte
  | 0, _ => []
  | k + 1, v => beBytes k (v / 256) ++ [BitVec.ofNat 8 v]

/-- The address header: high byte first (20_memory.md R51, 30_encoding.md R81, R88). -/
def headerBytes (a : Addr) : List Byte := [a.extractLsb' 8 8, a.extractLsb' 0 8]

/-- The address two header bytes spell (30_encoding.md R82: "the 16-bit address of bytes 0 and 1"). -/
def headerAddr (hi lo : Byte) : Addr := hi ++ lo

/-- The device bus address `{0b1010, h}` (40_address_encoder.md R112): the base address ORed with the hardware
address bits. -/
def devAddrOf (h : BitVec 3) : BitVec 7 := Config.baseDevAddr ||| h.setWidth 7

/-- `op` as a bit: 1 is WRITE (10_state.md R24). -/
def Op.bit : Op → Nat
  | .read => 0
  | .write => 1

/-- The command kind of a bit. -/
def Op.ofBit (b : Nat) : Op := if b % 2 = 1 then .write else .read

/-- The encoding of `fsm` (10_state.md R23). -/
def Fsm.code : Fsm → Nat
  | .idle => 0
  | .chunk => 1
  | .encode => 2
  | .attempt => 3
  | .delay => 4

/-- The state of a three-bit code; 5, 6 and 7 are none (10_state.md R23, 93_implementation_defined.md I16). -/
def Fsm.ofCode : Nat → Option Fsm
  | 0 => some .idle
  | 1 => some .chunk
  | 2 => some .encode
  | 3 => some .attempt
  | 4 => some .delay
  | _ => none

/-- The selector `{fsm[2:0], op}` as a byte (30_encoding.md R89). -/
def selectorByte (f : Fsm) (o : Op) : Byte := BitVec.ofNat 8 (f.code * 2 + o.bit)

/-! ## The decoder -/

/-- Why a word is no operation. -/
inductive Reject where
  /-- The format has another length. -/
  | wrongLength
  /-- A bit above the format's own bits is set. -/
  | unusedBitsSet
  /-- `tr_kind = 0b00` is "no request", never a request (30_encoding.md R90 (c)). -/
  | noRequest
  /-- No row has this selector, or this selector with this step number (30_encoding.md R89, R90 (d)). -/
  | noRow
  /-- Bits 6 to 3 of a device bus address are not `0b1010` (30_encoding.md R85, R93). -/
  | notDeviceAddress
  /-- A chunk with no data byte or with more than 32 (30_encoding.md R90 (e)). -/
  | payloadLength
  /-- A write frame that crosses a page boundary (30_encoding.md R82). -/
  | pageCrossing
  deriving DecidableEq, Repr

/-- Bytes of a command word of `1 + 16 + LEN_W` bits (30_encoding.md R80, R84). -/
def commandBytes (lenW : Nat) : Nat := (17 + lenW + 7) / 8

/-- F5, the command word: `{cmd_op, cmd_addr, cmd_len}`, most significant first (30_encoding.md R84). -/
def decodeCommand (lenW : Nat) (bs : List Byte) : Except Reject Instr :=
  if bs.length ≠ commandBytes lenW then .error .wrongLength
  else if 2 ^ (17 + lenW) ≤ beNat bs then .error .unusedBitsSet
  else if beNat bs / 2 ^ (16 + lenW) = 1
    then .ok (.write (BitVec.ofNat 16 (beNat bs / 2 ^ lenW)) (beNat bs % 2 ^ lenW))
    else .ok (.read (BitVec.ofNat 16 (beNat bs / 2 ^ lenW)) (beNat bs % 2 ^ lenW))

/-- The operand pattern of NEXT_CHUNK: five cursor bits. -/
def decodeCursor : List Byte → Except Reject Instr
  | [b] => if 32 ≤ b.toNat then .error .unusedBitsSet else .ok (.nextChunk (b.setWidth 5))
  | _ => .error .wrongLength

/-- F1, indices 0 and 1 (30_encoding.md R81). -/
def decodeHeader : List Byte → Except Reject Instr
  | [hi, lo] => .ok (.encHdr (headerAddr hi lo))
  | _ => .error .wrongLength

/-- F1, indices 2 and up (30_encoding.md R81). -/
def decodePayload (bs : List Byte) : Except Reject Instr :=
  if payloadLenOk bs then .ok (.loadPayload bs) else .error .payloadLength

/-- F4 (30_encoding.md R85): pattern `1010hhh`. -/
def decodeDevAddr : List Byte → Except Reject Instr
  | [b] =>
    if 128 ≤ b.toNat then .error .unusedBitsSet
    else if b.toNat / 8 = 10 then .ok (.devAddr (b.setWidth 3))
    else .error .notDeviceAddress
  | _ => .error .wrongLength

/-- The selector read as a raw operation: `fff1` with `f` in ENCODE, ATTEMPT, DELAY, or `fff0` with `f` in ENCODE,
ATTEMPT (opcode_table.json, rows RAW_WRITE and RAW_READ). -/
def decodeRaw : List Byte → Except Reject Instr
  | [b] =>
    if 16 ≤ b.toNat then .error .unusedBitsSet
    else match Fsm.ofCode (b.toNat / 2), Op.ofBit b.toNat with
      | some f, .write => if rawWritePhase f then .ok (.rawWrite f) else .error .noRow
      | some f, .read => if rawReadPhase f then .ok (.rawRead f) else .error .noRow
      | none, _ => .error .noRow
  | _ => .error .wrongLength

/-- The field `tr_kind` of F6 (30_encoding.md R86). -/
def decodeTrKind : List Byte → Except Reject Instr
  | [b] =>
    match b.toNat with
    | 0 => .error .noRequest
    | 1 => .ok .trWrite
    | 2 => .ok .trWriteRead
    | 3 => .ok .trSleep
    | _ => .error .unusedBitsSet
  | _ => .error .wrongLength

/-- F2, the write frame (30_encoding.md R82): header, then 1 to 32 data bytes inside one page. -/
def decodeWriteFrame : List Byte → Except Reject Instr
  | hi :: lo :: ds =>
    if !payloadLenOk ds then .error .payloadLength
    else if insidePage (headerAddr hi lo) ds.length then .ok (.wframe (headerAddr hi lo) ds)
    else .error .pageCrossing
  | _ => .error .wrongLength

/-- F3, the sent part of the read frame (30_encoding.md R83). -/
def decodeReadFrame : List Byte → Except Reject Instr
  | [hi, lo] => .ok (.rframe (headerAddr hi lo))
  | _ => .error .wrongLength

/-- The row of the selector `{f, o}` with step number `t` (T1 to T8 of 43_paginated_write.md R160). Step number 0
gives no guard: the row is then the one the four bits fix most, and of rows that fix as many the first of the table
(log 3). -/
def stepRow (f : Fsm) (o : Op) (t : Nat) : Except Reject Instr :=
  match f, o, t with
  | .idle, o, 0 | .idle, o, 1 => .ok (.accept o)
  | .chunk, o, 0 | .chunk, o, 2 => .ok (.chunkDone o)
  | .chunk, o, 3 => .ok (.chunkNext o)
  | .encode, o, 0 | .encode, o, 4 => .ok (.encode o)
  | .attempt, .read, 0 => .ok (.attemptOk .read)
  | .attempt, .write, 0 => .ok .attemptRetry
  | .attempt, o, 5 => .ok (.attemptOk o)
  | .attempt, .write, 6 => .ok .attemptRetry
  | .attempt, o, 7 => .ok (.attemptFail o)
  | .delay, .write, 0 | .delay, .write, 8 => .ok .delay
  | _, _, _ => .error .noRow

/-- The selector of a sequencer step and its step number, one byte each (30_encoding.md R89, log 3). -/
def decodeSeq : List Byte → Except Reject Instr
  | [b, t] =>
    if 16 ≤ b.toNat then .error .unusedBitsSet
    else match Fsm.ofCode (b.toNat / 2) with
      | some f => stepRow f (Op.ofBit b.toNat) t.toNat
      | none => .error .noRow
  | _ => .error .wrongLength

/-- The operation some bytes of a format stand for. -/
def decode : Format → List Byte → Except Reject Instr
  | .command lenW, bs => decodeCommand lenW bs
  | .cursor, bs => decodeCursor bs
  | .header, bs => decodeHeader bs
  | .payload, bs => decodePayload bs
  | .devAddr, bs => decodeDevAddr bs
  | .raw, bs => decodeRaw bs
  | .trKind, bs => decodeTrKind bs
  | .writeFrame, bs => decodeWriteFrame bs
  | .readFrame, bs => decodeReadFrame bs
  | .seq, bs => decodeSeq bs

/-! ## The encoder -/

/-- The format an operation's row is written in. -/
def formatOf (lenW : Nat) : Instr → Format
  | .write _ _ => .command lenW
  | .read _ _ => .command lenW
  | .nextChunk _ => .cursor
  | .encHdr _ => .header
  | .loadPayload _ => .payload
  | .devAddr _ => .devAddr
  | .rawWrite _ => .raw
  | .rawRead _ => .raw
  | .trWrite => .trKind
  | .trWriteRead => .trKind
  | .trSleep => .trKind
  | .wframe _ _ => .writeFrame
  | .rframe _ => .readFrame
  | .accept _ => .seq
  | .chunkDone _ => .seq
  | .chunkNext _ => .seq
  | .encode _ => .seq
  | .attemptOk _ => .seq
  | .attemptRetry => .seq
  | .attemptFail _ => .seq
  | .delay => .seq

/-- F5 as bytes: `{cmd_op, cmd_addr[15:0], cmd_len[LEN_W-1:0]}` (30_encoding.md R84). -/
def encodeCommand (lenW : Nat) (o : Op) (a : Addr) (n : Nat) : List Byte :=
  beBytes (commandBytes lenW) (o.bit * 2 ^ (16 + lenW) + a.toNat * 2 ^ lenW + n % 2 ^ lenW)

/-- A sequencer step as bytes: its selector and its number T1 to T8 (43_paginated_write.md R160). -/
def encodeSeq (f : Fsm) (o : Op) (t : Nat) : List Byte := [selectorByte f o, BitVec.ofNat 8 t]

/-- The bytes of an operation in its format. -/
def encode (lenW : Nat) : Instr → List Byte
  | .write a n => encodeCommand lenW .write a n
  | .read a n => encodeCommand lenW .read a n
  | .nextChunk c => [c.setWidth 8]
  | .encHdr a => headerBytes a
  | .loadPayload ds => ds
  | .devAddr h => [(devAddrOf h).setWidth 8]
  | .rawWrite f => [selectorByte f .write]
  | .rawRead f => [selectorByte f .read]
  | .trWrite => [1]
  | .trWriteRead => [2]
  | .trSleep => [3]
  | .wframe a ds => headerBytes a ++ ds
  | .rframe a => headerBytes a
  | .accept o => encodeSeq .idle o 1
  | .chunkDone o => encodeSeq .chunk o 2
  | .chunkNext o => encodeSeq .chunk o 3
  | .encode o => encodeSeq .encode o 4
  | .attemptOk o => encodeSeq .attempt o 5
  | .attemptRetry => encodeSeq .attempt .write 6
  | .attemptFail o => encodeSeq .attempt o 7
  | .delay => encodeSeq .delay .write 8

/-! ## An untagged word of the opcode table -/

/-- The format of a word of at most 8 bits that says no format of its own: the narrowest format that has a row for
it (two bits, four bits, five bits, seven bits, eight bits). Log 2. -/
def smallFormat (w : Nat) : Format × List Byte :=
  if 1 ≤ w ∧ w ≤ 3 then (.trKind, [BitVec.ofNat 8 w])
  else if w ≤ 7 ∨ w = 9 then (.seq, [BitVec.ofNat 8 w, 0])
  else if w < 32 then (.cursor, [BitVec.ofNat 8 w])
  else if 80 ≤ w ∧ w ≤ 87 then (.devAddr, [BitVec.ofNat 8 w])
  else (.payload, [BitVec.ofNat 8 w])

/-- A word of spec/opcode_table.json, `nbits` bits in whole bytes, as a format and bytes; the table writes a pattern
as one number, its first byte most significant. Log 2. -/
def tableWord (nbits w : Nat) : Option (Format × List Byte) :=
  if nbits ≤ 8 then if w < 2 ^ 8 then some (smallFormat w) else none
  else if nbits ≤ 16 then if w < 2 ^ 16 then some (.header, beBytes 2 w) else none
  else if nbits ≤ 24 then if w < 2 ^ 24 then some (.writeFrame, beBytes 3 w) else none
  else if nbits ≤ 40 then
    if w < 2 ^ 40 then some (.command Config.defaultLenW, beBytes 5 w) else none
  else none

/-- The operation the decoder reads from a word of spec/opcode_table.json, numbered as the table numbers it. -/
def decodeTableWord (nbits w : Nat) : Option Instr :=
  match tableWord nbits w with
  | some (f, bs) => (decode f bs).toOption
  | none => none

end Sys2Proof
end

