-- ==== Sys2Proof/Machine/Memory.lean ====
section
/-! DEFINITION. The device's memory (spec/20_memory.md R61, R70): a list of (address, byte) pairs in one canonical
form, addresses strictly rising and no entry equal to what an unlisted address reads as. -/

namespace Sys2Proof.Machine

/-- Device memory, sparse. -/
abbrev Memory := List Host.Cell

namespace Memory

/-- One byte of the device: `MemRead(a, 1)` (00_scope.md R10). -/
def read : Memory → Nat → Byte
  | [], _ => Config.unlistedDeviceByte
  | (k, v) :: rest, a => if k = a then v else read rest a

/-- Set one byte of the device, keeping the canonical form. -/
def write : Memory → Nat → Byte → Memory
  | [], a, b => if b = Config.unlistedDeviceByte then [] else [(a, b)]
  | (k, v) :: rest, a, b =>
    if a < k then
      if b = Config.unlistedDeviceByte then (k, v) :: rest else (a, b) :: (k, v) :: rest
    else if a = k then
      if b = Config.unlistedDeviceByte then rest else (a, b) :: rest
    else (k, v) :: write rest a b

/-- `MemWrite(a, n, v)` (00_scope.md R10): the bytes go to `a, a + 1, ...` (20_memory.md R52). -/
def writeBytes : Memory → Nat → List Byte → Memory
  | m, _, [] => m
  | m, a, b :: rest => writeBytes (write m a b) (a + 1) rest

/-- `MemRead(a, n)` (00_scope.md R10). -/
def readBytes (m : Memory) (a n : Nat) : List Byte := (List.range n).map fun j => read m (a + j)

/-- The canonical form. -/
def wf : Memory → Bool
  | [] => true
  | (k, v) :: rest => decide (v ≠ Config.unlistedDeviceByte) && rest.all (fun c => decide (k < c.1)) && wf rest

/-- Every listed address is one of the device's 8192 (20_memory.md R61). -/
def bounded (m : Memory) : Bool := m.all fun c => decide (c.1 < Config.capacity)

end Memory

end Sys2Proof.Machine
end

