-- ==== Sys2Proof/Machine/State.lean ====
section
/-! DEFINITION. The state of the block and of the environment its steps read and write (spec/10_state.md), as plain
data, and the state after construction. INVENTORY.md lists every field with its rule. -/

namespace Sys2Proof.Machine

/-- `ok` or `err(e)`: the transport's reply (30_encoding.md R86) and the response to a command (R87). -/
inductive Reply where
  | ok
  | err (e : Nat)
  deriving DecidableEq, Repr

/-- What the transport answers to one request: `ok` with the bytes a read received (ignored for a write or a sleep),
or `err(e)` (20_memory.md R56 to R59). -/
inductive Answer where
  | ok (bytes : List Byte)
  | err (e : Nat)
  deriving DecidableEq, Repr

/-- A command offered on CMD (30_encoding.md R84) with the host's slice: the bytes of a WRITE, or what the buffer lent
to a READ holds before it (10_state.md R31, 30_encoding.md R95). -/
structure Command where
  op : Op
  addr : Addr
  len : Nat
  slice : List Byte
  deriving DecidableEq, Repr

/-- An event of a trace (00_scope.md R11). -/
inductive Event where
  /-- `W(dev, [bytes]) -> ok` or `-> err(e)`. -/
  | write (dev : BitVec 7) (payload : List Byte) (r : Reply)
  /-- `WR(dev, [wbytes], k) -> ok [rbytes]` or `-> err(e)`. -/
  | writeRead (dev : BitVec 7) (sent : List Byte) (k : Nat) (a : Answer)
  /-- `S(u)`. -/
  | sleep (units : Nat)
  /-- `RSP ok` or `RSP err(e)`. -/
  | rsp (r : Reply)
  deriving DecidableEq, Repr

/-- The device of the reference environment (20_memory.md R70): a test scaffold of the spec, not part of the block. -/
structure Device where
  /-- `M[0 .. 8192)`. -/
  mem : Memory
  /-- The write cycle is running. -/
  busy : Bool
  /-- The strapped address. -/
  strap : BitVec 3
  /-- The error value of "no device present". -/
  eAbsent : Nat
  /-- The error value of "does not respond on the bus". -/
  eNack : Nat
  /-- Whether the environment's step `finish` occurs before the next transport event, the one after, ...; none listed:
  it does not occur by itself. -/
  finish : List Bool
  deriving DecidableEq, Repr

/-- Who answers the block's requests. -/
inductive Responder where
  /-- The answers listed, whatever they are (20_memory.md R59); none listed: the transport withholds its answer. -/
  | answers
  /-- The reference device (20_memory.md R70). -/
  | device
  deriving DecidableEq, Repr

/-- The transport collaborator and the device behind it (60_exceptions.md R193). While the answers come from the list no device
is modelled behind them, and `device` does not take part (DESIGN CHOICE, log 27). -/
structure Transport where
  responder : Responder
  answers : List Answer
  device : Device
  deriving DecidableEq, Repr

/-- What a pure operation performed on its own delivers (log 15). -/
inductive Result where
  /-- NEXT_CHUNK: a chunk length. -/
  | chunkLen (k : Nat)
  /-- DEV_ADDR: a device bus address. -/
  | busAddr (dev : BitVec 7)
  /-- WFRAME: the frame's bytes in transmission order. -/
  | writeFrame (bytes : List Byte)
  /-- RFRAME: the bytes sent, and how many are received after them. -/
  | readFrame (sent : List Byte) (count : Nat)
  deriving DecidableEq, Repr

/-- Registers, ports and environment (10_state.md R20, R30, R31), and the model's own fields. -/
@[ext]
structure State where
  /-- The open parameters (00_scope.md R6). -/
  params : Params
  /-- `hw_addr` (R21). -/
  hwAddr : BitVec 3
  /-- `scratch[0 .. 34)` (R22). -/
  scratch : Vector Byte 34
  /-- `fsm` (R23). -/
  fsm : Fsm
  /-- `op` (R24). -/
  op : Op
  /-- `base` (R24). -/
  base : Addr
  /-- `len`, `LEN_W` bits (R24). -/
  len : Nat
  /-- `cur`, `CUR_W` bits (R25). -/
  cur : Nat
  /-- `retries` (R27). -/
  retries : BitVec 4
  /-- `err`, `ERR_W` bits (R28). -/
  err : Nat
  /-- Port CMD: the commands the host offers, oldest first (R30). -/
  cmds : List Command
  /-- Port TR, reply half: a reply given and not yet acted on (R30). -/
  reply : Option Reply
  /-- Port RSP: a response given and not yet taken (R30). -/
  rsp : Option Reply
  /-- Port WDATA: the indices requested since the last ACCEPT (R30). -/
  wdataReqs : List Nat
  /-- The host's write data by index (R31 (a)). -/
  data : List Byte
  /-- The host's read buffer by index (R31 (b)). -/
  buf : List Byte
  /-- The transport and the device behind it (R31 (c), (d)). -/
  transport : Transport
  /-- The trace so far (00_scope.md R11). -/
  trace : List Event
  /-- MODEL: an operation presented to be performed on its own (log 1). -/
  slot : Option (Format × List Byte)
  /-- MODEL: what the last pure operation delivered (log 15). -/
  result : Option Result
  /-- MODEL: how many free values were drawn (log 10). -/
  draws : Nat
  deriving DecidableEq, Repr

/-- Why the machine stops. The block itself raises nothing (60_exceptions.md R181). -/
inductive Fault where
  /-- Raised by `step`: the sequencer is in a state for which the table of 43_paginated_write.md R160 has no step and
  which is no wait (`DELAY` with `op = READ`; a failed attempt of a WRITE with `retries > 10`). Safe: by 10_state.md
  R34 no run reaches such a state, and here the model stops. -/
  | noTransition
  deriving DecidableEq, Repr

/-- Why an operation has no meaning where it is asked for. -/
inductive Refusal where
  /-- Raised by an arm of `exec` whose instruction has no meaning yet. Safe. -/
  | notModelled (mnemonic : String)
  /-- Raised by `step`: the bytes presented in the slot are no operation. Safe. -/
  | undecodable (why : Reject)
  /-- Raised by the meaning of a sequencer step or of a raw operation performed where its guard does not hold (the
  spec gives it no transition there, 43_paginated_write.md R160), and by a transport primitive performed where the block does
  not present its request (30_encoding.md R86, 10_state.md R34 (h)). Safe. -/
  | guardNotMet
  /-- Raised by RAW_WRITE and RAW_READ on a chunk of no bytes: "must refuse ... `k = 0`" (41_raw_write_retry.md R130); and by
  TR_WRITE and TR_WRITE_READ, whose empty frames are "never produced" (30_encoding.md R90 (e)). Safe. -/
  | emptyChunk
  /-- Raised by LOAD_PAYLOAD and WFRAME on operands outside their format, which their encodings cannot hold
  (30_encoding.md R82, R90 (e)). Safe. -/
  | illFormedFrame
  /-- Raised by a transport primitive performed on its own while a reply is pending: at most one request is
  outstanding (10_state.md R34 (h)). Safe. -/
  | replyPending
  /-- Raised where the reference device gives a transaction no meaning (20_memory.md R70, "REFUSED"). Safe. -/
  | deviceNoMeaning
  /-- Raised by a reset edge while a command is in progress (70_reset_and_hazards.md R225). Safe. -/
  | resetDuringCommand
  /-- Raised by a reset edge in `IDLE` after construction: reset is "only as the initial state" (70_reset_and_hazards.md R225,
  log 25). Safe. -/
  | secondReset
  deriving DecidableEq, Repr

/-- The outcome of a step of this machine. -/
abbrev Outcome := Host.Outcome State Fault Refusal

/-- The reference device with nothing written and no write cycle running (log 12, log 13). -/
def Device.fresh : Device :=
  { mem := [], busy := false, strap := 0, eAbsent := 1, eNack := 2, finish := [] }

/-- A transport that has not answered anything yet (log 9). -/
def Transport.fresh : Transport :=
  { responder := .answers, answers := [], device := Device.fresh }

/-- Construction, the block's reset (10_state.md R33, 70_reset_and_hazards.md R210): `cfg_hw_addr` is sampled,
`fsm = IDLE`, no request outstanding, no response pending; the registers R33 leaves unspecified are 0 (log 6). The
device is not reset by the block, so the transport is an argument. -/
def State.construct (p : Params) (cfgHwAddr : BitVec 3) (t : Transport) : State :=
  { params := p
    hwAddr := cfgHwAddr
    scratch := Vector.replicate 34 0
    fsm := .idle
    op := .read
    base := 0
    len := 0
    cur := 0
    retries := 0
    err := 0
    cmds := []
    reply := none
    rsp := none
    wdataReqs := []
    data := []
    buf := []
    transport := t
    trace := []
    slot := none
    result := none
    draws := 0 }

/-- The machine right after reset, with the default widths, `cfg_hw_addr = 0` presented, and no command offered. -/
def State.reset : State :=
  State.construct { lenW := Config.defaultLenW, errW := Config.defaultErrW } 0 Transport.fresh

end Sys2Proof.Machine
end

