-- ==== Sys2Proof/Machine/Operands.lean ====
section
/-! DEFINITION. The derived values (spec/10_state.md R26), the chunk arithmetic (43_paginated_write.md R152, R153),
the host's bytes, and the transport request (30_encoding.md R86): functions of the registers, not state. -/

namespace Sys2Proof.Machine

/-- `NEXT_CHUNK(c, m) = min(32 - (c mod 32), m)` (43_paginated_write.md R153). -/
def nextChunkLen (c m : Nat) : Nat := min (Config.pageSize - c % Config.pageSize) m

namespace State

/-- `off = cur mod 32` (R26). -/
def off (s : State) : Nat := s.cur % Config.pageSize

/-- `rem = 32 - off` (R26). -/
def rem (s : State) : Nat := Config.pageSize - s.off

/-- `rel = cur - base` (R26). -/
def rel (s : State) : Nat := s.cur - s.base.toNat

/-- `endp = base + len` (R26), without wrap-around (43_paginated_write.md R152). -/
def endp (s : State) : Nat := s.base.toNat + s.len

/-- `m = base + len - cur`, the bytes still to go (43_paginated_write.md R153). -/
def toGo (s : State) : Nat := s.endp - s.cur

/-- `cend = min(rel + rem, len)` (R26). -/
def cend (s : State) : Nat := min (s.rel + s.rem) s.len

/-- `klen = NEXT_CHUNK(cur, base + len - cur)` (43_paginated_write.md R153). -/
def klen (s : State) : Nat := nextChunkLen s.cur s.toGo

/-- `dev`, the device bus address of every transaction (40_address_encoder.md R112). -/
def dev (s : State) : BitVec 7 := devAddrOf s.hwAddr

/-- The low 16 bits of the cursor; the bits above are dropped (30_encoding.md R88). -/
def curAddr (s : State) : Addr := BitVec.ofNat 16 s.cur

/-- `data[i]`, the WDATA reply to request `i` (00_scope.md R10); the host's own byte where none is listed (log 11). -/
def dataAt (s : State) (i : Nat) : Byte := s.data.getD i (Config.hostData i)

/-- `buf[i]` (00_scope.md R10); what the host's buffer held where none is listed (log 11). -/
def bufAt (s : State) (i : Nat) : Byte := s.buf.getD i (Config.hostBuf i)

/-- `data[rel .. rel + klen)`, the sub-slice of the chunk (43_paginated_write.md R150). -/
def chunkData (s : State) : List Byte := (List.range s.klen).map fun i => s.dataAt (s.rel + i)

/-- `scratch[0 .. n)`. -/
def scratchTo (s : State) (n : Nat) : List Byte := s.scratch.toList.take n

end State

/-- `len` as latched from the CMD port, which is `LEN_W` bits wide (10_state.md R30, log 8). -/
def portLen (p : Params) (n : Nat) : Nat := n % 2 ^ p.lenW

/-- An error value as it comes over the TR port, `ERR_W` bits (30_encoding.md R86, log 8). -/
def portErr (p : Params) (e : Nat) : Nat := e % 2 ^ p.errW

/-- One request on the TR port (00_scope.md R10). -/
inductive Request where
  /-- `TrWrite(dev, bytes)`. -/
  | write (dev : BitVec 7) (bytes : List Byte)
  /-- `TrWriteRead(dev, wbytes, k, dst)`. -/
  | writeRead (dev : BitVec 7) (sent : List Byte) (k dst : Nat)
  /-- `TrSleep(u)`. -/
  | sleep (units : Nat)
  deriving DecidableEq, Repr

/-- The request of a write attempt (41_raw_write_retry.md R121, 20_memory.md R56). -/
def writeRequest (s : State) : Request := .write s.dev (s.scratchTo (Config.hdrLen + s.klen))

/-- The request of a read attempt (42_raw_read.md R141, 20_memory.md R57). -/
def readRequest (s : State) : Request := .writeRead s.dev (s.scratchTo Config.hdrLen) s.klen s.rel

/-- The request of a delay (20_memory.md R58). -/
def sleepRequest : Request := .sleep Config.retryDelay

/-- The request outstanding on TR: in `ATTEMPT` by `op`, in `DELAY` the sleep, else none (30_encoding.md R86). -/
def State.request (s : State) : Option Request :=
  match s.fsm with
  | .attempt =>
    match s.op with
    | .write => some (writeRequest s)
    | .read => some (readRequest s)
  | .delay => some sleepRequest
  | .idle | .chunk | .encode => none

/-- The fields of the TR port, format F6 (30_encoding.md R86). A field "not used" has no value in this view (log 23). -/
structure TrPort where
  kind : BitVec 2
  dev : Option (BitVec 7)
  wlen : Option (BitVec 6)
  payload : List Byte
  rlen : Option (BitVec 6)
  dst : Option Nat
  units : Option (BitVec 8)
  deriving DecidableEq, Repr

/-- F6: the fields a request puts on the port (30_encoding.md R86). -/
def portFields : Option Request → TrPort
  | none => { kind := 0, dev := none, wlen := none, payload := [], rlen := none, dst := none, units := none }
  | some (.write d bs) =>
    { kind := 1, dev := some d, wlen := some (BitVec.ofNat 6 bs.length), payload := bs, rlen := none, dst := none,
      units := none }
  | some (.writeRead d bs k dst) =>
    { kind := 2, dev := some d, wlen := some (BitVec.ofNat 6 bs.length), payload := bs,
      rlen := some (BitVec.ofNat 6 k), dst := some dst, units := none }
  | some (.sleep u) =>
    { kind := 3, dev := none, wlen := none, payload := [], rlen := none, dst := none,
      units := some (BitVec.ofNat 8 u) }

/-- The TR port in a state. -/
def State.trPort (s : State) : TrPort := portFields s.request

end Sys2Proof.Machine
end

