-- ==== Sys2Proof/Machine/Flags.lean ====
section
/-! DEFINITION. The block has no condition codes and no status flags (spec/10_state.md R29). Its only outcome
indication is the response to a command; this file holds it, and the guards the sequencer tests. -/

namespace Sys2Proof.Machine

/-- `rsp_ok`, and `tr_ok` of a reply (30_encoding.md R86, R87). -/
def Reply.okBit : Reply → BitVec 1
  | .ok => 1
  | .err _ => 0

/-- `rsp_err`: the error value of `err(e)`; unspecified for `ok` (30_encoding.md R87, log 23). -/
def Reply.errField : Reply → Option Nat
  | .ok => none
  | .err e => some e

/-- `respond(r)` (60_exceptions.md R186): the one response to the command; the block is back in `IDLE`. -/
def respond (r : Reply) (s : State) : State :=
  { s with rsp := some r, trace := s.trace ++ [.rsp r], fsm := .idle }

/-- The loop condition `cur < base + len`, evaluated without wrap-around (43_paginated_write.md R151). -/
def State.chunkTodo (s : State) : Bool := decide (s.cur < s.endp)

/-- A failed attempt may be retried: `op = 1` and `retries < 10` (41_raw_write_retry.md R125). -/
def State.mayRetry (s : State) : Bool := decide (s.op = .write ∧ s.retries.toNat < Config.maxRetries)

/-- A failed attempt ends the command: `op = 0` or `retries = 10` (41_raw_write_retry.md R126). -/
def State.mustFail (s : State) : Bool := decide (s.op = .read ∨ s.retries.toNat = Config.maxRetries)

end Sys2Proof.Machine
end

