-- ==== Sys2Proof/Machine/Transport.lean ====
section
/-! DEFINITION. How the transport collaborator answers a request: from the listed answers (spec/20_memory.md R59), or
as the reference environment of 20_memory.md R70 does. -/

namespace Sys2Proof.Machine

/-- What comes of a request. -/
inductive Served (α : Type) where
  /-- No answer arrives (70_reset_and_hazards.md R222). -/
  | withheld
  /-- The reference device gives the transaction no meaning (20_memory.md R70). -/
  | noMeaning
  /-- An answer, and the answerer's next state. -/
  | answered (a : Answer) (next : α)

/-- `finish`: the write cycle ends (20_memory.md R70). -/
def Device.endCycle (d : Device) : Device := { d with busy := false }

/-- What happens in the environment before a transport event: `finish`, if it is listed as occurring here. -/
def Device.tick (d : Device) : Device :=
  match d.finish with
  | [] => d
  | true :: rest => { d with busy := false, finish := rest }
  | false :: rest => { d with finish := rest }

/-- `TrWrite` of the reference environment (20_memory.md R70), after the environment's own step. -/
def Device.write (d : Device) (dev : BitVec 7) (bytes : List Byte) : Served Device :=
  if dev ≠ devAddrOf d.strap then .answered (.err d.eAbsent) d
  else if d.busy then .answered (.err d.eNack) d
  else match bytes with
    | hi :: lo :: ds =>
      if ds.length < 1 ∨ 32 < ds.length ∨ Config.capacity < (headerAddr hi lo).toNat + ds.length
          ∨ 32 < (headerAddr hi lo).toNat % 32 + ds.length
        then .noMeaning
        else .answered (.ok [])
          { d with mem := d.mem.writeBytes (headerAddr hi lo).toNat ds, busy := true }
    | _ => .noMeaning

/-- `TrWriteRead` of the reference environment (20_memory.md R70), after the environment's own step. -/
def Device.writeRead (d : Device) (dev : BitVec 7) (sent : List Byte) (k : Nat) : Served Device :=
  if dev ≠ devAddrOf d.strap then .answered (.err d.eAbsent) d
  else if d.busy then .answered (.err d.eNack) d
  else match sent with
    | [hi, lo] =>
      if k = 0 ∨ Config.capacity < (headerAddr hi lo).toNat + k then .noMeaning
      else .answered (.ok (d.mem.readBytes (headerAddr hi lo).toNat k)) d
    | _ => .noMeaning

/-- One request to the reference environment. A sleep only lets time pass. -/
def Device.serve (d : Device) : Request → Served Device
  | .write dev bytes => d.tick.write dev bytes
  | .writeRead dev sent k _ => d.tick.writeRead dev sent k
  | .sleep _ => .answered (.ok []) d.tick

/-- One request to the transport. DESIGN CHOICE, log 27: an answer `ok` from the list is only the answer; no device is modelled
behind the list, so the field `device`, its memory and its write cycle, stays as it is, where R50 and R60 have the device write. -/
def Transport.serve (t : Transport) (q : Request) : Served Transport :=
  match t.responder with
  | .answers =>
    match t.answers with
    | [] => .withheld
    | a :: rest => .answered a { t with answers := rest }
  | .device =>
    match t.device.serve q with
    | .withheld => .withheld
    | .noMeaning => .noMeaning
    | .answered a d => .answered a { t with device := d }

end Sys2Proof.Machine
end

