-- ==== Sys2Proof/Machine/Ops.lean ====
section
/-! DEFINITION. The named operations the meanings share: writing the scratch buffer, filling the host's read buffer,
performing one transport request, and surfacing a TransportError. -/

namespace Sys2Proof.Machine

/-! ## The scratch buffer -/

/-- `scratch[pos .. pos + |bs|) <- bs`; every other byte keeps its value (spec/40_address_encoder.md R111). -/
def putScratch (v : Vector Byte 34) (pos : Nat) (bs : List Byte) : Vector Byte 34 :=
  Vector.ofFn fun i => if pos ≤ i.val ∧ i.val < pos + bs.length then bs.getD (i.val - pos) 0 else v[i]

/-- ENC_HDR (40_address_encoder.md R110): the address header into `scratch[0 .. 2)`, high byte first. -/
def encHdr (a : Addr) (s : State) : State := { s with scratch := putScratch s.scratch 0 (headerBytes a) }

/-- LOAD_PAYLOAD (40_address_encoder.md R111): the chunk's bytes behind the header, one WDATA transfer per byte, for
the indices `rel, rel + 1, ...`. -/
def loadPayload (ds : List Byte) (s : State) : State :=
  { s with
    scratch := putScratch s.scratch Config.hdrLen ds
    wdataReqs := s.wdataReqs ++ (List.range ds.length).map (s.rel + ·) }

/-- The effect of ENCODE on the data path (40_address_encoder.md R113): the header, for a write the payload, and a
fresh retry counter. -/
def encodeChunk (s : State) : State :=
  match s.op with
  | .write => { loadPayload s.chunkData (encHdr s.curAddr s) with retries := 0, fsm := .attempt }
  | .read => { encHdr s.curAddr s with retries := 0, fsm := .attempt }

/-! ## The host's read buffer -/

/-- RDATA: the bytes go to `buf[dst .. dst + |bs|)`; every other position holds what it held (20_memory.md R57). -/
def storeBuf (buf : List Byte) (dst : Nat) (bs : List Byte) : List Byte :=
  ((List.range dst).map fun i => buf.getD i (Config.hostBuf i)) ++ bs ++ buf.drop (dst + bs.length)

/-- The `k` bytes of a read burst: those of the answer, and a free value for each the answer does not list. -/
def received (draws k : Nat) (bytes : List Byte) : List Byte :=
  (List.range k).map fun j => bytes.getD j (Config.freeByte (draws + j))

/-! ## One transport request -/

/-- What comes of a request in the machine. -/
inductive Performed where
  /-- The transport withholds its answer: the block has no step (43_paginated_write.md R160). -/
  | withheld
  /-- The reference device gives the transaction no meaning (20_memory.md R70). -/
  | noMeaning
  /-- The reply, and the state with the event recorded. -/
  | replied (r : Reply) (s : State)

/-- `TrWrite(dev, scratch[0 .. 2 + klen))` (20_memory.md R56). -/
def performWrite (s : State) : Performed :=
  match s.transport.serve (writeRequest s) with
  | .withheld => .withheld
  | .noMeaning => .noMeaning
  | .answered (.ok _) t =>
    .replied .ok
      { s with
        transport := t
        trace := s.trace ++ [.write s.dev (s.scratchTo (Config.hdrLen + s.klen)) .ok] }
  | .answered (.err e) t =>
    .replied (.err (portErr s.params e))
      { s with
        transport := t
        trace := s.trace ++
          [.write s.dev (s.scratchTo (Config.hdrLen + s.klen)) (.err (portErr s.params e))] }

/-- `TrWriteRead(dev, scratch[0 .. 2), klen, rel)` (20_memory.md R57): on `ok` the bytes received fill
`buf[rel .. rel + klen)`; on `err(e)` that part holds unspecified bytes (free values, log 10). -/
def performWriteRead (s : State) : Performed :=
  match s.transport.serve (readRequest s) with
  | .withheld => .withheld
  | .noMeaning => .noMeaning
  | .answered (.ok bytes) t =>
    .replied .ok
      { s with
        transport := t
        buf := storeBuf s.buf s.rel (received s.draws s.klen bytes)
        draws := s.draws + s.klen
        trace := s.trace ++ [.writeRead s.dev (s.scratchTo Config.hdrLen) s.klen
          (.ok (received s.draws s.klen bytes))] }
  | .answered (.err e) t =>
    .replied (.err (portErr s.params e))
      { s with
        transport := t
        buf := storeBuf s.buf s.rel (received s.draws s.klen [])
        draws := s.draws + s.klen
        trace := s.trace ++ [.writeRead s.dev (s.scratchTo Config.hdrLen) s.klen
          (.err (portErr s.params e))] }

/-- `TrSleep(1)` (20_memory.md R58): it cannot fail; the answer carries no information (30_encoding.md R86). -/
def performSleep (s : State) : Performed :=
  match s.transport.serve sleepRequest with
  | .withheld => .withheld
  | .noMeaning => .noMeaning
  | .answered _ t =>
    .replied .ok { s with transport := t, trace := s.trace ++ [.sleep Config.retryDelay] }

/-- The reply to the request outstanding in `ATTEMPT`: the one already given, or the transport's answer now. -/
def attemptReply (s : State) : Performed :=
  match s.reply with
  | some r => .replied r { s with reply := none }
  | none =>
    match s.op with
    | .write => performWrite s
    | .read => performWriteRead s

/-- The return of the sleep outstanding in `DELAY`: the one already given, or the transport's now. -/
def sleepReply (s : State) : Performed :=
  match s.reply with
  | some r => .replied r { s with reply := none }
  | none => performSleep s

/-- Why a transport primitive of this `tr_kind` cannot be performed on its own here, if it cannot: the block does not present
that request on TR (30_encoding.md R86: `0b00` outside `ATTEMPT` and `DELAY`); a write of no data bytes or a read of none,
"never produced" (R90 (e)); a reply is pending, and at most one request is outstanding (10_state.md R34 (h), log 18). -/
def primitiveStop (kind : BitVec 2) (s : State) : Option Refusal :=
  if s.trPort.kind ≠ kind then some .guardNotMet
  else if kind ≠ 0b11 ∧ s.klen = 0 then some .emptyChunk
  else if s.reply = none then none
  else some .replyPending

/-! ## Surfacing a TransportError -/

/-- `raise TransportError(e)` (60_exceptions.md R186, 41_raw_write_retry.md R126): the error is kept in `err`, the
response is `err(e)`, and the block is in `IDLE`. Nothing else is saved; there is no handler and no return
(60_exceptions.md R189). -/
def raiseTransportError (e : Nat) (s : State) : State := respond (.err e) { s with err := e }

/-- "Advance cursor by `32 - page_offset`" (41_raw_write_retry.md R124), and back to the loop test. -/
def advance (s : State) : State := { s with cur := s.cur + s.rem, fsm := .chunk }

/-- Accepting a command (43_paginated_write.md R161): the operands are latched, the cursor starts at the address; the
host's slice becomes `data` or `buf`, and the response before it has been taken (70_reset_and_hazards.md R213,
log 14). -/
def latchCommand (o : Op) (a : Addr) (n : Nat) (s : State) : State :=
  { s with
    op := o
    base := a
    len := portLen s.params n
    cur := a.toNat
    fsm := .chunk
    rsp := none
    wdataReqs := [] }

/-- The host's slice of a command, lent for the time of the command (10_state.md R31). -/
def lendSlice (c : Command) (s : State) : State :=
  match c.op with
  | .write => { s with data := c.slice }
  | .read => { s with buf := c.slice }

end Sys2Proof.Machine
end

