-- ==== Sys2Proof/Machine/Sequencer.lean ====
section
/-! DEFINITION. The meanings of the eight sequencer steps T1 to T8 (spec/43_paginated_write.md R160). Each has its
effect where its guard holds; elsewhere the spec has no such transition (log 20). -/

namespace Sys2Proof.Machine

/-- ACCEPT, T1 (43_paginated_write.md R161). -/
def execAccept (o : Op) (s : State) : Outcome :=
  if s.fsm = .idle ∧ s.op = o then
    match s.cmds with
    | [] => .refused .guardNotMet
    | c :: rest => .next (lendSlice c (latchCommand c.op c.addr c.len { s with cmds := rest }))
  else .refused .guardNotMet

/-- CHUNK_DONE, T2 (43_paginated_write.md R162). -/
def execChunkDone (o : Op) (s : State) : Outcome :=
  if s.fsm = .chunk ∧ s.op = o ∧ s.chunkTodo = false then .next (respond .ok s) else .refused .guardNotMet

/-- CHUNK_NEXT, T3 (43_paginated_write.md R163). -/
def execChunkNext (o : Op) (s : State) : Outcome :=
  if s.fsm = .chunk ∧ s.op = o ∧ s.chunkTodo = true then .next { s with fsm := .encode }
  else .refused .guardNotMet

/-- ENCODE, T4 (40_address_encoder.md R113). -/
def execEncode (o : Op) (s : State) : Outcome :=
  if s.fsm = .encode ∧ s.op = o then .next (encodeChunk s) else .refused .guardNotMet

/-- ATTEMPT_OK, T5 (41_raw_write_retry.md R124). -/
def execAttemptOk (o : Op) (s : State) : Outcome :=
  if s.fsm = .attempt ∧ s.op = o then
    match attemptReply s with
    | .replied .ok s1 => .next (advance s1)
    | .noMeaning => .refused .deviceNoMeaning
    | .replied (.err _) _ | .withheld => .refused .guardNotMet
  else .refused .guardNotMet

/-- The effect of ATTEMPT_RETRY on the registers (41_raw_write_retry.md R125). -/
def toDelay (e : Nat) (s : State) : State := { s with err := e, fsm := .delay }

/-- ATTEMPT_RETRY, T6 (41_raw_write_retry.md R125). -/
def execAttemptRetry (s : State) : Outcome :=
  if s.fsm = .attempt ∧ s.mayRetry = true then
    match attemptReply s with
    | .replied (.err e) s1 => .next (toDelay e s1)
    | .noMeaning => .refused .deviceNoMeaning
    | .replied .ok _ | .withheld => .refused .guardNotMet
  else .refused .guardNotMet

/-- ATTEMPT_FAIL, T7 (41_raw_write_retry.md R126). -/
def execAttemptFail (o : Op) (s : State) : Outcome :=
  if s.fsm = .attempt ∧ s.op = o ∧ s.mustFail = true then
    match attemptReply s with
    | .replied (.err e) s1 => .next (raiseTransportError e s1)
    | .noMeaning => .refused .deviceNoMeaning
    | .replied .ok _ | .withheld => .refused .guardNotMet
  else .refused .guardNotMet

/-- The effect of DELAY on the registers (41_raw_write_retry.md R127). -/
def afterDelay (s : State) : State := { s with retries := s.retries + 1, fsm := .attempt }

/-- DELAY, T8 (41_raw_write_retry.md R127). -/
def execDelay (s : State) : Outcome :=
  if s.fsm = .delay ∧ s.op = .write then
    match sleepReply s with
    | .replied _ s1 => .next (afterDelay s1)
    | .noMeaning => .refused .deviceNoMeaning
    | .withheld => .refused .guardNotMet
  else .refused .guardNotMet

end Sys2Proof.Machine
end

