-- ==== Sys2Proof/Machine/Raw.lean ====
section
/-! DEFINITION. The meanings of the raw operations RAW_WRITE (spec/41_raw_write_retry.md R120) and RAW_READ
(42_raw_read.md R140), written from their pseudocode, not from the sequencer. -/

namespace Sys2Proof.Machine

/-- How a raw operation ends. -/
inductive RawEnd where
  /-- The transport withholds its answer: the block waits in `ATTEMPT` or `DELAY` (70_reset_and_hazards.md R222). -/
  | waiting (s : State)
  /-- The reference device gives a transaction no meaning. -/
  | noMeaning
  /-- `return r`. -/
  | returned (r : Reply) (s : State)

/-- The loop of RAW_WRITE (41_raw_write_retry.md R120) with `left = 10 - retries` retries left: one attempt; on an
error, if a retry is left, one sleep of one unit, `retries <- retries + 1`, and again. With none left it is the single
attempt of RAW_READ. -/
def rawAttempts : Nat → State → RawEnd
  | left, s =>
    match attemptReply s with
    | .withheld => .waiting s
    | .noMeaning => .noMeaning
    | .replied .ok s1 => .returned .ok s1
    | .replied (.err e) s1 =>
      match left with
      | 0 => .returned (.err e) { s1 with err := e }
      | n + 1 =>
        match sleepReply (toDelay e s1) with
        | .withheld => .waiting (toDelay e s1)
        | .noMeaning => .noMeaning
        | .replied _ s2 => rawAttempts n (afterDelay s2)

/-- RAW_WRITE of the chunk at the cursor (41_raw_write_retry.md R120): the frame is built once, then up to 11
attempts. -/
def rawWrite (s : State) : RawEnd := rawAttempts Config.maxRetries (encodeChunk s)

/-- RAW_READ of the chunk at the cursor (42_raw_read.md R140): the header, then one combined transaction, no retry. -/
def rawRead (s : State) : RawEnd := rawAttempts 0 (encodeChunk s)

/-- A raw operation performed on its own returns its result on the TR port, where the sequencer's ATTEMPT_OK,
ATTEMPT_RETRY or ATTEMPT_FAIL finds it; it does not change `cur` and gives no response (41_raw_write_retry.md R131,
log 17). -/
def finishRaw : RawEnd → Outcome
  | .waiting s => .next s
  | .noMeaning => .refused .deviceNoMeaning
  | .returned r s => .next { s with reply := some r }

/-- RAW_WRITE (41_raw_write_retry.md R120), taken up in the state `f` of its selector: from the start in `ENCODE`, or
where it stands in `ATTEMPT` or `DELAY`. "must refuse ... `k = 0`" (R130). -/
def execRawWrite (f : Fsm) (s : State) : Outcome :=
  if s.fsm = f ∧ s.op = .write then
    if s.klen = 0 then .refused .emptyChunk
    else match f with
      | .encode => finishRaw (rawWrite s)
      | .attempt =>
        if s.retries.toNat ≤ Config.maxRetries
          then finishRaw (rawAttempts (Config.maxRetries - s.retries.toNat) s)
          else .refused .guardNotMet
      | .delay =>
        if s.retries.toNat < Config.maxRetries then
          match sleepReply s with
          | .withheld => .next s
          | .noMeaning => .refused .deviceNoMeaning
          | .replied _ s1 =>
            finishRaw (rawAttempts (Config.maxRetries - s.retries.toNat - 1) (afterDelay s1))
        else .refused .guardNotMet
      | .idle | .chunk => .refused .guardNotMet
  else .refused .guardNotMet

/-- RAW_READ (42_raw_read.md R140), taken up in the state `f` of its selector: from the start in `ENCODE`, or where it
stands in `ATTEMPT`. -/
def execRawRead (f : Fsm) (s : State) : Outcome :=
  if s.fsm = f ∧ s.op = .read then
    if s.klen = 0 then .refused .emptyChunk
    else match f with
      | .encode => finishRaw (rawRead s)
      | .attempt => finishRaw (rawAttempts 0 s)
      | .idle | .chunk | .delay => .refused .guardNotMet
  else .refused .guardNotMet

end Sys2Proof.Machine
end

