-- ==== Sys2Proof/Machine/Commands.lean ====
section
/-! DEFINITION. The meanings of the two host commands performed whole, WRITE (spec/43_paginated_write.md R150) and READ
(44_paginated_read.md R170), written from their pseudocode; that the sequencer agrees (R164) is a statement, not the
definition. -/

namespace Sys2Proof.Machine

/-- The loop of WRITE and of READ, with the raw operation of the command; `fuel` bounds the chunks still to be done
(each takes at least one byte, so `len + 1` is never used up). A chunk that surfaces an error ends the command; a
transport that withholds its answer leaves the block waiting where it is. -/
def chunkLoop (raw : State → RawEnd) : Nat → State → Outcome
  | 0, s => .next s
  | fuel + 1, s =>
    if s.chunkTodo then
      match raw s with
      | .waiting s1 => .next s1
      | .noMeaning => .refused .deviceNoMeaning
      | .returned .ok s1 => chunkLoop raw fuel (advance s1)
      | .returned (.err e) s1 => .next (raiseTransportError e s1)
    else .next (respond .ok s)

/-- A command offered while one is in progress is held off: not accepted, not dropped, no error; it waits on CMD
(70_reset_and_hazards.md R216). -/
def holdOff (o : Op) (a : Addr) (n : Nat) (s : State) : State :=
  { s with cmds := s.cmds ++ [{ op := o, addr := a, len := n, slice := [] }] }

/-- WRITE (43_paginated_write.md R150): the whole command, its bytes those of `data`. -/
def execWrite (a : Addr) (n : Nat) (s : State) : Outcome :=
  if s.fsm = .idle then chunkLoop rawWrite (portLen s.params n + 1) (latchCommand .write a n s)
  else .next (holdOff .write a n s)

/-- READ (44_paginated_read.md R170): the whole command, its bytes going to `buf`. -/
def execRead (a : Addr) (n : Nat) (s : State) : Outcome :=
  if s.fsm = .idle then chunkLoop rawRead (portLen s.params n + 1) (latchCommand .read a n s)
  else .next (holdOff .read a n s)

end Sys2Proof.Machine
end

