-- ==== Sys2Proof/Machine/Encoder.lean ====
section
/-! DEFINITION. The meanings of the byte layouts and pure functions: NEXT_CHUNK, ENC_HDR, LOAD_PAYLOAD, DEV_ADDR, WFRAME
and RFRAME (spec/40_address_encoder.md, 30_encoding.md R82, R83, 43_paginated_write.md R153). A pure function's value
goes to `result` (log 15). -/

namespace Sys2Proof.Machine

/-- The value of NEXT_CHUNK: the formula of 43_paginated_write.md R153 for `m >= 1`; a free value for `m = 0`, which is
outside its stated operands (log 16). -/
def nextChunkValue (c m draws : Nat) : Nat :=
  if m = 0 then (Config.freeChunkLen draws).toNat else nextChunkLen c m

/-- How many free values that value drew. -/
def nextChunkDraws (m : Nat) : Nat := if m = 0 then 1 else 0

/-- NEXT_CHUNK (43_paginated_write.md R153): the length of the chunk that starts at a cursor with low bits `c`, with
`base + len - cur` bytes to go, `cur` being the state's, whatever `c` (DESIGN CHOICE, log 16). -/
def execNextChunk (c : BitVec 5) (s : State) : Outcome :=
  .next { s with
    result := some (.chunkLen (nextChunkValue c.toNat s.toGo s.draws))
    draws := s.draws + nextChunkDraws s.toGo }

/-- ENC_HDR (40_address_encoder.md R110). DESIGN CHOICE, log 28: the spec has it in step ENCODE, of `cur` (30_encoding.md R89); on
its own it is performed in any state, of the address it is given. -/
def execEncHdr (a : Addr) (s : State) : Outcome := .next (encHdr a s)

/-- LOAD_PAYLOAD (40_address_encoder.md R111): 1 to 32 bytes. DESIGN CHOICE, log 21: R111 performs it for writes only (`op = 1`)
and says nothing of it elsewhere; on its own it is performed whatever `op` holds, and in any state (log 28). -/
def execLoadPayload (ds : List Byte) (s : State) : Outcome :=
  if payloadLenOk ds then .next (loadPayload ds s) else .refused .illFormedFrame

/-- DEV_ADDR (40_address_encoder.md R112). DESIGN CHOICE, log 28: on its own it is performed in any state, of the three bits it is
given, be they `hw_addr` or not. -/
def execDevAddr (h : BitVec 3) (s : State) : Outcome := .next { s with result := some (.busAddr (devAddrOf h)) }

/-- WFRAME (30_encoding.md R82): the frame's bytes in transmission order. DESIGN CHOICE, log 28: the spec has it as the payload of
TR_WRITE (30_encoding.md R89); on its own it is performed in any state, of the address and the bytes it is given. -/
def execWframe (a : Addr) (ds : List Byte) (s : State) : Outcome :=
  if payloadLenOk ds && insidePage a ds.length
    then .next { s with result := some (.writeFrame (headerBytes a ++ ds)) }
    else .refused .illFormedFrame

/-- RFRAME (30_encoding.md R83): the two bytes sent, and the length of the burst received after them, which is passed
beside the frame (R94) and computed by NEXT_CHUNK at the frame's address, so that `(A mod 32) + k <= 32`; at the cursor it is
`klen`. DESIGN CHOICE, log 16: the spec has only `A = cur`; the bytes to go are those of the state, whatever `A`. -/
def execRframe (a : Addr) (s : State) : Outcome :=
  .next { s with
    result := some (.readFrame (headerBytes a) (nextChunkValue a.toNat s.toGo s.draws))
    draws := s.draws + nextChunkDraws s.toGo }

end Sys2Proof.Machine
end

