-- ==== Sys2Proof/Machine/Primitives.lean ====
section
/-! DEFINITION. The meanings of the transport primitives performed on their own: TR_WRITE, TR_WRITE_READ, TR_SLEEP
(spec/20_memory.md R56 to R58), where the block presents that request on TR (30_encoding.md R86). The reply is left on the TR
port for the sequencer (log 18). -/

namespace Sys2Proof.Machine

/-- A primitive ends with its reply on the TR port; while the transport withholds its answer nothing happens
(70_reset_and_hazards.md R222). Where the block does not present its request it is refused (log 18). -/
def finishPrimitive (kind : BitVec 2) (s : State) (p : Performed) : Outcome :=
  match primitiveStop kind s with
  | some why => .refused why
  | none =>
    match p with
    | .withheld => .next s
    | .noMeaning => .refused .deviceNoMeaning
    | .replied r s1 => .next { s1 with reply := some r }

/-- TR_WRITE (20_memory.md R56), `tr_kind = 0b01`: in `ATTEMPT` of a WRITE. -/
def execTrWrite (s : State) : Outcome := finishPrimitive 0b01 s (performWrite s)

/-- TR_WRITE_READ (20_memory.md R57), `tr_kind = 0b10`: in `ATTEMPT` of a READ. -/
def execTrWriteRead (s : State) : Outcome := finishPrimitive 0b10 s (performWriteRead s)

/-- TR_SLEEP (20_memory.md R58), `tr_kind = 0b11`: in `DELAY`, so that its reply is the return of the sleep and is never
taken for an attempt's. -/
def execTrSleep (s : State) : Outcome := finishPrimitive 0b11 s (performSleep s)

end Sys2Proof.Machine
end

