-- ==== Sys2Proof/Machine/Dispatch.lean ====
section
/-! DEFINITION. What each operation does: one arm per row of spec/opcode_table.json. -/

namespace Sys2Proof.Machine

/-- The meaning of one operation. -/
def exec (i : Instr) (s : State) : Host.Outcome State Fault Refusal :=
  match i with
  | .write a n => Sys2Proof.Machine.execWrite a n s
  | .read a n => Sys2Proof.Machine.execRead a n s
  | .nextChunk c => Sys2Proof.Machine.execNextChunk c s
  | .encHdr a => Sys2Proof.Machine.execEncHdr a s
  | .loadPayload ds => Sys2Proof.Machine.execLoadPayload ds s
  | .devAddr h => Sys2Proof.Machine.execDevAddr h s
  | .rawWrite f => Sys2Proof.Machine.execRawWrite f s
  | .rawRead f => Sys2Proof.Machine.execRawRead f s
  | .trWrite => Sys2Proof.Machine.execTrWrite s
  | .trWriteRead => Sys2Proof.Machine.execTrWriteRead s
  | .trSleep => Sys2Proof.Machine.execTrSleep s
  | .wframe a ds => Sys2Proof.Machine.execWframe a ds s
  | .rframe a => Sys2Proof.Machine.execRframe a s
  | .accept o => Sys2Proof.Machine.execAccept o s
  | .chunkDone o => Sys2Proof.Machine.execChunkDone o s
  | .chunkNext o => Sys2Proof.Machine.execChunkNext o s
  | .encode o => Sys2Proof.Machine.execEncode o s
  | .attemptOk o => Sys2Proof.Machine.execAttemptOk o s
  | .attemptRetry => Sys2Proof.Machine.execAttemptRetry s
  | .attemptFail o => Sys2Proof.Machine.execAttemptFail o s
  | .delay => Sys2Proof.Machine.execDelay s

end Sys2Proof.Machine
end

