-- ==== Sys2Proof/Machine/Fetch.lean ====
section
/-! DEFINITION. Which operation the next step performs: the one in the slot, else the sequencer step that `fsm`, `op`
and the guards of spec/43_paginated_write.md R160 select; and how a word of the opcode table is placed there. -/

namespace Sys2Proof.Machine

/-- What the next step has to do. -/
inductive Fetched where
  /-- The block has no step: no command is offered, or the transport has not answered (43_paginated_write.md R160). -/
  | waiting
  /-- No transition of R160 is for this state; no run reaches it. -/
  | stuck
  /-- The bytes of an operation. -/
  | word (f : Format) (bs : List Byte)

/-- The sequencer's selector: `{fsm, op}` and the number of the one step whose guard holds (43_paginated_write.md
R160). Where the reference device gives the transaction no meaning there is no reply to tell the steps apart; the
first of them is selected, and refuses. -/
def sequencerWord (s : State) : Fetched :=
  match s.fsm with
  | .idle => if s.cmds = [] then .waiting else .word .seq (encodeSeq .idle s.op 1)
  | .chunk => if s.chunkTodo then .word .seq (encodeSeq .chunk s.op 3) else .word .seq (encodeSeq .chunk s.op 2)
  | .encode => .word .seq (encodeSeq .encode s.op 4)
  | .attempt =>
    match attemptReply s with
    | .withheld => .waiting
    | .noMeaning => .word .seq (encodeSeq .attempt s.op 5)
    | .replied .ok _ => .word .seq (encodeSeq .attempt s.op 5)
    | .replied (.err _) _ =>
      if s.mustFail then .word .seq (encodeSeq .attempt s.op 7)
      else if s.mayRetry then .word .seq (encodeSeq .attempt s.op 6)
      else .stuck
  | .delay =>
    match s.op, sleepReply s with
    | .read, _ => .stuck
    | .write, .withheld => .waiting
    | .write, _ => .word .seq (encodeSeq .delay s.op 8)

/-- An operation presented in the slot comes first (log 1). -/
def fetch (s : State) : Fetched :=
  match s.slot with
  | some (f, bs) => .word f bs
  | none => sequencerWord s

/-- A request whose answer the transport withholds. -/
def Performed.isWithheld : Performed → Bool
  | .withheld => true
  | .noMeaning | .replied _ _ => false

/-- A transport primitive in the slot blocks while the transport withholds its answer (70_reset_and_hazards.md R222,
log 5). -/
def blocks (i : Instr) (s : State) : Bool :=
  match i with
  | .trWrite => (primitiveStop 0b01 s).isNone && (performWrite s).isWithheld
  | .trWriteRead => (primitiveStop 0b10 s).isNone && (performWriteRead s).isWithheld
  | .trSleep => (primitiveStop 0b11 s).isNone && (performSleep s).isWithheld
  | .write _ _ | .read _ _ | .nextChunk _ | .encHdr _ | .loadPayload _ | .devAddr _ | .rawWrite _ | .rawRead _
  | .wframe _ _ | .rframe _ | .accept _ | .chunkDone _ | .chunkNext _ | .encode _ | .attemptOk _ | .attemptRetry
  | .attemptFail _ | .delay => false

/-- A state in which the sequencer itself selects step `i`: the state and `op` of its selector, and its guard. -/
def arrangeStep (i : Instr) (s : State) : Option State :=
  match i with
  | .accept o =>
    some { s with
      fsm := .idle
      op := o
      cmds := if s.cmds = [] then [{ op := o, addr := 0, len := 0, slice := [] }] else s.cmds }
  | .chunkDone o => some { s with fsm := .chunk, op := o, len := 0, cur := s.base.toNat }
  | .chunkNext o => some { s with fsm := .chunk, op := o, len := 1, cur := s.base.toNat }
  | .encode o => some { s with fsm := .encode, op := o }
  | .attemptOk o => some { s with fsm := .attempt, op := o, reply := some .ok }
  | .attemptRetry => some { s with fsm := .attempt, op := .write, retries := 0, reply := some (.err 0) }
  | .attemptFail o => some { s with fsm := .attempt, op := o, retries := 10, reply := some (.err 0) }
  | .delay => some { s with fsm := .delay, op := .write, reply := some .ok }
  | .write _ _ | .read _ _ | .nextChunk _ | .encHdr _ | .loadPayload _ | .devAddr _ | .rawWrite _ | .rawRead _
  | .trWrite | .trWriteRead | .trSleep | .wframe _ _ | .rframe _ => none

/-- The transport replies to a request. -/
def Performed.isReplied : Performed → Bool
  | .replied _ _ => true
  | .withheld | .noMeaning => false

/-- A state in which a transport primitive runs at once: the block presents its request, for one byte at `base` where it does
not yet, and the transport replies. -/
def arrangePrimitive (kind : BitVec 2) (f : Fsm) (o : Op) (perform : State → Performed) (s : State) : State :=
  let presenting := match primitiveStop kind s with
    | none => s
    | some _ => { s with fsm := f, op := o, len := 1, cur := s.base.toNat, reply := none }
  if (perform presenting).isReplied then presenting
  else { presenting with transport := { s.transport with responder := .answers, answers := [.ok []] } }

/-- What an operation in the slot needs to run at once: a command needs `IDLE`, a transport primitive a block that presents
its request and a transport that replies. -/
def arrangeSlot (i : Instr) (s : State) : State :=
  match i with
  | .write _ _ | .read _ _ => { s with fsm := .idle }
  | .trWrite => arrangePrimitive 0b01 .attempt .write performWrite s
  | .trWriteRead => arrangePrimitive 0b10 .attempt .read performWriteRead s
  | .trSleep => arrangePrimitive 0b11 .delay .write performSleep s
  | .nextChunk _ | .encHdr _ | .loadPayload _ | .devAddr _ | .rawWrite _ | .rawRead _ | .wframe _ _ | .rframe _
  | .accept _ | .chunkDone _ | .chunkNext _ | .encode _ | .attemptOk _ | .attemptRetry | .attemptFail _ | .delay => s

/-- Place a word of spec/opcode_table.json so that the very next step performs it (log 4): a sequencer step by putting
the block in the state that selects it, anything else in the slot. -/
def placeWord (s : State) (nbits w : Nat) : State :=
  match tableWord nbits w with
  | none => s
  | some (f, bs) =>
    match decode f bs with
    | .error _ => { s with slot := some (f, bs) }
    | .ok i =>
      match arrangeStep i s with
      | some s1 => { s1 with slot := none }
      | none => { arrangeSlot i s with slot := some (f, bs) }

end Sys2Proof.Machine
end

