-- ==== Sys2Proof/Machine/Step.lean ====
section
/-! DEFINITION. One step of the machine: one transition of the sequencer (spec/43_paginated_write.md R160, D1). -/

namespace Sys2Proof.Machine

/-- One step: fetch, decode, and perform the operation. Where the block has no step it stays as it is, for as long as
its environment lets it wait (70_reset_and_hazards.md R222, log 5). -/
def step (s : State) : Host.Outcome State Fault Refusal :=
  match fetch s with
  | .waiting => .next s
  | .stuck => .fault .noTransition
  | .word f bs =>
    match decode f bs with
    | .error why => .refused (.undecodable why)
    | .ok i => if blocks i s then .next s else exec i { s with slot := none }

/-- `s` with a word of spec/opcode_table.json placed where `step` fetches its next operation. -/
def State.withFetchWord (s : State) (nbits w : Nat) : State := placeWord s nbits w

end Sys2Proof.Machine
end

