-- ==== Sys2Proof/Machine/Environment.lean ====
section
/-! DEFINITION. What the outside world can do between steps (spec/60_exceptions.md R193, 70_reset_and_hazards.md R213):
the moves of the host, of the transport and of the device. No move overlaps two commands, changes `data` during a
command, or takes an answer back (log 22). -/

namespace Sys2Proof.Machine

/-- The host offers a command; the block accepts it when it is idle (70_reset_and_hazards.md R213). -/
def State.offer (s : State) (c : Command) : State := { s with cmds := s.cmds ++ [c] }

/-- The host takes the response (60_exceptions.md R186). -/
def State.takeResponse (s : State) : State := { s with rsp := none }

/-- The transport answers one more request (20_memory.md R59). -/
def State.giveAnswer (s : State) (a : Answer) : State :=
  { s with transport := { s.transport with answers := s.transport.answers ++ [a] } }

/-- The device's write cycle ends: the environment step `finish` (20_memory.md R70). -/
def State.finishCycle (s : State) : State :=
  { s with transport := { s.transport with device := s.transport.device.endCycle } }

/-- A reset edge after construction (70_reset_and_hazards.md R225): "a model has reset only as the initial state", which is
`State.construct` (R210); `hw_addr` is loaded once (10_state.md R21), and the sequencer has "no reset edge" (43_paginated_write.md
R160). During a command it is refused, as R225 says; in `IDLE`, of which R225 says no more than that, it is refused too (DEDUCED,
log 25). -/
def State.resetEdge (s : State) (_cfgHwAddr : BitVec 3) : Outcome :=
  if s.fsm = .idle then .refused .secondReset else .refused .resetDuringCommand

/-- Release (60_exceptions.md R200, 70_reset_and_hazards.md R212): nothing happens in the block; possible in `IDLE`. -/
def State.release (s : State) : Option Transport := if s.fsm = .idle then some s.transport else none

end Sys2Proof.Machine
end

