-- ==== Sys2Proof/Safety.lean ====
section
/-! DEFINITION. The terms claims about the block use: the premises of spec/70_reset_and_hazards.md R215, the closed form
of the chunk sequence (43_paginated_write.md R154), the shape of traces (R159), and the invariants of 10_state.md
R34. -/

namespace Sys2Proof.Machine

/-! ## Premises (70_reset_and_hazards.md R215) -/

/-- `InRange(a, n) := a + n <= 8192` (20_memory.md R62). -/
def InRange (a n : Nat) : Prop := a + n ≤ Config.capacity

/-- What 10_state.md R33 fixes after reset, every unspecified register left open: any value of `scratch`, `op`, `base`,
`len`, `cur`, `retries`, `err` meets it. -/
structure AfterReset (cfgHwAddr : BitVec 3) (s : State) : Prop where
  fsm : s.fsm = .idle
  hwAddr : s.hwAddr = cfgHwAddr
  noReply : s.reply = none
  noResponse : s.rsp = none
  slotEmpty : s.slot = none

/-- The block is between commands, with nothing pending on TR and no operation in the model's slot. -/
structure Ready (s : State) : Prop where
  fsm : s.fsm = .idle
  noReply : s.reply = none
  slotEmpty : s.slot = none

/-- The reference device answers, at the strapped address (`Strapped`). -/
structure Strapped (s : State) : Prop where
  byDevice : s.transport.responder = .device
  strap : s.transport.device.strap = s.hwAddr

/-- `DeviceIdle`: the device is not in a write cycle. -/
def DeviceIdle (s : State) : Prop := s.transport.device.busy = false

/-- `TransportLive`, for the next `n` requests: each of them is answered (70_reset_and_hazards.md R222). The reference device
answers every request; a list of answers must hold `n` of them. -/
def TransportLive (n : Nat) (s : State) : Prop :=
  s.transport.responder = .device ∨ n ≤ s.transport.answers.length

/-- What the outside world does between two steps of the block (60_exceptions.md R193): the moves of Environment.lean. -/
def EnvMove (s t : State) : Prop :=
  (∃ c, t = s.offer c) ∨ t = s.takeResponse ∨ (∃ a, t = s.giveAnswer a) ∨ t = s.finishCycle

/-- Each two neighbours of a history are related by `R`. -/
def Consecutive (R : State → State → Prop) : List State → Prop
  | s :: t :: rest => R s t ∧ Consecutive R (t :: rest)
  | [_] | [] => True

/-- `Exclusive`: nothing but the block's own steps and the moves of its environment happens between the states of a
history; no other party uses the transport or the block. -/
def Exclusive (history : List State) : Prop := Consecutive (fun s t => step s = .next t ∨ EnvMove s t) history

/-- `DataStable`: the host does not change `data` during a command. -/
def DataStable (history : List State) : Prop :=
  Consecutive (fun s t => s.fsm ≠ .idle → ∀ i, t.dataAt i = s.dataAt i) history

/-- The schedule of `finish` left after the attempt at which the device, busy or not, takes a frame, if a running write cycle
ends before `left` more units have been slept and the attempt after them begins. The attempts and the sleeps between them use
one entry each (41_raw_write_retry.md R128). -/
def acceptedAt (left : Nat) (busy : Bool) (finish : List Bool) : Option (List Bool) :=
  if busy && !finish.headD false then
    match left with
    | 0 => none
    | n + 1 => acceptedAt n (!finish.tail.headD false) finish.tail.tail
  else some finish.tail

/-- The device, busy or not, takes `n` frames one after the other, each within `b` units of sleep; every frame taken starts a
write cycle. -/
def cyclesEnd (b : Nat) : Nat → Bool → List Bool → Prop
  | 0, _, _ => True
  | n + 1, busy, finish => ∃ rest, acceptedAt b busy finish = some rest ∧ cyclesEnd b n true rest

/-- `CycleBounded(B)` for a WRITE of `n` chunks to the reference device: every write cycle that one of its attempts meets ends
before `B` further units have been slept and the attempt after them begins; with `B = 10` that is R71's "before the 11th attempt
of the following chunk". The cycle of the last chunk is no part of it, and an idle device's first chunk meets none. -/
def CycleBounded (b n : Nat) (d : Device) : Prop := cyclesEnd b n d.busy d.finish

/-! ## The chunk sequence in closed form (43_paginated_write.md R154) -/

/-- `N`, the number of chunks of a command `(a, n)`. -/
def chunkCount (a n : Nat) : Nat := if n = 0 then 0 else (a + n - 1) / 32 - a / 32 + 1

/-- `cj`, the address of chunk `j`. -/
def chunkStart (a j : Nat) : Nat := if j = 0 then a else 32 * (a / 32 + j)

/-- `lj`, the length of chunk `j`. -/
def chunkLength (a n j : Nat) : Nat :=
  if j = 0 then min (32 - a % 32) n else min 32 (a + n - chunkStart a j)

/-! ## Traces (00_scope.md R11) -/

/-- `data[i .. i + k)` of the host. -/
def State.dataSlice (s : State) (i k : Nat) : List Byte := (List.range k).map fun j => s.dataAt (i + j)

/-- `buf[i .. i + k)` of the host. -/
def State.bufSlice (s : State) (i k : Nat) : List Byte := (List.range k).map fun j => s.bufAt (i + j)

/-- `F_j`, the frame of chunk `j` of a WRITE at `a` of `n` bytes (43_paginated_write.md R159). -/
def chunkFrame (s : State) (a n j : Nat) : List Byte :=
  headerBytes (BitVec.ofNat 16 (chunkStart a j)) ++ s.dataSlice (chunkStart a j - a) (chunkLength a n j)

/-- A failed attempt and the sleep after it, for each error value (41_raw_write_retry.md R128). -/
def failedAttempts (dev : BitVec 7) (frame : List Byte) (errs : List Nat) : List Event :=
  errs.flatMap fun e => [.write dev frame (.err e), .sleep 1]

/-- `G_j` of a chunk accepted after the failed attempts `errs` (43_paginated_write.md R159). -/
def acceptedGroup (dev : BitVec 7) (frame : List Byte) (errs : List Nat) : List Event :=
  failedAttempts dev frame errs ++ [.write dev frame .ok]

/-- The groups `G_j, G_(j+1), ...` of a WRITE at `a` of `n` bytes, one for each list of failed attempts
(43_paginated_write.md R159). -/
def acceptedGroups (s : State) (a n : Nat) : Nat → List (List Nat) → List Event
  | _, [] => []
  | j, errs :: rest => acceptedGroup s.dev (chunkFrame s a n j) errs ++ acceptedGroups s a n (j + 1) rest

/-- The answers of a transport that fails a raw write with `errs`: an error, and the return of the sleep after it. -/
def failAnswers (errs : List Nat) : List Answer := errs.flatMap fun e => [.err e, .ok []]

/-- The answers of a transport that fails a raw write with `errs` and then accepts it. -/
def acceptAfter (errs : List Nat) : List Answer := failAnswers errs ++ [.ok []]

/-- What attempts may fail with: at most 10 errors, each a value of `ERR_W` bits. -/
def FewErrors (p : Params) (errs : List Nat) : Prop := errs.length ≤ Config.maxRetries ∧ ∀ e ∈ errs, e < 2 ^ p.errW

/-- The events of a READ of `n` bytes at `a` from chunk `j` on, one for each burst the transport delivers
(44_paginated_read.md R173). -/
def readEvents (s : State) (a n : Nat) : Nat → List (List Byte) → List Event
  | _, [] => []
  | j, burst :: rest =>
    .writeRead s.dev (headerBytes (BitVec.ofNat 16 (chunkStart a j))) (chunkLength a n j) (.ok burst) ::
      readEvents s a n (j + 1) rest

/-- Each burst has the length of its chunk. -/
def BurstsFit (a n : Nat) : Nat → List (List Byte) → Prop
  | _, [] => True
  | j, burst :: rest => burst.length = chunkLength a n j ∧ BurstsFit a n (j + 1) rest

/-- The transport answers from this list (20_memory.md R59). -/
def AnswersFrom (s : State) (l : List Answer) : Prop := s.transport.responder = .answers ∧ s.transport.answers = l

/-- Events that are transport writes. -/
def Event.isWrite : Event → Bool
  | .write _ _ _ => true
  | .writeRead _ _ _ _ | .sleep _ | .rsp _ => false

/-- Events that are combined read transactions. -/
def Event.isRead : Event → Bool
  | .writeRead _ _ _ _ => true
  | .write _ _ _ | .sleep _ | .rsp _ => false

/-- Events that are sleeps. -/
def Event.isSleep : Event → Bool
  | .sleep _ => true
  | .write _ _ _ | .writeRead _ _ _ _ | .rsp _ => false

/-- Events that are responses. -/
def Event.isResponse : Event → Bool
  | .rsp _ => true
  | .write _ _ _ | .writeRead _ _ _ _ | .sleep _ => false

/-- Time units an event sleeps. -/
def Event.units : Event → Nat
  | .sleep u => u
  | .write _ _ _ | .writeRead _ _ _ _ | .rsp _ => 0

/-- The time a trace has slept (60_exceptions.md R195), in the open unit `T_UNIT`. -/
def sleepingTime (trace : List Event) : Nat := (trace.map Event.units).sum * Config.tUnit

/-- Operations that write the scratch buffer: ENC_HDR, LOAD_PAYLOAD and what is built from them (10_state.md R22). -/
def writesScratch : Instr → Bool
  | .encHdr _ | .loadPayload _ | .encode _ | .rawWrite _ | .rawRead _ | .write _ _ | .read _ _ => true
  | .nextChunk _ | .devAddr _ | .trWrite | .trWriteRead | .trSleep | .wframe _ _ | .rframe _ | .accept _
  | .chunkDone _ | .chunkNext _ | .attemptOk _ | .attemptRetry | .attemptFail _ | .delay => false

/-- Two states that agree on everything but what 10_state.md R33 leaves unspecified: `scratch`, `op`, `base`, `len`,
`cur`, `retries`, `err`. -/
def SameButUnspecified (s s' : State) : Prop :=
  s' = { s with
    scratch := s'.scratch
    op := s'.op
    base := s'.base
    len := s'.len
    cur := s'.cur
    retries := s'.retries
    err := s'.err }

/-- What a run is observed by (70_reset_and_hazards.md R214): its trace, its response, the host's buffer, and the device's
memory. -/
structure SameObservation (s s' : State) : Prop where
  trace : s'.trace = s.trace
  rsp : s'.rsp = s.rsp
  buf : s'.buf = s.buf
  mem : s'.transport.device.mem = s.transport.device.mem

/-! ## Invariants (10_state.md R34) -/

/-- The block is inside a chunk. -/
def State.inChunk (s : State) : Prop := s.fsm = .encode ∨ s.fsm = .attempt ∨ s.fsm = .delay

/-- A request is outstanding. -/
def State.requesting (s : State) : Prop := s.fsm = .attempt ∨ s.fsm = .delay

/-- The invariants of 10_state.md R34, the widths of R20, and the canonical form of the device's memory. R34 (a) is the
type of `fsm`; (f) and (g) follow from (c) and the chunk arithmetic. -/
structure BlockInv (s : State) : Prop where
  /-- R34 (b). -/
  retries : s.retries.toNat ≤ Config.maxRetries
  /-- R34 (c). -/
  insideChunk : s.inChunk → s.base.toNat ≤ s.cur ∧ s.cur < s.endp
  /-- R34 (d). -/
  aligned : s.cur = s.base.toNat ∨ (s.cur % 32 = 0 ∧ s.base.toNat < s.cur)
  /-- R34 (e), the header. -/
  header : s.requesting → s.scratchTo 2 = headerBytes s.curAddr
  /-- R34 (e), the payload. -/
  payload : s.requesting → s.op = .write → s.scratchTo (2 + s.klen) = headerBytes s.curAddr ++ s.chunkData
  /-- R34 (h). -/
  replyPlace : s.reply ≠ none → s.requesting
  /-- R34 (i), and a retry is left. -/
  delayWrite : s.fsm = .delay → s.op = .write ∧ s.retries.toNat < Config.maxRetries
  /-- `len` is `LEN_W` bits wide. -/
  lenWidth : s.len < 2 ^ s.params.lenW
  /-- `err` is `ERR_W` bits wide, and so is an error value on TR. -/
  errWidth : s.err < 2 ^ s.params.errW ∧ ∀ e, s.reply = some (.err e) → e < 2 ^ s.params.errW
  /-- `cur` is `CUR_W` bits wide. -/
  curWidth : s.cur < 2 ^ s.params.curW
  /-- The device's memory is in canonical form and inside the device. -/
  memory : s.transport.device.mem.wf = true ∧ s.transport.device.mem.bounded = true
  /-- The model's slot is empty. -/
  slotEmpty : s.slot = none

end Sys2Proof.Machine
end

