-- ==== Sys2Proof/Certificates/Slice0/Obligations.lean ====
section
/-! DEFINITION. The statements for the provers: what the rules of spec/ say the block does. Each docstring names the rules
it rests on; OBLIGATIONS.json lists them. -/

open Sys2Proof Sys2Proof.Machine

/-! ## Encodings -/

/-- 30_encoding.md R80 to R89: decoding the encoding of a well-formed operation gives it back, every operand at every
value its field admits, at every width of the length field. -/
def Obligations.DecodeOfEncode : Prop :=
  ∀ (lenW : Nat) (i : Instr), i.wf lenW = true → decode (formatOf lenW i) (encode lenW i) = .ok i

/-- The other direction: what the decoder accepts is well formed, and its bytes are the encoder's; in the selector format for
every step number but 0, which names no step (log 3). -/
def Obligations.DecoderAcceptsOnlyEncodings : Prop :=
  ∀ (lenW : Nat) (f : Format) (bs : List Byte) (i : Instr), decode f bs = .ok i →
    (∀ w, f = .command w → w = lenW) →
    i.wf lenW = true ∧
    ((f = .seq → ∃ b t, bs = [b, t] ∧ t ≠ 0) → formatOf lenW i = f ∧ encode lenW i = bs)

/-- 30_encoding.md R84, R90 (a): every bit pattern of the command word is a legal command, and its fields are
`{cmd_op, cmd_addr, cmd_len}`, most significant first. -/
def Obligations.EveryCommandWordIsACommand : Prop :=
  ∀ (lenW v : Nat), v < 2 ^ (17 + lenW) →
    decode (.command lenW) (beBytes (commandBytes lenW) v) =
      .ok (if v / 2 ^ (16 + lenW) = 1
        then .write (BitVec.ofNat 16 (v / 2 ^ lenW)) (v % 2 ^ lenW)
        else .read (BitVec.ofNat 16 (v / 2 ^ lenW)) (v % 2 ^ lenW))

/-- Words written out from the spec: the command words V-CW1 and V-CW2 (95_test_vectors.md 2.9), the bus address of
`hw_addr = 3` (40_address_encoder.md R112), the header of address 0x1234 (R110), the frame of V-W4, the request kinds
(30_encoding.md R86) and the selectors of ENCODE and DELAY (R89). -/
def Obligations.SpecWordsDecode : Prop :=
  decodeTableWord 40 0x1001E0005 = some (.write 30 5) ∧
  decodeTableWord 40 0x000100028 = some (.read 16 40) ∧
  decodeTableWord 8 0b1010011 = some (.devAddr 3) ∧
  decodeTableWord 16 0x1234 = some (.encHdr 0x1234) ∧
  decodeTableWord 24 0x1FFFEE = some (.wframe 8191 [0xEE]) ∧
  decodeTableWord 8 0b01 = some .trWrite ∧
  decodeTableWord 8 0b0101 = some (.encode .write) ∧
  decodeTableWord 8 0b1001 = some .delay ∧
  decode .trKind [0] = .error .noRequest ∧
  decode .seq [0b1010, 0] = .error .noRow

/-- 30_encoding.md R86: the fields of the TR port in every state the invariants allow: the kind, and for each kind the
fields it uses; `0b00` when the block is not in `ATTEMPT` or `DELAY`. -/
def Obligations.TransportPortFields : Prop :=
  ∀ s, BlockInv s →
    (¬ s.requesting → s.trPort.kind = 0b00 ∧ s.trPort.payload = []) ∧
    (s.fsm = .attempt → s.op = .write →
      s.trPort.kind = 0b01 ∧ s.trPort.dev = some (0x50 ||| s.hwAddr.setWidth 7) ∧
      (∃ w, s.trPort.wlen = some w ∧ w.toNat = 2 + s.klen ∧ 3 ≤ w.toNat ∧ w.toNat ≤ 34) ∧
      s.trPort.payload = s.scratch.toList.take (2 + s.klen)) ∧
    (s.fsm = .attempt → s.op = .read →
      s.trPort.kind = 0b10 ∧ s.trPort.dev = some (0x50 ||| s.hwAddr.setWidth 7) ∧ s.trPort.wlen = some 2 ∧
      s.trPort.payload = s.scratch.toList.take 2 ∧
      (∃ k, s.trPort.rlen = some k ∧ k.toNat = s.klen ∧ 1 ≤ k.toNat ∧ k.toNat ≤ 32) ∧
      s.trPort.dst = some s.rel) ∧
    (s.fsm = .delay → s.trPort.kind = 0b11 ∧ s.trPort.units = some 1)

/-! ## Reset, waiting, and what a step runs -/

/-- 10_state.md R33, R34, 70_reset_and_hazards.md R210: the state after construction meets every invariant, for every
`cfg_hw_addr`, every width and every device memory in canonical form (the registers R33 leaves unspecified are the model's
zeros, log 6). After reset nothing is requested of the transport and no response is pending, and the first thing the block
does is to accept the first command offered, whatever the unspecified registers hold. -/
def Obligations.ConstructionMeetsInvariants : Prop :=
  BlockInv State.reset ∧
  (∀ (p : Params) (cfg : BitVec 3) (t : Transport), t.device.mem.wf = true ∧ t.device.mem.bounded = true →
    BlockInv (State.construct p cfg t) ∧ AfterReset cfg (State.construct p cfg t)) ∧
  ∀ (cfg : BitVec 3) (s : State), AfterReset cfg s →
    s.request = none ∧ s.rsp = none ∧
    (s.cmds = [] → step s = .next s) ∧
    ∀ c rest, s.cmds = c :: rest →
      ∃ t, step s = .next t ∧ t.op = c.op ∧ t.base = c.addr ∧ t.cur = c.addr.toNat ∧ t.hwAddr = cfg ∧
        t.fsm = .chunk ∧ t.trace = s.trace ∧ t.transport = s.transport

/-- 40_address_encoder.md R114, 10_state.md R32 (b), (c): what the registers hold after reset is never observed. From two
states after reset that differ only in what R33 leaves unspecified, every run is observed alike. -/
def Obligations.ResetContentsNeverObserved : Prop :=
  ∀ (cfg : BitVec 3) (s s' : State), AfterReset cfg s → SameButUnspecified s s' →
    ∀ k t, Host.Core.run core k s = .next t → ∃ t', Host.Core.run core k s' = .next t' ∧ SameObservation t t'

/-- 43_paginated_write.md R160, 70_reset_and_hazards.md R222: with no command offered, or while the transport withholds its
answer, the block stays where it is for ever. -/
def Obligations.BlockWaitsForItsEnvironment : Prop :=
  ∀ s, s.slot = none →
    ((s.fsm = .idle ∧ s.cmds = []) ∨ (s.fsm = .attempt ∧ attemptReply s = .withheld) ∨
      (s.fsm = .delay ∧ s.op = .write ∧ sleepReply s = .withheld)) →
    ∀ k, Host.Core.run core k s = .next s

/-- A step runs the decoded operation of the slot, which it empties; a transport primitive whose answer is withheld
blocks; no step puts an operation into the slot (log 1, log 5). -/
def Obligations.StepRunsTheSlot : Prop :=
  (∀ (s : State) (f : Format) (bs : List Byte) (i : Instr), s.slot = some (f, bs) → decode f bs = .ok i →
    (blocks i s = false → step s = exec i { s with slot := none }) ∧ (blocks i s = true → step s = .next s)) ∧
  (∀ s t, step s = .next t → t.slot = none ∨ t = s)

/-- 43_paginated_write.md R160: while the slot is empty a step is the transition of the table whose guard holds, and it
is the exec of that row. -/
def Obligations.StepRunsTheSequencer : Prop :=
  ∀ s, s.slot = none →
    (s.fsm = .idle → s.cmds ≠ [] → step s = exec (.accept s.op) s) ∧
    (s.fsm = .chunk → s.endp ≤ s.cur → step s = exec (.chunkDone s.op) s) ∧
    (s.fsm = .chunk → s.cur < s.endp → step s = exec (.chunkNext s.op) s) ∧
    (s.fsm = .encode → step s = exec (.encode s.op) s) ∧
    (∀ s1, s.fsm = .attempt → attemptReply s = .replied .ok s1 → step s = exec (.attemptOk s.op) s) ∧
    (∀ e s1, s.fsm = .attempt → attemptReply s = .replied (.err e) s1 → s.op = .write → s.retries.toNat < 10 →
      step s = exec .attemptRetry s) ∧
    (∀ e s1, s.fsm = .attempt → attemptReply s = .replied (.err e) s1 → s.op = .read ∨ s.retries.toNat = 10 →
      step s = exec (.attemptFail s.op) s) ∧
    (∀ r s1, s.fsm = .delay → s.op = .write → sleepReply s = .replied r s1 → step s = exec .delay s)

/-- 43_paginated_write.md R160: "In every state exactly the guards listed can hold": at most one sequencer step has an
effect in any state. -/
def Obligations.SequencerGuardsExclude : Prop :=
  ∀ (s : State) (i j : Instr) (t u : State), formatOf 0 i = .seq → formatOf 0 j = .seq →
    exec i s = .next t → exec j s = .next u → i = j

/-! ## Invariants and whole-machine rules -/

/-- 10_state.md R34: every step from a state that meets the invariants leads to a state that meets them. -/
def Obligations.StepKeepsInvariants : Prop := ∀ s t, BlockInv s → step s = .next t → BlockInv t

/-- 10_state.md R34 (c), (f), (g), (h), R26: inside a chunk the chunk is not empty, lies in one page and fits the scratch
buffer, the three forms of its length agree, and a request is outstanding exactly in `ATTEMPT` and `DELAY`. -/
def Obligations.InvariantsBoundTheChunk : Prop :=
  ∀ s, BlockInv s →
    (s.inChunk →
      0 < s.len ∧ s.rel < s.len ∧ 1 ≤ s.klen ∧ s.klen ≤ s.rem ∧ s.rem ≤ 32 ∧ 2 + s.klen ≤ 34 ∧
      s.off + s.klen ≤ 32 ∧ s.klen = s.cend - s.rel ∧ s.klen = min s.rem (s.len - s.rel)) ∧
    (s.request ≠ none ↔ s.requesting)

/-- 10_state.md R34, 20_memory.md R62, R70: from a state that meets the invariants a step is never a fault, and is
refused only where the reference device gives the transaction no meaning, which is never inside `InRange`. -/
def Obligations.InvariantStatesAlwaysStep : Prop :=
  ∀ s, BlockInv s →
    ((∃ t, step s = .next t) ∨ (step s = .refused .deviceNoMeaning ∧ s.transport.responder = .device)) ∧
    (InRange s.base.toNat s.len → ∃ t, step s = .next t)

/-- 20_memory.md R61, R70: whatever operation runs, in whatever state, the device's memory keeps its canonical form and stays
inside the device's 8192 bytes. -/
def Obligations.DeviceMemoryStaysCanonical : Prop :=
  ∀ (s t : State), s.transport.device.mem.wf = true ∧ s.transport.device.mem.bounded = true →
    (step s = .next t ∨ ∃ i, exec i s = .next t) →
    t.transport.device.mem.wf = true ∧ t.transport.device.mem.bounded = true

/-- 10_state.md R21: no operation of the block writes `hw_addr` (nor the machine's widths). -/
def Obligations.HardwareAddressNeverWritten : Prop :=
  ∀ (i : Instr) (s t : State), exec i s = .next t → t.hwAddr = s.hwAddr ∧ t.params = s.params

/-- 10_state.md R22, 44_paginated_read.md R176: `scratch` is written by ENC_HDR and LOAD_PAYLOAD and what is built from
them only, and the read path writes no more than `scratch[0 .. 2)`. -/
def Obligations.ScratchWriters : Prop :=
  ∀ (i : Instr) (s t : State), exec i s = .next t →
    (writesScratch i = false → t.scratch = s.scratch) ∧
    ((∃ a, i = .encHdr a) ∨ (∃ f, i = .rawRead f) ∨ (∃ a n, i = .read a n) →
      ∀ (k : Nat) (h : k < 34), 2 ≤ k → t.scratch[k] = s.scratch[k])

/-- 10_state.md R24, 43_paginated_write.md R161, 70_reset_and_hazards.md R215, R216: the operands and the host's data are
constant until the response, and a command offered meanwhile is not accepted. In every history of the block's steps and the
moves of its environment (`Exclusive`) the premise `DataStable` holds: the model's host has no move that breaks it (log 22). -/
def Obligations.OperandsConstantDuringCommand : Prop :=
  (∀ s t, s.slot = none → s.fsm ≠ .idle → step s = .next t →
    t.op = s.op ∧ t.base = s.base ∧ t.len = s.len ∧ t.data = s.data ∧ t.cmds = s.cmds) ∧
  ∀ history : List State, Exclusive history → (∀ s ∈ history, s.slot = none) → DataStable history

/-- 60_exceptions.md R186, 20_memory.md R64: a step records at most one transport event; it gives a response exactly when
it ends the command, and the response is the last thing it records. -/
def Obligations.OneResponseEndsTheCommand : Prop :=
  ∀ s t, s.slot = none → step s = .next t →
    ∃ evs, (∀ e ∈ evs, e.isResponse = false) ∧ evs.length ≤ 1 ∧
      ((s.fsm ≠ .idle ∧ t.fsm = .idle ∧ ∃ r, t.rsp = some r ∧ t.trace = s.trace ++ evs ++ [.rsp r]) ∨
       ((t.fsm ≠ .idle ∨ t = s) ∧ t.trace = s.trace ++ evs))

/-! ## The address encoder and the pure functions -/

/-- 40_address_encoder.md R110: ENC_HDR writes the low 16 bits of the cursor it is given into `scratch[0 .. 2)`, high byte first,
and touches nothing else. That it is performed in every state, and of a value other than the state's `cur`, is the model's choice
(log 28; EncodeBuildsTheFrame is the spec's own use of it). -/
def Obligations.EncHdrWritesHeader : Prop :=
  ∀ (c : Nat) (s : State), ∃ t, exec (.encHdr (BitVec.ofNat 16 c)) s = .next t ∧
    t.scratch[0] = BitVec.ofNat 8 (c / 256) ∧ t.scratch[1] = BitVec.ofNat 8 c ∧
    (∀ (i : Nat) (h : i < 34), 2 ≤ i → t.scratch[i] = s.scratch[i]) ∧
    t = { s with scratch := t.scratch }

/-- 40_address_encoder.md R111: LOAD_PAYLOAD puts `data[rel + i]` into `scratch[2 + i]` for `0 <= i < klen`, with one
WDATA transfer per byte, and touches nothing else; a payload outside 1 to 32 bytes is refused
(log 21). That it is performed in every state is the model's choice (log 28). -/
def Obligations.LoadPayloadCopiesData : Prop :=
  (∀ s : State, s.cur < s.endp → ∃ t, exec (.loadPayload s.chunkData) s = .next t ∧
    (∀ (i : Nat) (h : 2 + i < 34), i < s.klen → t.scratch[2 + i] = s.dataAt (s.rel + i)) ∧
    (∀ (i : Nat) (h : i < 34), i < 2 ∨ 2 + s.klen ≤ i → t.scratch[i] = s.scratch[i]) ∧
    t.wdataReqs = s.wdataReqs ++ (List.range s.klen).map (s.rel + ·) ∧
    t = { s with scratch := t.scratch, wdataReqs := t.wdataReqs }) ∧
  (∀ (ds : List Byte) (s : State), 1 ≤ ds.length → ds.length ≤ 32 → ∃ t, exec (.loadPayload ds) s = .next t ∧
    (∀ (i : Nat) (h : 2 + i < 34) (hi : i < ds.length), t.scratch[2 + i] = ds[i]) ∧
    (∀ (i : Nat) (h : i < 34), i < 2 ∨ 2 + ds.length ≤ i → t.scratch[i] = s.scratch[i]) ∧
    t = { s with scratch := t.scratch, wdataReqs := s.wdataReqs ++ (List.range ds.length).map (s.rel + ·) }) ∧
  (∀ (ds : List Byte) (s : State), ds.length = 0 ∨ 32 < ds.length →
    exec (.loadPayload ds) s = .refused .illFormedFrame)

/-- 40_address_encoder.md R112: DEV_ADDR is `0x50 | hw_addr`, which is the sum, and it is the `tr_dev` of every
TR_WRITE and TR_WRITE_READ request. Its value goes to the model's `result` (log 15), in every state and for every operand (log
28). -/
def Obligations.DevAddrIsBaseOrHwAddr : Prop :=
  (∀ (h : BitVec 3) (s : State), exec (.devAddr h) s = .next { s with result := some (.busAddr (0x50 ||| h.setWidth 7)) } ∧
    ((0x50#7 ||| h.setWidth 7).toNat = 0x50 + h.toNat)) ∧
  ∀ s : State, s.fsm = .attempt → s.trPort.dev = some (0x50 ||| s.hwAddr.setWidth 7)

/-- 43_paginated_write.md R153: NEXT_CHUNK is `min(32 - (c mod 32), m)`, at least 1 and at most 32, and the chunk lies
inside one page; at the cursor it is `klen`. With nothing to go (outside the rule's operands, log 16) it completes all
the same. Its value goes to the model's `result` (log 15). -/
def Obligations.NextChunkLength : Prop :=
  (∀ (c : BitVec 5) (s : State), 1 ≤ s.toGo → ∃ k,
    exec (.nextChunk c) s = .next { s with result := some (.chunkLen k) } ∧
    k = min (32 - c.toNat) s.toGo ∧ 1 ≤ k ∧ k ≤ 32 ∧ c.toNat + k ≤ 32 ∧
    (c.toNat = s.cur % 32 → k = s.klen)) ∧
  (∀ (c : BitVec 5) (s : State), s.toGo = 0 → ∃ k,
    exec (.nextChunk c) s = .next { s with result := some (.chunkLen k), draws := s.draws + 1 })

/-- 30_encoding.md R82, R83: a write frame is the address, high byte first, and then the data bytes, 3 to 34 in all; one that
would be empty, over-long or page-crossing is refused (log 21); a read frame sends the address, high byte first, and the
burst after it has the length of the chunk at that address, which at the cursor is `klen` (away from the cursor the model's
choice, log 16). The frames go to the model's `result` (log 15), in every state (log 28). -/
def Obligations.WireFrames : Prop :=
  (∀ (a : Addr) (ds : List Byte) (s : State), 1 ≤ ds.length → ds.length ≤ 32 → a.toNat % 32 + ds.length ≤ 32 →
    ∃ f, exec (.wframe a ds) s = .next { s with result := some (.writeFrame f) } ∧
      f = BitVec.ofNat 8 (a.toNat / 256) :: BitVec.ofNat 8 a.toNat :: ds ∧ 3 ≤ f.length ∧ f.length ≤ 34) ∧
  (∀ (a : Addr) (ds : List Byte) (s : State),
    ds.length = 0 ∨ 32 < ds.length ∨ 32 < a.toNat % 32 + ds.length →
      exec (.wframe a ds) s = .refused .illFormedFrame) ∧
  (∀ (a : Addr) (s : State), 1 ≤ s.toGo → ∃ k,
    exec (.rframe a) s = .next { s with
      result := some (.readFrame [BitVec.ofNat 8 (a.toNat / 256), BitVec.ofNat 8 a.toNat] k) } ∧
    k = min (32 - a.toNat % 32) s.toGo ∧ 1 ≤ k ∧ k ≤ 32 ∧ a.toNat % 32 + k ≤ 32 ∧ (a = s.curAddr → k = s.klen)) ∧
  (∀ (a : Addr) (s : State), s.toGo = 0 → ∃ k,
    exec (.rframe a) s = .next { s with
      result := some (.readFrame [BitVec.ofNat 8 (a.toNat / 256), BitVec.ofNat 8 a.toNat] k)
      draws := s.draws + 1 })

/-- 30_encoding.md R82, 41_raw_write_retry.md R121, 10_state.md R34 (e): what a write attempt transmits is exactly the
frame of the chunk at the cursor, `[cur[15:8], cur[7:0]] ++ data[rel .. rel + klen)`, and it stays inside one page. -/
def Obligations.AttemptSendsTheChunksFrame : Prop :=
  ∀ s, BlockInv s → s.fsm = .attempt →
    (s.op = .write → ∃ f,
      s.request = some (.write (0x50 ||| s.hwAddr.setWidth 7) f) ∧
      f = BitVec.ofNat 8 (s.cur / 256) :: BitVec.ofNat 8 s.cur :: s.dataSlice s.rel s.klen ∧
      exec (.wframe s.curAddr s.chunkData) s = .next { s with result := some (.writeFrame f) } ∧
      s.curAddr.toNat % 32 + s.klen ≤ 32) ∧
    (s.op = .read →
      s.request = some (.writeRead (0x50 ||| s.hwAddr.setWidth 7)
        [BitVec.ofNat 8 (s.cur / 256), BitVec.ofNat 8 s.cur] s.klen s.rel))

/-! ## The sequencer steps -/

/-- 43_paginated_write.md R161: ACCEPT latches the command and starts the cursor at its address; nothing else changes, in
particular not `scratch`, `retries`, `err` and `hw_addr`, and there is no transport event and no response. The host lends
its slice (10_state.md R31) and the response before it has been taken (log 14). -/
def Obligations.AcceptLatchesCommand : Prop :=
  ∀ (s : State) (c : Command) (rest : List Command), s.fsm = .idle → s.cmds = c :: rest →
    exec (.accept s.op) s = .next { s with
      op := c.op
      base := c.addr
      len := c.len % 2 ^ s.params.lenW
      cur := c.addr.toNat
      fsm := .chunk
      cmds := rest
      rsp := none
      wdataReqs := []
      data := if c.op = .write then c.slice else s.data
      buf := if c.op = .read then c.slice else s.buf }

/-- 43_paginated_write.md R162, R163: while `cur < base + len`, CHUNK_NEXT goes to `ENCODE`; otherwise CHUNK_DONE answers `ok`
and returns to `IDLE`; nothing else changes. -/
def Obligations.ChunkLoopTest : Prop :=
  ∀ s : State, s.fsm = .chunk →
    (s.base.toNat + s.len ≤ s.cur →
      exec (.chunkDone s.op) s = .next { s with rsp := some .ok, trace := s.trace ++ [.rsp .ok], fsm := .idle }) ∧
    (s.cur < s.base.toNat + s.len → exec (.chunkNext s.op) s = .next { s with fsm := .encode })

/-- 40_address_encoder.md R113: ENCODE is ENC_HDR of the cursor, for a write LOAD_PAYLOAD of the chunk, `retries <- 0`,
and `ATTEMPT`. -/
def Obligations.EncodeBuildsTheFrame : Prop :=
  ∀ s : State, s.fsm = .encode →
    ∃ t, exec (.encode s.op) s = .next t ∧ t.retries = 0 ∧ t.fsm = .attempt ∧
      t.scratch[0] = BitVec.ofNat 8 (s.cur / 256) ∧ t.scratch[1] = BitVec.ofNat 8 s.cur ∧
      (s.op = .write →
        (∀ (i : Nat) (h : 2 + i < 34), i < s.klen → t.scratch[2 + i] = s.dataAt (s.rel + i)) ∧
        (∀ (i : Nat) (h : i < 34), 2 + s.klen ≤ i → t.scratch[i] = s.scratch[i]) ∧
        t.wdataReqs = s.wdataReqs ++ (List.range s.klen).map (s.rel + ·)) ∧
      (s.op = .read →
        (∀ (i : Nat) (h : i < 34), 2 ≤ i → t.scratch[i] = s.scratch[i]) ∧ t.wdataReqs = s.wdataReqs) ∧
      t = { s with scratch := t.scratch, wdataReqs := t.wdataReqs, retries := 0, fsm := .attempt }

/-- 41_raw_write_retry.md R124, R121, 20_memory.md R56: ATTEMPT_OK of a write records the event, advances the cursor by
`32 - (cur mod 32)` and returns to `CHUNK`; nothing else changes, in particular not `retries` and `err`. -/
def Obligations.AttemptOkOfWriteAdvances : Prop :=
  ∀ (s : State) (bs : List Byte) (tr : Transport), s.fsm = .attempt → s.op = .write → s.reply = none →
    s.transport.serve (writeRequest s) = .answered (.ok bs) tr →
    exec (.attemptOk .write) s = .next { s with
      transport := tr
      trace := s.trace ++ [.write (0x50 ||| s.hwAddr.setWidth 7) (s.scratch.toList.take (2 + s.klen)) .ok]
      cur := s.cur + (32 - s.cur % 32)
      fsm := .chunk }

/-- 41_raw_write_retry.md R124, 42_raw_read.md R141, 20_memory.md R57: ATTEMPT_OK of a read also stores the bytes received
at `buf[rel .. rel + klen)` and leaves every other position of `buf`. (A byte the answer does not list is a free value,
log 10.) -/
def Obligations.AttemptOkOfReadFillsTheBuffer : Prop :=
  ∀ (s : State) (bs : List Byte) (tr : Transport), s.fsm = .attempt → s.op = .read → s.reply = none →
    s.transport.serve (readRequest s) = .answered (.ok bs) tr →
    ∃ t rbytes, exec (.attemptOk .read) s = .next t ∧
      rbytes.length = s.klen ∧ (s.klen ≤ bs.length → rbytes = bs.take s.klen) ∧
      t.bufSlice s.rel s.klen = rbytes ∧
      (∀ i, i < s.rel ∨ s.rel + s.klen ≤ i → t.bufAt i = s.bufAt i) ∧
      t = { s with
        transport := tr
        trace := s.trace ++ [.writeRead (0x50 ||| s.hwAddr.setWidth 7) (s.scratch.toList.take 2) s.klen (.ok rbytes)]
        cur := s.cur + (32 - s.cur % 32)
        fsm := .chunk
        buf := t.buf
        draws := t.draws }

/-- 41_raw_write_retry.md R125: ATTEMPT_RETRY keeps the error in `err` and goes to `DELAY`; no response is produced, the
cursor does not change. -/
def Obligations.AttemptRetryAbsorbsTheError : Prop :=
  ∀ (s : State) (e : Nat) (tr : Transport), s.fsm = .attempt → s.op = .write → s.retries.toNat < 10 → s.reply = none →
    e < 2 ^ s.params.errW → s.transport.serve (writeRequest s) = .answered (.err e) tr →
    exec .attemptRetry s = .next { s with
      transport := tr
      trace := s.trace ++ [.write (0x50 ||| s.hwAddr.setWidth 7) (s.scratch.toList.take (2 + s.klen)) (.err e)]
      err := e
      fsm := .delay }

/-- 41_raw_write_retry.md R126, 60_exceptions.md R186, 42_raw_read.md R142, R143: ATTEMPT_FAIL of an exhausted write, or of a
read whatever `retries` holds, answers `err(e)` with the error of this attempt, unchanged, and returns to `IDLE`; `cur`
keeps the address of the failed chunk. Of a read the chunk's part of `buf` holds unspecified bytes (free values, log 10),
every other position keeps its byte. -/
def Obligations.AttemptFailSurfacesTheError : Prop :=
  ∀ (s : State) (e : Nat) (tr : Transport), s.fsm = .attempt → s.reply = none → e < 2 ^ s.params.errW →
    (s.op = .write → s.retries.toNat = 10 → s.transport.serve (writeRequest s) = .answered (.err e) tr →
      exec (.attemptFail .write) s = .next { s with
        transport := tr
        trace := s.trace ++ [.write (0x50 ||| s.hwAddr.setWidth 7) (s.scratch.toList.take (2 + s.klen)) (.err e)] ++
          [.rsp (.err e)]
        err := e
        rsp := some (.err e)
        fsm := .idle }) ∧
    (s.op = .read → s.transport.serve (readRequest s) = .answered (.err e) tr →
      ∃ t, exec (.attemptFail .read) s = .next t ∧
        (∀ i, i < s.rel ∨ s.rel + s.klen ≤ i → t.bufAt i = s.bufAt i) ∧
        t = { s with
          transport := tr
          trace := s.trace ++ [.writeRead (0x50 ||| s.hwAddr.setWidth 7) (s.scratch.toList.take 2) s.klen (.err e)] ++
            [.rsp (.err e)]
          err := e
          rsp := some (.err e)
          fsm := .idle
          buf := t.buf
          draws := t.draws })

/-- 41_raw_write_retry.md R127: DELAY records the sleep of 1 unit, counts it and goes back to `ATTEMPT`; nothing else
changes. -/
def Obligations.DelayCountsTheSleep : Prop :=
  ∀ (s : State) (a : Answer) (tr : Transport), s.fsm = .delay → s.op = .write → s.reply = none →
    s.transport.serve (.sleep 1) = .answered a tr →
    exec .delay s = .next { s with
      transport := tr
      trace := s.trace ++ [.sleep 1]
      retries := s.retries + 1
      fsm := .attempt }

/-! ## The transport primitives -/

/-- 20_memory.md R56, 30_encoding.md R86, R90 (e): in `ATTEMPT` of a WRITE, where the block presents it, TR_WRITE transmits
`scratch[0 .. 2 + klen)` to `0x50 | hw_addr`; its reply, `ok` or the transport's error, is left on the TR port (log 18); while
the answer is withheld nothing happens. Elsewhere, on an empty chunk, and while a reply is pending it is refused (log 18). -/
def Obligations.TrWriteTransmits : Prop :=
  ∀ s : State,
    (s.fsm = .attempt → s.op = .write → 0 < s.klen → s.reply = none →
      (s.transport.serve (writeRequest s) = .withheld → exec .trWrite s = .next s) ∧
      ∀ tr, (∀ bs, s.transport.serve (writeRequest s) = .answered (.ok bs) tr →
          exec .trWrite s = .next { s with
            transport := tr
            reply := some .ok
            trace := s.trace ++ [.write (0x50 ||| s.hwAddr.setWidth 7) (s.scratch.toList.take (2 + s.klen)) .ok] }) ∧
        (∀ e, e < 2 ^ s.params.errW → s.transport.serve (writeRequest s) = .answered (.err e) tr →
          exec .trWrite s = .next { s with
            transport := tr
            reply := some (.err e)
            trace := s.trace ++
              [.write (0x50 ||| s.hwAddr.setWidth 7) (s.scratch.toList.take (2 + s.klen)) (.err e)] })) ∧
    (s.fsm ≠ .attempt ∨ s.op ≠ .write → exec .trWrite s = .refused .guardNotMet) ∧
    (s.fsm = .attempt → s.op = .write → s.klen = 0 → exec .trWrite s = .refused .emptyChunk) ∧
    (s.fsm = .attempt → s.op = .write → 0 < s.klen → s.reply ≠ none → exec .trWrite s = .refused .replyPending)

/-- 20_memory.md R57, 30_encoding.md R86, R90 (e): in `ATTEMPT` of a READ, where the block presents it, TR_WRITE_READ sends
`scratch[0 .. 2)` and on `ok` the bytes received stand at `buf[rel .. rel + klen)`; on `err(e)` that part holds unspecified
bytes; no other position of `buf` changes. The reply is left on the TR port; elsewhere, on an empty chunk, and while a reply is
pending it is refused (log 18). -/
def Obligations.TrWriteReadReceives : Prop :=
  ∀ s : State,
    (s.fsm = .attempt → s.op = .read → 0 < s.klen → s.reply = none →
      (s.transport.serve (readRequest s) = .withheld → exec .trWriteRead s = .next s) ∧
      ∀ tr, (∀ bs, bs.length = s.klen → s.transport.serve (readRequest s) = .answered (.ok bs) tr →
          ∃ t, exec .trWriteRead s = .next t ∧ t.bufSlice s.rel s.klen = bs ∧
            (∀ i, i < s.rel ∨ s.rel + s.klen ≤ i → t.bufAt i = s.bufAt i) ∧
            t = { s with
              transport := tr
              reply := some .ok
              trace := s.trace ++
                [.writeRead (0x50 ||| s.hwAddr.setWidth 7) (s.scratch.toList.take 2) s.klen (.ok bs)]
              buf := t.buf
              draws := t.draws }) ∧
        (∀ e, e < 2 ^ s.params.errW → s.transport.serve (readRequest s) = .answered (.err e) tr →
          ∃ t, exec .trWriteRead s = .next t ∧
            (∀ i, i < s.rel ∨ s.rel + s.klen ≤ i → t.bufAt i = s.bufAt i) ∧
            t = { s with
              transport := tr
              reply := some (.err e)
              trace := s.trace ++
                [.writeRead (0x50 ||| s.hwAddr.setWidth 7) (s.scratch.toList.take 2) s.klen (.err e)]
              buf := t.buf
              draws := t.draws })) ∧
    (s.fsm ≠ .attempt ∨ s.op ≠ .read → exec .trWriteRead s = .refused .guardNotMet) ∧
    (s.fsm = .attempt → s.op = .read → s.klen = 0 → exec .trWriteRead s = .refused .emptyChunk) ∧
    (s.fsm = .attempt → s.op = .read → 0 < s.klen → s.reply ≠ none → exec .trWriteRead s = .refused .replyPending)

/-- 20_memory.md R58, 30_encoding.md R86: in `DELAY`, where the block presents it, TR_SLEEP sleeps one unit and cannot fail,
whatever the answer carries; while the sleep has not returned nothing happens. The reply is left on the TR port; elsewhere, and
while a reply is pending, it is refused (log 18). -/
def Obligations.TrSleepCannotFail : Prop :=
  ∀ s : State,
    (s.fsm = .delay → s.reply = none →
      (s.transport.serve (.sleep 1) = .withheld → exec .trSleep s = .next s) ∧
      ∀ (a : Answer) (tr : Transport), s.transport.serve (.sleep 1) = .answered a tr →
        exec .trSleep s = .next { s with transport := tr, reply := some .ok, trace := s.trace ++ [.sleep 1] }) ∧
    (s.fsm ≠ .delay → exec .trSleep s = .refused .guardNotMet) ∧
    (s.fsm = .delay → s.reply ≠ none → exec .trSleep s = .refused .replyPending)

/-- Log 18: a transport primitive performed on its own and then the sequencer's step is the sequencer's step. -/
def Obligations.PrimitiveThenStepIsStep : Prop :=
  ∀ (s s1 : State), s.reply = none → s1.reply ≠ none →
    (s.fsm = .attempt → s.op = .write → exec .trWrite s = .next s1 →
      exec (.attemptOk .write) s1 = exec (.attemptOk .write) s ∧ exec .attemptRetry s1 = exec .attemptRetry s ∧
      exec (.attemptFail .write) s1 = exec (.attemptFail .write) s) ∧
    (s.fsm = .attempt → s.op = .read → exec .trWriteRead s = .next s1 →
      exec (.attemptOk .read) s1 = exec (.attemptOk .read) s ∧
      exec (.attemptFail .read) s1 = exec (.attemptFail .read) s) ∧
    (s.fsm = .delay → exec .trSleep s = .next s1 → exec .delay s1 = exec .delay s)

/-! ## The raw operations -/

/-- 41_raw_write_retry.md R120, R128, R131: "A raw write that succeeds on the Kth attempt (K ≤ 11) performs exactly K-1
delay calls and returns success", for every list of K-1 errors: K writes of the identical frame, a sleep of 1 unit after
each failed one, `retries = K - 1`; the frame stands in `scratch`; `cur`, the operands, the response port and everything
else are as before. On its own a raw operation leaves its result on the TR port (log 17). The answers come from
the model's list (log 9) with no device behind it (log 27). -/
def Obligations.RawWriteSucceedsOnAttemptK : Prop :=
  ∀ (s : State) (errs : List Nat) (l : List Answer), s.fsm = .encode → s.op = .write → s.reply = none →
    s.cur < s.endp → FewErrors s.params errs → AnswersFrom s (acceptAfter errs ++ l) →
    ∃ t, exec (.rawWrite .encode) s = .next t ∧
      t.trace = s.trace ++
        acceptedGroup (0x50 ||| s.hwAddr.setWidth 7) (headerBytes s.curAddr ++ s.dataSlice s.rel s.klen) errs ∧
      t.trace.countP Event.isWrite = s.trace.countP Event.isWrite + (errs.length + 1) ∧
      t.trace.countP Event.isSleep = s.trace.countP Event.isSleep + errs.length ∧
      t.retries.toNat = errs.length ∧
      t.scratch.toList.take (2 + s.klen) = headerBytes s.curAddr ++ s.dataSlice s.rel s.klen ∧
      t = { s with
        scratch := t.scratch
        fsm := .attempt
        retries := t.retries
        err := errs.getLast?.getD s.err
        reply := some .ok
        wdataReqs := s.wdataReqs ++ (List.range s.klen).map (s.rel + ·)
        transport := { s.transport with answers := l }
        trace := t.trace }

/-- 41_raw_write_retry.md R128, R129: "A raw write that fails on every attempt for 11 consecutive tries returns the
transport error and performs exactly 10 delay calls of 1 time unit each"; the error is that of the 11th attempt
(log 24), left on the TR port (log 17), and the frame stands in `scratch` (R131). The answers come from the model's list (log 9)
with no device behind it (log 27). -/
def Obligations.RawWriteExhausts : Prop :=
  ∀ (s : State) (errs : List Nat) (e : Nat) (l : List Answer), s.fsm = .encode → s.op = .write → s.reply = none →
    s.cur < s.endp → errs.length = 10 → FewErrors s.params errs → e < 2 ^ s.params.errW →
    AnswersFrom s (failAnswers errs ++ .err e :: l) →
    ∃ t, exec (.rawWrite .encode) s = .next t ∧
      t.trace = s.trace ++
        failedAttempts (0x50 ||| s.hwAddr.setWidth 7) (headerBytes s.curAddr ++ s.dataSlice s.rel s.klen) errs ++
        [.write (0x50 ||| s.hwAddr.setWidth 7) (headerBytes s.curAddr ++ s.dataSlice s.rel s.klen) (.err e)] ∧
      t.trace.countP Event.isWrite = s.trace.countP Event.isWrite + 11 ∧
      t.trace.countP Event.isSleep = s.trace.countP Event.isSleep + 10 ∧
      t.scratch.toList.take (2 + s.klen) = headerBytes s.curAddr ++ s.dataSlice s.rel s.klen ∧
      t = { s with
        scratch := t.scratch
        fsm := .attempt
        retries := 10
        err := e
        reply := some (.err e)
        wdataReqs := s.wdataReqs ++ (List.range s.klen).map (s.rel + ·)
        transport := { s.transport with answers := l }
        trace := t.trace }

/-- 41_raw_write_retry.md R120, R127, R128: a raw write taken up where it stands: in `ATTEMPT` with `retries` delay calls made it
has `10 - retries` left, in `DELAY` the sleep comes first. It succeeds on any attempt left, and after `10 - retries` further
failures the next error is the result, with `retries = 10` and no further event. The result is left on the TR port (log 17). The
answers come from the model's list (log 9) with no device behind it (log 27). -/
def Obligations.RawWriteTakenUpMidway : Prop :=
  (∀ (s : State) (errs : List Nat) (l : List Answer), s.fsm = .attempt → s.op = .write → s.reply = none →
    s.cur < s.endp → FewErrors s.params errs →
    (s.retries.toNat + errs.length ≤ 10 → AnswersFrom s (acceptAfter errs ++ l) →
      ∃ t, exec (.rawWrite .attempt) s = .next t ∧
        t.trace = s.trace ++ acceptedGroup (0x50 ||| s.hwAddr.setWidth 7) (s.scratch.toList.take (2 + s.klen)) errs ∧
        t.retries.toNat = s.retries.toNat + errs.length ∧
        t = { s with
          retries := t.retries
          err := errs.getLast?.getD s.err
          reply := some .ok
          transport := { s.transport with answers := l }
          trace := t.trace }) ∧
    (∀ e, e < 2 ^ s.params.errW → s.retries.toNat + errs.length = 10 → AnswersFrom s (failAnswers errs ++ .err e :: l) →
      exec (.rawWrite .attempt) s = .next { s with
        retries := 10
        err := e
        reply := some (.err e)
        transport := { s.transport with answers := l }
        trace := s.trace ++
          failedAttempts (0x50 ||| s.hwAddr.setWidth 7) (s.scratch.toList.take (2 + s.klen)) errs ++
          [.write (0x50 ||| s.hwAddr.setWidth 7) (s.scratch.toList.take (2 + s.klen)) (.err e)] })) ∧
  (∀ (s : State) (x : Answer) (errs : List Nat) (l : List Answer), s.fsm = .delay → s.op = .write → s.reply = none →
    s.cur < s.endp → FewErrors s.params errs →
    (s.retries.toNat + 1 + errs.length ≤ 10 → AnswersFrom s (x :: (acceptAfter errs ++ l)) →
      ∃ t, exec (.rawWrite .delay) s = .next t ∧
        t.trace = s.trace ++ [.sleep 1] ++
          acceptedGroup (0x50 ||| s.hwAddr.setWidth 7) (s.scratch.toList.take (2 + s.klen)) errs ∧
        t.retries.toNat = s.retries.toNat + 1 + errs.length ∧
        t = { s with
          fsm := .attempt
          retries := t.retries
          err := errs.getLast?.getD s.err
          reply := some .ok
          transport := { s.transport with answers := l }
          trace := t.trace }) ∧
    (∀ e, e < 2 ^ s.params.errW → s.retries.toNat + 1 + errs.length = 10 →
      AnswersFrom s (x :: (failAnswers errs ++ .err e :: l)) →
      exec (.rawWrite .delay) s = .next { s with
        fsm := .attempt
        retries := 10
        err := e
        reply := some (.err e)
        transport := { s.transport with answers := l }
        trace := s.trace ++ [.sleep 1] ++
          failedAttempts (0x50 ||| s.hwAddr.setWidth 7) (s.scratch.toList.take (2 + s.klen)) errs ++
          [.write (0x50 ||| s.hwAddr.setWidth 7) (s.scratch.toList.take (2 + s.klen)) (.err e)] }))

/-- 41_raw_write_retry.md R131, 60_exceptions.md R195: whatever the transport does, and wherever it is taken up, one RAW_WRITE
issues at most 11 writes and 10 sleeps, sleeps at most `10 * T_UNIT`, and changes neither the cursor nor the operands; it gives
no response. -/
def Obligations.RawWriteIsBounded : Prop :=
  ∀ (f : Fsm) (s t : State), exec (.rawWrite f) s = .next t →
    ∃ evs, t.trace = s.trace ++ evs ∧ (∀ e ∈ evs, e.isWrite = true ∨ e.isSleep = true) ∧
      evs.countP Event.isWrite ≤ 11 ∧ evs.countP Event.isSleep ≤ 10 ∧ sleepingTime evs ≤ 10 * Config.tUnit ∧
      t.cur = s.cur ∧ t.base = s.base ∧ t.len = s.len ∧ t.op = s.op ∧ t.rsp = s.rsp ∧ t.buf = s.buf ∧
      t.retries.toNat ≤ 10

/-- 42_raw_read.md R140, R142, R143, R144: RAW_READ is one combined transaction; on `ok` the bytes stand at
`buf[rel .. rel + klen)`, on an error it returns that error at once, without a sleep, and only the chunk's part of `buf`
is unspecified; `scratch[2 .. 34)` and the cursor are as before. Taken up in `ATTEMPT`, its header already built, it is the
transaction alone. The result is left on the TR port (log 17), unspecified bytes are free values (log 10), the answers come from
the model's list (log 9) with no device behind it (log 27). -/
def Obligations.RawReadIsOneTransaction : Prop :=
  (∀ (s : State) (l : List Answer), s.fsm = .encode → s.op = .read → s.reply = none → s.cur < s.endp →
    (∀ bs, bs.length = s.klen → AnswersFrom s (.ok bs :: l) →
      ∃ t, exec (.rawRead .encode) s = .next t ∧
        t.trace = s.trace ++ [.writeRead (0x50 ||| s.hwAddr.setWidth 7) (headerBytes s.curAddr) s.klen (.ok bs)] ∧
        t.bufSlice s.rel s.klen = bs ∧ (∀ i, i < s.rel ∨ s.rel + s.klen ≤ i → t.bufAt i = s.bufAt i) ∧
        (∀ (i : Nat) (h : i < 34), 2 ≤ i → t.scratch[i] = s.scratch[i]) ∧
        t = { s with
          scratch := t.scratch
          fsm := .attempt
          retries := 0
          reply := some .ok
          buf := t.buf
          draws := t.draws
          transport := { s.transport with answers := l }
          trace := t.trace }) ∧
    (∀ e, e < 2 ^ s.params.errW → AnswersFrom s (.err e :: l) →
      ∃ t, exec (.rawRead .encode) s = .next t ∧
        t.trace = s.trace ++ [.writeRead (0x50 ||| s.hwAddr.setWidth 7) (headerBytes s.curAddr) s.klen (.err e)] ∧
        (∀ i, i < s.rel ∨ s.rel + s.klen ≤ i → t.bufAt i = s.bufAt i) ∧
        (∀ (i : Nat) (h : i < 34), 2 ≤ i → t.scratch[i] = s.scratch[i]) ∧
        t = { s with
          scratch := t.scratch
          fsm := .attempt
          retries := 0
          err := e
          reply := some (.err e)
          buf := t.buf
          draws := t.draws
          transport := { s.transport with answers := l }
          trace := t.trace })) ∧
  (∀ (s : State) (l : List Answer), s.fsm = .attempt → s.op = .read → s.reply = none → s.cur < s.endp →
    (∀ bs, bs.length = s.klen → AnswersFrom s (.ok bs :: l) →
      ∃ t, exec (.rawRead .attempt) s = .next t ∧
        t.trace = s.trace ++
          [.writeRead (0x50 ||| s.hwAddr.setWidth 7) (s.scratch.toList.take 2) s.klen (.ok bs)] ∧
        t.bufSlice s.rel s.klen = bs ∧ (∀ i, i < s.rel ∨ s.rel + s.klen ≤ i → t.bufAt i = s.bufAt i) ∧
        t = { s with
          reply := some .ok
          buf := t.buf
          draws := t.draws
          transport := { s.transport with answers := l }
          trace := t.trace }) ∧
    (∀ e, e < 2 ^ s.params.errW → AnswersFrom s (.err e :: l) →
      ∃ t, exec (.rawRead .attempt) s = .next t ∧
        t.trace = s.trace ++
          [.writeRead (0x50 ||| s.hwAddr.setWidth 7) (s.scratch.toList.take 2) s.klen (.err e)] ∧
        (∀ i, i < s.rel ∨ s.rel + s.klen ≤ i → t.bufAt i = s.bufAt i) ∧
        t = { s with
          err := e
          reply := some (.err e)
          buf := t.buf
          draws := t.draws
          transport := { s.transport with answers := l }
          trace := t.trace }))

/-- 41_raw_write_retry.md R130: "a model that exposes RAW_WRITE on its own must refuse `k > 32 - (c mod 32)` and
`k = 0`": the chunk of a state never exceeds the page's remainder, and an empty one is refused. -/
def Obligations.RawWriteRefusesEmptyChunk : Prop :=
  ∀ s : State, s.klen ≤ 32 - s.cur % 32 ∧
    ∀ f, s.fsm = f → s.op = .write → s.klen = 0 → exec (.rawWrite f) s = .refused .emptyChunk

/-! ## The commands -/

/-- 43_paginated_write.md R157, 44_paginated_read.md R172: a zero-length command performs no transport operation and
answers `ok` at every address; `scratch` and `buf` are untouched and no WDATA transfer happens; the sequencer takes ACCEPT
and then CHUNK_DONE. -/
def Obligations.ZeroLengthCommands : Prop :=
  ∀ (a : Addr) (s : State), s.fsm = .idle →
    (∃ t, exec (.write a 0) s = .next t ∧ t.trace = s.trace ++ [.rsp .ok] ∧ t.rsp = some .ok ∧ t.fsm = .idle ∧
      t.scratch = s.scratch ∧ t.wdataReqs = [] ∧ t.transport = s.transport ∧ t.buf = s.buf) ∧
    (∃ t, exec (.read a 0) s = .next t ∧ t.trace = s.trace ++ [.rsp .ok] ∧ t.rsp = some .ok ∧ t.fsm = .idle ∧
      t.scratch = s.scratch ∧ t.transport = s.transport ∧ t.buf = s.buf) ∧
    (∀ c rest, s.slot = none → s.cmds = c :: rest → c.len = 0 →
      ∃ t u, step s = .next t ∧ exec (.accept s.op) s = .next t ∧ step t = .next u ∧ exec (.chunkDone t.op) t = .next u ∧
        u.trace = s.trace ++ [.rsp .ok] ∧ u.rsp = some .ok ∧ u.fsm = .idle ∧ u.scratch = s.scratch ∧
        u.wdataReqs = [] ∧ u.transport = s.transport)

/-- 70_reset_and_hazards.md R216: a command offered while one is in progress is not accepted until the block is idle
again; it is not dropped and not an error: it waits behind those already offered (log 19). -/
def Obligations.BusyBlockHoldsCommandsOff : Prop :=
  ∀ (a : Addr) (n : Nat) (s : State), s.fsm ≠ .idle →
    exec (.write a n) s = .next { s with cmds := s.cmds ++ [{ op := .write, addr := a, len := n, slice := [] }] } ∧
    exec (.read a n) s = .next { s with cmds := s.cmds ++ [{ op := .read, addr := a, len := n, slice := [] }] }

/-- 43_paginated_write.md R150, R156, R159: a WRITE whose chunk `j` is accepted after the failed attempts `ess[j]` (at most
10 of them) records the groups `G_0 .. G_(N-1)` and `RSP ok`, fetches every `data[i]` exactly once in ascending order,
and leaves the host's data and its buffer alone; `scratch`, `retries` and `err`, never observed (R214), are left open. WRITE is
performed whole (log 19), the answers come from the model's list (log 9), behind which no device is modelled: that the field
`device` is as before is the model's choice and says nothing of a device (log 27; WriteReachesTheDevice is about the device). -/
def Obligations.WriteTraceWhenAccepted : Prop :=
  ∀ (a : Addr) (n : Nat) (s : State) (ess : List (List Nat)) (l : List Answer), Ready s → n < 2 ^ s.params.lenW →
    ess.length = chunkCount a.toNat n → (∀ errs ∈ ess, FewErrors s.params errs) →
    AnswersFrom s (ess.flatMap acceptAfter ++ l) →
    ∃ t, exec (.write a n) s = .next t ∧
      t = { s with
        scratch := t.scratch
        fsm := .idle
        op := .write
        base := a
        len := n
        cur := chunkStart a.toNat (chunkCount a.toNat n)
        retries := t.retries
        err := t.err
        rsp := some .ok
        wdataReqs := List.range n
        transport := { s.transport with answers := l }
        trace := s.trace ++ acceptedGroups s a.toNat n 0 ess ++ [.rsp .ok] }

/-- 43_paginated_write.md R158, 60_exceptions.md R187: a WRITE whose chunk `j` fails 11 times records the groups of the
chunks before it, the 11 attempts and 10 sleeps of chunk `j`, and `RSP err(e)` with the error of the last attempt; later
chunks are never attempted; `cur` holds the failing chunk's address and `retries` 10. The answers come from the model's list
(log 9) with no device behind it (log 27), WRITE is performed whole (log 19), and that the last error is surfaced is the spec's
own decision (log 24). -/
def Obligations.WriteTraceWhenExhausted : Prop :=
  ∀ (a : Addr) (n : Nat) (s : State) (ess : List (List Nat)) (errs : List Nat) (e : Nat) (l : List Answer),
    Ready s → n < 2 ^ s.params.lenW → ess.length < chunkCount a.toNat n →
    (∀ es ∈ ess, FewErrors s.params es) → errs.length = 10 → FewErrors s.params errs → e < 2 ^ s.params.errW →
    AnswersFrom s (ess.flatMap acceptAfter ++ (failAnswers errs ++ .err e :: l)) →
    ∃ t, exec (.write a n) s = .next t ∧
      t = { s with
        scratch := t.scratch
        fsm := .idle
        op := .write
        base := a
        len := n
        cur := chunkStart a.toNat ess.length
        retries := 10
        err := e
        rsp := some (.err e)
        wdataReqs := List.range (chunkStart a.toNat ess.length - a.toNat + chunkLength a.toNat n ess.length)
        transport := { s.transport with answers := l }
        trace := s.trace ++ acceptedGroups s a.toNat n 0 ess ++
          failedAttempts s.dev (chunkFrame s a.toNat n ess.length) errs ++
          [.write s.dev (chunkFrame s a.toNat n ess.length) (.err e), .rsp (.err e)] }

/-- 44_paginated_read.md R170, R173: a READ whose every transaction is answered records one `WR` per chunk and `RSP ok`,
and leaves in `buf` the bytes of the bursts in order; positions past the end keep their bytes. Each burst has its chunk's length,
as R57 says; what the model does with another length is its own choice (log 10). READ is performed whole (log 19), the answers
come from the model's list (log 9) with no device behind it (log 27). -/
def Obligations.ReadDeliversTheBursts : Prop :=
  ∀ (a : Addr) (n : Nat) (s : State) (bursts : List (List Byte)) (l : List Answer), Ready s → n < 2 ^ s.params.lenW →
    bursts.length = chunkCount a.toNat n → BurstsFit a.toNat n 0 bursts →
    AnswersFrom s (bursts.map .ok ++ l) →
    ∃ t, exec (.read a n) s = .next t ∧
      t.bufSlice 0 n = bursts.flatten ∧ (∀ i, n ≤ i → t.bufAt i = s.bufAt i) ∧
      t = { s with
        scratch := t.scratch
        fsm := .idle
        op := .read
        base := a
        len := n
        cur := chunkStart a.toNat (chunkCount a.toNat n)
        retries := t.retries
        rsp := some .ok
        wdataReqs := []
        buf := t.buf
        draws := t.draws
        transport := { s.transport with answers := l }
        trace := s.trace ++ readEvents s a.toNat n 0 bursts ++ [.rsp .ok] }

/-- 44_paginated_read.md R174, 60_exceptions.md R187: a READ whose chunk `j` fails records the `j` bursts before it, the failed
transaction and `RSP err(e)`; `buf` holds the bursts, then unspecified bytes for the chunk (free values, log 10), then what it
held; `cur` holds the failing chunk's address, `retries` 0 and `err` the error. READ is performed whole (log 19), the answers come
from the model's list (log 9) with no device behind it (log 27). -/
def Obligations.ReadStopsAtTheFirstError : Prop :=
  ∀ (a : Addr) (n : Nat) (s : State) (bursts : List (List Byte)) (e : Nat) (l : List Answer), Ready s →
    n < 2 ^ s.params.lenW → bursts.length < chunkCount a.toNat n → BurstsFit a.toNat n 0 bursts →
    e < 2 ^ s.params.errW → AnswersFrom s (bursts.map .ok ++ .err e :: l) →
    ∃ t, exec (.read a n) s = .next t ∧
      t.bufSlice 0 (chunkStart a.toNat bursts.length - a.toNat) = bursts.flatten ∧
      (∀ i, chunkStart a.toNat bursts.length - a.toNat + chunkLength a.toNat n bursts.length ≤ i →
        t.bufAt i = s.bufAt i) ∧
      t = { s with
        scratch := t.scratch
        fsm := .idle
        op := .read
        base := a
        len := n
        cur := chunkStart a.toNat bursts.length
        retries := 0
        err := e
        rsp := some (.err e)
        wdataReqs := []
        buf := t.buf
        draws := t.draws
        transport := { s.transport with answers := l }
        trace := s.trace ++ readEvents s a.toNat n 0 bursts ++
          [.writeRead s.dev (headerBytes (BitVec.ofNat 16 (chunkStart a.toNat bursts.length)))
            (chunkLength a.toNat n bursts.length) (.err e), .rsp (.err e)] }

/-- 44_paginated_read.md R175, R176, 70_reset_and_hazards.md R222: whatever the transport does, a READ issues no sleep and no
write; its trace is at most `N` combined transactions and, if it ended, one response after them; it changes neither `data` nor
`scratch[2 .. 34)`. If the transport answers its requests (`TransportLive`), it ends. A READ is performed whole, and one whose
transport withholds an answer ends with the block waiting, without a response (log 19, log 5). -/
def Obligations.ReadHasNoRetryLayer : Prop :=
  ∀ (a : Addr) (n : Nat) (s t : State), Ready s → n < 2 ^ s.params.lenW → exec (.read a n) s = .next t →
    (∃ evs, (∀ e ∈ evs, e.isRead = true) ∧ evs.length ≤ chunkCount a.toNat n ∧
      ((t.fsm = .idle ∧ ∃ r, t.trace = s.trace ++ evs ++ [.rsp r]) ∨ (t.fsm ≠ .idle ∧ t.trace = s.trace ++ evs))) ∧
    t.data = s.data ∧ (∀ (i : Nat) (h : i < 34), 2 ≤ i → t.scratch[i] = s.scratch[i]) ∧
    (TransportLive (chunkCount a.toNat n) s → t.fsm = .idle)

/-- 43_paginated_write.md R159, 60_exceptions.md R195, 70_reset_and_hazards.md R222: whatever the transport does, a WRITE of
`N` chunks issues at most `11 * N` writes and `10 * N` sleeps, sleeps at most `10 * N * T_UNIT`, reads nothing, and gives
at most one response, exactly one when it ends. If the transport answers its requests, at most `21 * N` of them
(`TransportLive`), it ends. -/
def Obligations.WriteIsBounded : Prop :=
  ∀ (a : Addr) (n : Nat) (s t : State), Ready s → n < 2 ^ s.params.lenW → exec (.write a n) s = .next t →
    ∃ evs, t.trace = s.trace ++ evs ∧ (∀ e ∈ evs, e.isRead = false) ∧
      evs.countP Event.isWrite ≤ 11 * chunkCount a.toNat n ∧ evs.countP Event.isSleep ≤ 10 * chunkCount a.toNat n ∧
      sleepingTime evs ≤ 10 * chunkCount a.toNat n * Config.tUnit ∧
      evs.countP Event.isResponse = (if t.fsm = .idle then 1 else 0) ∧ t.buf = s.buf ∧
      (TransportLive (21 * chunkCount a.toNat n) s → t.fsm = .idle)

/-- 43_paginated_write.md R164: "The sequencer and the pseudocode agree": a run of the sequencer from the ACCEPT of a
command comes to exactly the state, and to the same refusal of the reference device, as the command's pseudocode. -/
def Obligations.SequencerAgreesWithPseudocode : Prop :=
  ∀ (a : Addr) (n : Nat) (slice : List Byte) (s : State) (rest : List Command), Ready s →
    (s.cmds = { op := .write, addr := a, len := n, slice := slice } :: rest →
      ∃ k, Host.Core.run core k s = exec (.write a n) { s with cmds := rest, data := slice }) ∧
    (s.cmds = { op := .read, addr := a, len := n, slice := slice } :: rest →
      ∃ k, Host.Core.run core k s = exec (.read a n) { s with cmds := rest, buf := slice })

/-- 43_paginated_write.md R154, R155, R156: the closed form of the chunk sequence. There is a chunk for each `j < N` and no
other; chunk 0 starts at `a`, each later one at a page boundary; each is non-empty, lies in one page, and is followed at
once by the next; the last ends at `a + n`; all but the first and the last have 32 bytes. -/
def Obligations.ChunksPartitionTheRange : Prop :=
  ∀ a n : Nat,
    (∀ j, chunkStart a j < a + n ↔ j < chunkCount a n) ∧ chunkStart a 0 = a ∧
    (∀ j, 1 ≤ j → chunkStart a j % 32 = 0) ∧
    (∀ j, j < chunkCount a n →
      chunkLength a n j = nextChunkLen (chunkStart a j) (a + n - chunkStart a j) ∧ 1 ≤ chunkLength a n j ∧
      chunkStart a j % 32 + chunkLength a n j ≤ 32 ∧
      (j + 1 < chunkCount a n → chunkStart a j + chunkLength a n j = chunkStart a (j + 1)) ∧
      (j + 1 = chunkCount a n → chunkStart a j + chunkLength a n j = a + n) ∧
      (1 ≤ j → j + 1 < chunkCount a n → chunkLength a n j = 32))

/-! ## The reference device -/

/-- The device's memory (20_memory.md R61, R70): a byte written is read back, every other byte reads as before, the
canonical form is kept, and two canonical memories that read alike are equal. -/
def Obligations.DeviceMemoryLaws : Prop :=
  ∀ (m : Memory), m.wf = true →
    (∀ (a : Nat) (bs : List Byte),
      (m.writeBytes a bs).wf = true ∧
      (∀ (j : Nat) (h : j < bs.length), (m.writeBytes a bs).read (a + j) = bs[j]) ∧
      (∀ x, x < a ∨ a + bs.length ≤ x → (m.writeBytes a bs).read x = m.read x) ∧
      (a + bs.length ≤ 8192 → m.bounded = true → (m.writeBytes a bs).bounded = true)) ∧
    (∀ m' : Memory, m'.wf = true → (∀ x, m'.read x = m.read x) → m' = m)

/-- 20_memory.md R52, R60, R70, 70_reset_and_hazards.md R217 (b), R221: an attempt that an idle strapped device accepts writes
`data[rel + i]` to device address `cur + i` and to no other, and starts a write cycle; a device in its write cycle, or
strapped to another address, answers with its error and keeps its memory (a simplification of the scaffold, log 13). -/
def Obligations.AttemptReachesTheDevice : Prop :=
  (∀ s : State, BlockInv s → Strapped s → InRange s.base.toNat s.len → s.fsm = .attempt → s.op = .write →
    s.reply = none → s.transport.device.tick.busy = false →
    ∃ t, exec (.attemptOk .write) s = .next t ∧
      (∀ i, i < s.klen → t.transport.device.mem.read (s.cur + i) = s.dataAt (s.rel + i)) ∧
      (∀ x, x < s.cur ∨ s.cur + s.klen ≤ x → t.transport.device.mem.read x = s.transport.device.mem.read x) ∧
      t.transport.device.busy = true) ∧
  (∀ s : State, s.transport.responder = .device → s.fsm = .attempt → s.op = .write → s.reply = none →
    s.retries.toNat < 10 →
    (s.transport.device.strap ≠ s.hwAddr ∨ s.transport.device.tick.busy = true) →
    ∃ t, exec .attemptRetry s = .next t ∧ t.transport.device.mem = s.transport.device.mem ∧
      t.err = (if s.transport.device.strap = s.hwAddr then s.transport.device.eNack
        else s.transport.device.eAbsent) % 2 ^ s.params.errW)

/-- 43_paginated_write.md R150, R166, 20_memory.md R52: inside the device, strapped, with every write cycle ending within
the retry budget, a WRITE answers `ok` and has written `data[i]` to device address `a + i` for `0 <= i < n` and nothing
else. -/
def Obligations.WriteReachesTheDevice : Prop :=
  ∀ (a : Addr) (n b : Nat) (s : State), Ready s → Strapped s → InRange a.toNat n → n < 2 ^ s.params.lenW →
    s.transport.device.mem.wf = true → b ≤ 10 → CycleBounded b (chunkCount a.toNat n) s.transport.device →
    ∃ t, exec (.write a n) s = .next t ∧ t.rsp = some .ok ∧ t.fsm = .idle ∧
      (∀ i, i < n → t.transport.device.mem.read (a.toNat + i) = s.dataAt i) ∧
      (∀ x, x < a.toNat ∨ a.toNat + n ≤ x → t.transport.device.mem.read x = s.transport.device.mem.read x)

/-- 44_paginated_read.md R173, R176: with an idle strapped device a READ inside the device answers `ok`, leaves
`buf[j] = M[a + j]`, and does not change the device's memory. -/
def Obligations.ReadReturnsTheDevice : Prop :=
  ∀ (a : Addr) (n : Nat) (s : State), Ready s → Strapped s → InRange a.toNat n → n < 2 ^ s.params.lenW →
    DeviceIdle s →
    ∃ t, exec (.read a n) s = .next t ∧ t.rsp = some .ok ∧ t.fsm = .idle ∧
      (∀ j, j < n → t.bufAt j = s.transport.device.mem.read (a.toNat + j)) ∧
      t.transport.device.mem = s.transport.device.mem

/-- 20_memory.md R71, the source's round trip, under its premises written out: a WRITE, the end of its last write cycle,
and a READ of the same range: both answer `ok` and `buf[j] = data[j] = M[a + j]`. -/
def Obligations.RoundTrip : Prop :=
  ∀ (a : Addr) (n b : Nat) (s : State), Ready s → Strapped s → InRange a.toNat n → n < 2 ^ s.params.lenW →
    s.transport.device.mem.wf = true → b ≤ 10 → CycleBounded b (chunkCount a.toNat n) s.transport.device →
    ∃ t u, exec (.write a n) s = .next t ∧ t.rsp = some .ok ∧
      exec (.read a n) t.finishCycle = .next u ∧ u.rsp = some .ok ∧
      ∀ j, j < n → u.bufAt j = s.dataAt j ∧ u.transport.device.mem.read (a.toNat + j) = s.dataAt j

/-- 70_reset_and_hazards.md R221: if no device answers at `0x50 | hw_addr`, a WRITE with data issues 11 writes and 10 sleeps
for its first chunk and answers `err(e)`, a READ one transaction and `err(e)`; a zero-length command answers `ok`. -/
def Obligations.AbsentDevice : Prop :=
  ∀ (a : Addr) (n : Nat) (s : State), Ready s → s.transport.responder = .device →
    s.transport.device.strap ≠ s.hwAddr → n < 2 ^ s.params.lenW →
    (0 < n → ∃ t u e, e = s.transport.device.eAbsent % 2 ^ s.params.errW ∧
      exec (.write a n) s = .next t ∧
      t.trace = s.trace ++ failedAttempts s.dev (chunkFrame s a.toNat n 0) (List.replicate 10 e) ++
        [.write s.dev (chunkFrame s a.toNat n 0) (.err e), .rsp (.err e)] ∧
      t.transport.device.mem = s.transport.device.mem ∧
      exec (.read a n) s = .next u ∧
      u.trace = s.trace ++ [.writeRead s.dev (headerBytes a) (chunkLength a.toNat n 0) (.err e), .rsp (.err e)]) ∧
    (n = 0 → ∃ t u, exec (.write a n) s = .next t ∧ t.rsp = some .ok ∧ exec (.read a n) s = .next u ∧
      u.rsp = some .ok)

/-- 70_reset_and_hazards.md R225, R210, 10_state.md R21, 43_paginated_write.md R160: reset is the initial state only. A reset edge is
refused during a command, and also in `IDLE` (there the model's reading, log 25); construction loads `hw_addr` from `cfg_hw_addr`
and leaves the block idle with nothing requested or pending; after that neither a step nor a move of the environment loads
`hw_addr` again. -/
def Obligations.ResetOnlyAsInitialState : Prop :=
  (∀ (s : State) (cfg : BitVec 3),
    (s.fsm ≠ .idle → s.resetEdge cfg = .refused .resetDuringCommand) ∧
    (s.fsm = .idle → s.resetEdge cfg = .refused .secondReset)) ∧
  (∀ (p : Params) (cfg : BitVec 3) (tr : Transport),
    AfterReset cfg (State.construct p cfg tr) ∧ (State.construct p cfg tr).request = none ∧
    (State.construct p cfg tr).transport = tr ∧ (State.construct p cfg tr).trace = []) ∧
  ∀ s t : State, step s = .next t ∨ EnvMove s t → t.hwAddr = s.hwAddr
end

