-- ==== Sys2Proof/Laws/Encoding.lean ====
section
/-! SUPPORT. Bytes and numbers: the big-endian spelling of a command word, and the two bytes of an address header
(spec/30_encoding.md R80, R81, R84, R88). -/

namespace Sys2Proof

theorem beNat_append_one (bs : List Byte) (b : Byte) : beNat (bs ++ [b]) = beNat bs * 256 + b.toNat := by
  simp [beNat]

theorem beBytes_length (k v : Nat) : (beBytes k v).length = k := by
  induction k generalizing v with
  | zero => rfl
  | succ k ih => simp [beBytes, ih]

theorem beNat_beBytes (k v : Nat) : beNat (beBytes k v) = v % 256 ^ k := by
  induction k generalizing v with
  | zero => simp [beBytes, beNat]; omega
  | succ k ih =>
    rw [beBytes, beNat_append_one, ih, Nat.pow_succ, Nat.mul_comm (256 ^ k) 256, Nat.mod_mul]
    simp; omega

theorem beNat_lt (bs : List Byte) : beNat bs < 256 ^ bs.length := by
  induction bs using List.reverseRecOn with
  | nil => simp [beNat]
  | append_singleton bs b ih =>
    rw [beNat_append_one, List.length_append, List.length_singleton, Nat.pow_succ]
    have := b.isLt; omega

theorem beBytes_beNat (bs : List Byte) : beBytes bs.length (beNat bs) = bs := by
  induction bs using List.reverseRecOn with
  | nil => rfl
  | append_singleton bs b ih =>
    rw [List.length_append, List.length_singleton, beBytes, beNat_append_one]
    have hb := b.isLt
    rw [show (beNat bs * 256 + b.toNat) / 256 = beNat bs by omega, ih]
    congr 2
    apply BitVec.eq_of_toNat_eq
    simp; omega

theorem two_pow_le_bytes (lenW : Nat) : 2 ^ (17 + lenW) ≤ 256 ^ commandBytes lenW := by
  rw [show (256:Nat) = 2 ^ 8 by rfl, ← Nat.pow_mul]
  apply Nat.pow_le_pow_right (by decide)
  unfold commandBytes; omega

/-- The header of an address spells it (30_encoding.md R81, R82). -/
theorem headerAddr_header (a : Addr) : headerAddr (a.extractLsb' 8 8) (a.extractLsb' 0 8) = a := by
  unfold headerAddr
  apply BitVec.eq_of_toNat_eq
  have := a.isLt
  rw [BitVec.toNat_append, ← Nat.shiftLeft_add_eq_or_of_lt (BitVec.isLt _)]
  simp [Nat.shiftLeft_eq, Nat.shiftRight_eq_div_pow]
  omega

/-- The fields of a command word (30_encoding.md R84). -/
theorem command_word_fields (lenW b : Nat) (a : Addr) (n : Nat) (hb : b < 2) (hn : n < 2 ^ lenW) :
    let v := b * 2 ^ (16 + lenW) + a.toNat * 2 ^ lenW + n % 2 ^ lenW
    v < 2 ^ (17 + lenW) ∧ v / 2 ^ (16 + lenW) = b ∧ BitVec.ofNat 16 (v / 2 ^ lenW) = a ∧ v % 2 ^ lenW = n := by
  intro v
  have ha := a.isLt
  have e : v = (b * 65536 + a.toNat) * 2 ^ lenW + n := by
    simp only [v, Nat.mod_eq_of_lt hn]; rw [Nat.pow_add]; ring
  have hpos : 0 < 2 ^ lenW := Nat.two_pow_pos _
  have h1 : v / 2 ^ lenW = b * 65536 + a.toNat := by
    rw [e, Nat.add_comm, Nat.add_mul_div_right _ _ hpos, Nat.div_eq_of_lt hn]; omega
  have h2 : v % 2 ^ lenW = n := by rw [e, Nat.add_comm, Nat.add_mul_mod_self_right, Nat.mod_eq_of_lt hn]
  refine ⟨?_, ?_, ?_, h2⟩
  · rw [Nat.pow_add]
    rw [← Nat.div_lt_iff_lt_mul hpos, h1]; omega
  · rw [Nat.add_comm, Nat.pow_add, ← Nat.div_div_eq_div_mul, h1]; omega
  · rw [h1]; apply BitVec.eq_of_toNat_eq; simp; omega

theorem headerBytes_headerAddr (hi lo : Byte) : headerBytes (headerAddr hi lo) = [hi, lo] := by
  have h1 := hi.isLt
  have h2 := lo.isLt
  have e : (headerAddr hi lo).toNat = hi.toNat * 256 + lo.toNat := by
    unfold headerAddr
    rw [BitVec.toNat_append, ← Nat.shiftLeft_add_eq_or_of_lt (BitVec.isLt _)]
    simp [Nat.shiftLeft_eq]
  unfold headerBytes
  congr 1
  · apply BitVec.eq_of_toNat_eq; simp [e, Nat.shiftRight_eq_div_pow]; omega
  · congr 1; apply BitVec.eq_of_toNat_eq; simp [e]; omega

/-- High byte first, the bits above 15 dropped (20_memory.md R51, 30_encoding.md R88). -/
theorem headerBytes_cur (c : Nat) : headerBytes (BitVec.ofNat 16 c) = [BitVec.ofNat 8 (c / 256), BitVec.ofNat 8 c] := by
  unfold headerBytes
  congr 1
  · apply BitVec.eq_of_toNat_eq; simp [Nat.shiftRight_eq_div_pow]; omega
  · congr 1; apply BitVec.eq_of_toNat_eq; simp

theorem headerBytes_addr (a : Addr) : headerBytes a = [BitVec.ofNat 8 (a.toNat / 256), BitVec.ofNat 8 a.toNat] := by
  rw [← headerBytes_cur]; simp

/-- Two hardware addresses never share a bus address (40_address_encoder.md R112). -/
theorem devAddrOf_injective : ∀ {h h' : BitVec 3}, devAddrOf h = devAddrOf h' → h = h' := by decide

end Sys2Proof
end

