-- ==== Sys2Proof/Laws/State.lean ====
section
/-! SUPPORT. What each shared update of the state does to each field: one lemma per field, tagged simp, so that no
proof unfolds a record update; and the derived values it leaves alone. -/

namespace Sys2Proof.Machine

/-! ### encHdr -/

@[simp] theorem encHdr_params (a : Addr) (s : State) : (encHdr a s).params = s.params := by rw [encHdr]

@[simp] theorem encHdr_hwAddr (a : Addr) (s : State) : (encHdr a s).hwAddr = s.hwAddr := by rw [encHdr]

@[simp] theorem encHdr_scratch (a : Addr) (s : State) :
    (encHdr a s).scratch = putScratch s.scratch 0 (headerBytes a) := by rw [encHdr]

@[simp] theorem encHdr_fsm (a : Addr) (s : State) : (encHdr a s).fsm = s.fsm := by rw [encHdr]

@[simp] theorem encHdr_op (a : Addr) (s : State) : (encHdr a s).op = s.op := by rw [encHdr]

@[simp] theorem encHdr_base (a : Addr) (s : State) : (encHdr a s).base = s.base := by rw [encHdr]

@[simp] theorem encHdr_len (a : Addr) (s : State) : (encHdr a s).len = s.len := by rw [encHdr]

@[simp] theorem encHdr_cur (a : Addr) (s : State) : (encHdr a s).cur = s.cur := by rw [encHdr]

@[simp] theorem encHdr_retries (a : Addr) (s : State) : (encHdr a s).retries = s.retries := by rw [encHdr]

@[simp] theorem encHdr_err (a : Addr) (s : State) : (encHdr a s).err = s.err := by rw [encHdr]

@[simp] theorem encHdr_cmds (a : Addr) (s : State) : (encHdr a s).cmds = s.cmds := by rw [encHdr]

@[simp] theorem encHdr_reply (a : Addr) (s : State) : (encHdr a s).reply = s.reply := by rw [encHdr]

@[simp] theorem encHdr_rsp (a : Addr) (s : State) : (encHdr a s).rsp = s.rsp := by rw [encHdr]

@[simp] theorem encHdr_wdataReqs (a : Addr) (s : State) : (encHdr a s).wdataReqs = s.wdataReqs := by rw [encHdr]

@[simp] theorem encHdr_data (a : Addr) (s : State) : (encHdr a s).data = s.data := by rw [encHdr]

@[simp] theorem encHdr_buf (a : Addr) (s : State) : (encHdr a s).buf = s.buf := by rw [encHdr]

@[simp] theorem encHdr_transport (a : Addr) (s : State) : (encHdr a s).transport = s.transport := by rw [encHdr]

@[simp] theorem encHdr_trace (a : Addr) (s : State) : (encHdr a s).trace = s.trace := by rw [encHdr]

@[simp] theorem encHdr_slot (a : Addr) (s : State) : (encHdr a s).slot = s.slot := by rw [encHdr]

@[simp] theorem encHdr_result (a : Addr) (s : State) : (encHdr a s).result = s.result := by rw [encHdr]

@[simp] theorem encHdr_draws (a : Addr) (s : State) : (encHdr a s).draws = s.draws := by rw [encHdr]

/-! ### loadPayload -/

@[simp] theorem loadPayload_params (ds : List Byte) (s : State) :
    (loadPayload ds s).params = s.params := by rw [loadPayload]

@[simp] theorem loadPayload_hwAddr (ds : List Byte) (s : State) :
    (loadPayload ds s).hwAddr = s.hwAddr := by rw [loadPayload]

@[simp] theorem loadPayload_scratch (ds : List Byte) (s : State) :
    (loadPayload ds s).scratch = putScratch s.scratch Config.hdrLen ds := by rw [loadPayload]

@[simp] theorem loadPayload_fsm (ds : List Byte) (s : State) : (loadPayload ds s).fsm = s.fsm := by rw [loadPayload]

@[simp] theorem loadPayload_op (ds : List Byte) (s : State) : (loadPayload ds s).op = s.op := by rw [loadPayload]

@[simp] theorem loadPayload_base (ds : List Byte) (s : State) :
    (loadPayload ds s).base = s.base := by rw [loadPayload]

@[simp] theorem loadPayload_len (ds : List Byte) (s : State) : (loadPayload ds s).len = s.len := by rw [loadPayload]

@[simp] theorem loadPayload_cur (ds : List Byte) (s : State) : (loadPayload ds s).cur = s.cur := by rw [loadPayload]

@[simp] theorem loadPayload_retries (ds : List Byte) (s : State) :
    (loadPayload ds s).retries = s.retries := by rw [loadPayload]

@[simp] theorem loadPayload_err (ds : List Byte) (s : State) : (loadPayload ds s).err = s.err := by rw [loadPayload]

@[simp] theorem loadPayload_cmds (ds : List Byte) (s : State) :
    (loadPayload ds s).cmds = s.cmds := by rw [loadPayload]

@[simp] theorem loadPayload_reply (ds : List Byte) (s : State) :
    (loadPayload ds s).reply = s.reply := by rw [loadPayload]

@[simp] theorem loadPayload_rsp (ds : List Byte) (s : State) : (loadPayload ds s).rsp = s.rsp := by rw [loadPayload]

@[simp] theorem loadPayload_wdataReqs (ds : List Byte) (s : State) :
    (loadPayload ds s).wdataReqs = s.wdataReqs ++ (List.range ds.length).map (s.rel + ·) := by rw [loadPayload]

@[simp] theorem loadPayload_data (ds : List Byte) (s : State) :
    (loadPayload ds s).data = s.data := by rw [loadPayload]

@[simp] theorem loadPayload_buf (ds : List Byte) (s : State) : (loadPayload ds s).buf = s.buf := by rw [loadPayload]

@[simp] theorem loadPayload_transport (ds : List Byte) (s : State) :
    (loadPayload ds s).transport = s.transport := by rw [loadPayload]

@[simp] theorem loadPayload_trace (ds : List Byte) (s : State) :
    (loadPayload ds s).trace = s.trace := by rw [loadPayload]

@[simp] theorem loadPayload_slot (ds : List Byte) (s : State) :
    (loadPayload ds s).slot = s.slot := by rw [loadPayload]

@[simp] theorem loadPayload_result (ds : List Byte) (s : State) :
    (loadPayload ds s).result = s.result := by rw [loadPayload]

@[simp] theorem loadPayload_draws (ds : List Byte) (s : State) :
    (loadPayload ds s).draws = s.draws := by rw [loadPayload]

/-! ### encodeChunk -/

@[simp] theorem encodeChunk_params (s : State) :
    (encodeChunk s).params = s.params := by
  unfold encodeChunk; split <;> simp

@[simp] theorem encodeChunk_hwAddr (s : State) :
    (encodeChunk s).hwAddr = s.hwAddr := by
  unfold encodeChunk; split <;> simp

@[simp] theorem encodeChunk_fsm (s : State) :
    (encodeChunk s).fsm = .attempt := by
  unfold encodeChunk; split <;> simp

@[simp] theorem encodeChunk_op (s : State) : (encodeChunk s).op = s.op := by
  unfold encodeChunk; split <;> simp

@[simp] theorem encodeChunk_base (s : State) :
    (encodeChunk s).base = s.base := by
  unfold encodeChunk; split <;> simp

@[simp] theorem encodeChunk_len (s : State) : (encodeChunk s).len = s.len := by
  unfold encodeChunk; split <;> simp

@[simp] theorem encodeChunk_cur (s : State) : (encodeChunk s).cur = s.cur := by
  unfold encodeChunk; split <;> simp

@[simp] theorem encodeChunk_retries (s : State) :
    (encodeChunk s).retries = 0 := by
  unfold encodeChunk; split <;> simp

@[simp] theorem encodeChunk_err (s : State) : (encodeChunk s).err = s.err := by
  unfold encodeChunk; split <;> simp

@[simp] theorem encodeChunk_cmds (s : State) :
    (encodeChunk s).cmds = s.cmds := by
  unfold encodeChunk; split <;> simp

@[simp] theorem encodeChunk_reply (s : State) :
    (encodeChunk s).reply = s.reply := by
  unfold encodeChunk; split <;> simp

@[simp] theorem encodeChunk_rsp (s : State) : (encodeChunk s).rsp = s.rsp := by
  unfold encodeChunk; split <;> simp

@[simp] theorem encodeChunk_data (s : State) :
    (encodeChunk s).data = s.data := by
  unfold encodeChunk; split <;> simp

@[simp] theorem encodeChunk_buf (s : State) : (encodeChunk s).buf = s.buf := by
  unfold encodeChunk; split <;> simp

@[simp] theorem encodeChunk_transport (s : State) :
    (encodeChunk s).transport = s.transport := by
  unfold encodeChunk; split <;> simp

@[simp] theorem encodeChunk_trace (s : State) :
    (encodeChunk s).trace = s.trace := by
  unfold encodeChunk; split <;> simp

@[simp] theorem encodeChunk_slot (s : State) :
    (encodeChunk s).slot = s.slot := by
  unfold encodeChunk; split <;> simp

@[simp] theorem encodeChunk_result (s : State) :
    (encodeChunk s).result = s.result := by
  unfold encodeChunk; split <;> simp

@[simp] theorem encodeChunk_draws (s : State) :
    (encodeChunk s).draws = s.draws := by
  unfold encodeChunk; split <;> simp

/-! ### respond -/

@[simp] theorem respond_params (r : Reply) (s : State) : (respond r s).params = s.params := by rw [respond]

@[simp] theorem respond_hwAddr (r : Reply) (s : State) : (respond r s).hwAddr = s.hwAddr := by rw [respond]

@[simp] theorem respond_scratch (r : Reply) (s : State) : (respond r s).scratch = s.scratch := by rw [respond]

@[simp] theorem respond_fsm (r : Reply) (s : State) : (respond r s).fsm = .idle := by rw [respond]

@[simp] theorem respond_op (r : Reply) (s : State) : (respond r s).op = s.op := by rw [respond]

@[simp] theorem respond_base (r : Reply) (s : State) : (respond r s).base = s.base := by rw [respond]

@[simp] theorem respond_len (r : Reply) (s : State) : (respond r s).len = s.len := by rw [respond]

@[simp] theorem respond_cur (r : Reply) (s : State) : (respond r s).cur = s.cur := by rw [respond]

@[simp] theorem respond_retries (r : Reply) (s : State) : (respond r s).retries = s.retries := by rw [respond]

@[simp] theorem respond_err (r : Reply) (s : State) : (respond r s).err = s.err := by rw [respond]

@[simp] theorem respond_cmds (r : Reply) (s : State) : (respond r s).cmds = s.cmds := by rw [respond]

@[simp] theorem respond_reply (r : Reply) (s : State) : (respond r s).reply = s.reply := by rw [respond]

@[simp] theorem respond_rsp (r : Reply) (s : State) : (respond r s).rsp = some r := by rw [respond]

@[simp] theorem respond_wdataReqs (r : Reply) (s : State) : (respond r s).wdataReqs = s.wdataReqs := by rw [respond]

@[simp] theorem respond_data (r : Reply) (s : State) : (respond r s).data = s.data := by rw [respond]

@[simp] theorem respond_buf (r : Reply) (s : State) : (respond r s).buf = s.buf := by rw [respond]

@[simp] theorem respond_transport (r : Reply) (s : State) : (respond r s).transport = s.transport := by rw [respond]

@[simp] theorem respond_trace (r : Reply) (s : State) : (respond r s).trace = s.trace ++ [.rsp r] := by rw [respond]

@[simp] theorem respond_slot (r : Reply) (s : State) : (respond r s).slot = s.slot := by rw [respond]

@[simp] theorem respond_result (r : Reply) (s : State) : (respond r s).result = s.result := by rw [respond]

@[simp] theorem respond_draws (r : Reply) (s : State) : (respond r s).draws = s.draws := by rw [respond]

/-! ### raiseTransportError -/

@[simp] theorem raiseTransportError_params (e : Nat) (s : State) :
    (raiseTransportError e s).params = s.params := by rw [raiseTransportError, respond]

@[simp] theorem raiseTransportError_hwAddr (e : Nat) (s : State) :
    (raiseTransportError e s).hwAddr = s.hwAddr := by rw [raiseTransportError, respond]

@[simp] theorem raiseTransportError_scratch (e : Nat) (s : State) :
    (raiseTransportError e s).scratch = s.scratch := by rw [raiseTransportError, respond]

@[simp] theorem raiseTransportError_fsm (e : Nat) (s : State) :
    (raiseTransportError e s).fsm = .idle := by rw [raiseTransportError, respond]

@[simp] theorem raiseTransportError_op (e : Nat) (s : State) :
    (raiseTransportError e s).op = s.op := by rw [raiseTransportError, respond]

@[simp] theorem raiseTransportError_base (e : Nat) (s : State) :
    (raiseTransportError e s).base = s.base := by rw [raiseTransportError, respond]

@[simp] theorem raiseTransportError_len (e : Nat) (s : State) :
    (raiseTransportError e s).len = s.len := by rw [raiseTransportError, respond]

@[simp] theorem raiseTransportError_cur (e : Nat) (s : State) :
    (raiseTransportError e s).cur = s.cur := by rw [raiseTransportError, respond]

@[simp] theorem raiseTransportError_retries (e : Nat) (s : State) :
    (raiseTransportError e s).retries = s.retries := by rw [raiseTransportError, respond]

@[simp] theorem raiseTransportError_err (e : Nat) (s : State) :
    (raiseTransportError e s).err = e := by rw [raiseTransportError, respond]

@[simp] theorem raiseTransportError_cmds (e : Nat) (s : State) :
    (raiseTransportError e s).cmds = s.cmds := by rw [raiseTransportError, respond]

@[simp] theorem raiseTransportError_reply (e : Nat) (s : State) :
    (raiseTransportError e s).reply = s.reply := by rw [raiseTransportError, respond]

@[simp] theorem raiseTransportError_rsp (e : Nat) (s : State) :
    (raiseTransportError e s).rsp = some (.err e) := by rw [raiseTransportError, respond]

@[simp] theorem raiseTransportError_wdataReqs (e : Nat) (s : State) :
    (raiseTransportError e s).wdataReqs = s.wdataReqs := by rw [raiseTransportError, respond]

@[simp] theorem raiseTransportError_data (e : Nat) (s : State) :
    (raiseTransportError e s).data = s.data := by rw [raiseTransportError, respond]

@[simp] theorem raiseTransportError_buf (e : Nat) (s : State) :
    (raiseTransportError e s).buf = s.buf := by rw [raiseTransportError, respond]

@[simp] theorem raiseTransportError_transport (e : Nat) (s : State) :
    (raiseTransportError e s).transport = s.transport := by rw [raiseTransportError, respond]

@[simp] theorem raiseTransportError_trace (e : Nat) (s : State) :
    (raiseTransportError e s).trace = s.trace ++ [.rsp (.err e)] := by rw [raiseTransportError, respond]

@[simp] theorem raiseTransportError_slot (e : Nat) (s : State) :
    (raiseTransportError e s).slot = s.slot := by rw [raiseTransportError, respond]

@[simp] theorem raiseTransportError_result (e : Nat) (s : State) :
    (raiseTransportError e s).result = s.result := by rw [raiseTransportError, respond]

@[simp] theorem raiseTransportError_draws (e : Nat) (s : State) :
    (raiseTransportError e s).draws = s.draws := by rw [raiseTransportError, respond]

/-! ### advance -/

@[simp] theorem advance_params (s : State) : (advance s).params = s.params := by rw [advance]

@[simp] theorem advance_hwAddr (s : State) : (advance s).hwAddr = s.hwAddr := by rw [advance]

@[simp] theorem advance_scratch (s : State) : (advance s).scratch = s.scratch := by rw [advance]

@[simp] theorem advance_fsm (s : State) : (advance s).fsm = .chunk := by rw [advance]

@[simp] theorem advance_op (s : State) : (advance s).op = s.op := by rw [advance]

@[simp] theorem advance_base (s : State) : (advance s).base = s.base := by rw [advance]

@[simp] theorem advance_len (s : State) : (advance s).len = s.len := by rw [advance]

@[simp] theorem advance_cur (s : State) : (advance s).cur = s.cur + s.rem := by rw [advance]

@[simp] theorem advance_retries (s : State) : (advance s).retries = s.retries := by rw [advance]

@[simp] theorem advance_err (s : State) : (advance s).err = s.err := by rw [advance]

@[simp] theorem advance_cmds (s : State) : (advance s).cmds = s.cmds := by rw [advance]

@[simp] theorem advance_reply (s : State) : (advance s).reply = s.reply := by rw [advance]

@[simp] theorem advance_rsp (s : State) : (advance s).rsp = s.rsp := by rw [advance]

@[simp] theorem advance_wdataReqs (s : State) : (advance s).wdataReqs = s.wdataReqs := by rw [advance]

@[simp] theorem advance_data (s : State) : (advance s).data = s.data := by rw [advance]

@[simp] theorem advance_buf (s : State) : (advance s).buf = s.buf := by rw [advance]

@[simp] theorem advance_transport (s : State) : (advance s).transport = s.transport := by rw [advance]

@[simp] theorem advance_trace (s : State) : (advance s).trace = s.trace := by rw [advance]

@[simp] theorem advance_slot (s : State) : (advance s).slot = s.slot := by rw [advance]

@[simp] theorem advance_result (s : State) : (advance s).result = s.result := by rw [advance]

@[simp] theorem advance_draws (s : State) : (advance s).draws = s.draws := by rw [advance]

/-! ### latchCommand -/

@[simp] theorem latchCommand_params (o : Op) (a : Addr) (n : Nat) (s : State) :
    (latchCommand o a n s).params = s.params := by rw [latchCommand]

@[simp] theorem latchCommand_hwAddr (o : Op) (a : Addr) (n : Nat) (s : State) :
    (latchCommand o a n s).hwAddr = s.hwAddr := by rw [latchCommand]

@[simp] theorem latchCommand_scratch (o : Op) (a : Addr) (n : Nat) (s : State) :
    (latchCommand o a n s).scratch = s.scratch := by rw [latchCommand]

@[simp] theorem latchCommand_fsm (o : Op) (a : Addr) (n : Nat) (s : State) :
    (latchCommand o a n s).fsm = .chunk := by rw [latchCommand]

@[simp] theorem latchCommand_op (o : Op) (a : Addr) (n : Nat) (s : State) :
    (latchCommand o a n s).op = o := by rw [latchCommand]

@[simp] theorem latchCommand_base (o : Op) (a : Addr) (n : Nat) (s : State) :
    (latchCommand o a n s).base = a := by rw [latchCommand]

@[simp] theorem latchCommand_len (o : Op) (a : Addr) (n : Nat) (s : State) :
    (latchCommand o a n s).len = portLen s.params n := by rw [latchCommand]

@[simp] theorem latchCommand_cur (o : Op) (a : Addr) (n : Nat) (s : State) :
    (latchCommand o a n s).cur = a.toNat := by rw [latchCommand]

@[simp] theorem latchCommand_retries (o : Op) (a : Addr) (n : Nat) (s : State) :
    (latchCommand o a n s).retries = s.retries := by rw [latchCommand]

@[simp] theorem latchCommand_err (o : Op) (a : Addr) (n : Nat) (s : State) :
    (latchCommand o a n s).err = s.err := by rw [latchCommand]

@[simp] theorem latchCommand_cmds (o : Op) (a : Addr) (n : Nat) (s : State) :
    (latchCommand o a n s).cmds = s.cmds := by rw [latchCommand]

@[simp] theorem latchCommand_reply (o : Op) (a : Addr) (n : Nat) (s : State) :
    (latchCommand o a n s).reply = s.reply := by rw [latchCommand]

@[simp] theorem latchCommand_rsp (o : Op) (a : Addr) (n : Nat) (s : State) :
    (latchCommand o a n s).rsp = none := by rw [latchCommand]

@[simp] theorem latchCommand_wdataReqs (o : Op) (a : Addr) (n : Nat) (s : State) :
    (latchCommand o a n s).wdataReqs = [] := by rw [latchCommand]

@[simp] theorem latchCommand_data (o : Op) (a : Addr) (n : Nat) (s : State) :
    (latchCommand o a n s).data = s.data := by rw [latchCommand]

@[simp] theorem latchCommand_buf (o : Op) (a : Addr) (n : Nat) (s : State) :
    (latchCommand o a n s).buf = s.buf := by rw [latchCommand]

@[simp] theorem latchCommand_transport (o : Op) (a : Addr) (n : Nat) (s : State) :
    (latchCommand o a n s).transport = s.transport := by rw [latchCommand]

@[simp] theorem latchCommand_trace (o : Op) (a : Addr) (n : Nat) (s : State) :
    (latchCommand o a n s).trace = s.trace := by rw [latchCommand]

@[simp] theorem latchCommand_slot (o : Op) (a : Addr) (n : Nat) (s : State) :
    (latchCommand o a n s).slot = s.slot := by rw [latchCommand]

@[simp] theorem latchCommand_result (o : Op) (a : Addr) (n : Nat) (s : State) :
    (latchCommand o a n s).result = s.result := by rw [latchCommand]

@[simp] theorem latchCommand_draws (o : Op) (a : Addr) (n : Nat) (s : State) :
    (latchCommand o a n s).draws = s.draws := by rw [latchCommand]

/-! ### lendSlice -/

@[simp] theorem lendSlice_params (c : Command) (s : State) :
    (lendSlice c s).params = s.params := by
  unfold lendSlice; split <;> simp

@[simp] theorem lendSlice_hwAddr (c : Command) (s : State) :
    (lendSlice c s).hwAddr = s.hwAddr := by
  unfold lendSlice; split <;> simp

@[simp] theorem lendSlice_scratch (c : Command) (s : State) :
    (lendSlice c s).scratch = s.scratch := by
  unfold lendSlice; split <;> simp

@[simp] theorem lendSlice_fsm (c : Command) (s : State) :
    (lendSlice c s).fsm = s.fsm := by
  unfold lendSlice; split <;> simp

@[simp] theorem lendSlice_op (c : Command) (s : State) :
    (lendSlice c s).op = s.op := by
  unfold lendSlice; split <;> simp

@[simp] theorem lendSlice_base (c : Command) (s : State) :
    (lendSlice c s).base = s.base := by
  unfold lendSlice; split <;> simp

@[simp] theorem lendSlice_len (c : Command) (s : State) :
    (lendSlice c s).len = s.len := by
  unfold lendSlice; split <;> simp

@[simp] theorem lendSlice_cur (c : Command) (s : State) :
    (lendSlice c s).cur = s.cur := by
  unfold lendSlice; split <;> simp

@[simp] theorem lendSlice_retries (c : Command) (s : State) :
    (lendSlice c s).retries = s.retries := by
  unfold lendSlice; split <;> simp

@[simp] theorem lendSlice_err (c : Command) (s : State) :
    (lendSlice c s).err = s.err := by
  unfold lendSlice; split <;> simp

@[simp] theorem lendSlice_cmds (c : Command) (s : State) :
    (lendSlice c s).cmds = s.cmds := by
  unfold lendSlice; split <;> simp

@[simp] theorem lendSlice_reply (c : Command) (s : State) :
    (lendSlice c s).reply = s.reply := by
  unfold lendSlice; split <;> simp

@[simp] theorem lendSlice_rsp (c : Command) (s : State) :
    (lendSlice c s).rsp = s.rsp := by
  unfold lendSlice; split <;> simp

@[simp] theorem lendSlice_wdataReqs (c : Command) (s : State) :
    (lendSlice c s).wdataReqs = s.wdataReqs := by
  unfold lendSlice; split <;> simp

@[simp] theorem lendSlice_transport (c : Command) (s : State) :
    (lendSlice c s).transport = s.transport := by
  unfold lendSlice; split <;> simp

@[simp] theorem lendSlice_trace (c : Command) (s : State) :
    (lendSlice c s).trace = s.trace := by
  unfold lendSlice; split <;> simp

@[simp] theorem lendSlice_slot (c : Command) (s : State) :
    (lendSlice c s).slot = s.slot := by
  unfold lendSlice; split <;> simp

@[simp] theorem lendSlice_result (c : Command) (s : State) :
    (lendSlice c s).result = s.result := by
  unfold lendSlice; split <;> simp

@[simp] theorem lendSlice_draws (c : Command) (s : State) :
    (lendSlice c s).draws = s.draws := by
  unfold lendSlice; split <;> simp

/-! ### toDelay -/

@[simp] theorem toDelay_params (e : Nat) (s : State) : (toDelay e s).params = s.params := by rw [toDelay]

@[simp] theorem toDelay_hwAddr (e : Nat) (s : State) : (toDelay e s).hwAddr = s.hwAddr := by rw [toDelay]

@[simp] theorem toDelay_scratch (e : Nat) (s : State) : (toDelay e s).scratch = s.scratch := by rw [toDelay]

@[simp] theorem toDelay_fsm (e : Nat) (s : State) : (toDelay e s).fsm = .delay := by rw [toDelay]

@[simp] theorem toDelay_op (e : Nat) (s : State) : (toDelay e s).op = s.op := by rw [toDelay]

@[simp] theorem toDelay_base (e : Nat) (s : State) : (toDelay e s).base = s.base := by rw [toDelay]

@[simp] theorem toDelay_len (e : Nat) (s : State) : (toDelay e s).len = s.len := by rw [toDelay]

@[simp] theorem toDelay_cur (e : Nat) (s : State) : (toDelay e s).cur = s.cur := by rw [toDelay]

@[simp] theorem toDelay_retries (e : Nat) (s : State) : (toDelay e s).retries = s.retries := by rw [toDelay]

@[simp] theorem toDelay_err (e : Nat) (s : State) : (toDelay e s).err = e := by rw [toDelay]

@[simp] theorem toDelay_cmds (e : Nat) (s : State) : (toDelay e s).cmds = s.cmds := by rw [toDelay]

@[simp] theorem toDelay_reply (e : Nat) (s : State) : (toDelay e s).reply = s.reply := by rw [toDelay]

@[simp] theorem toDelay_rsp (e : Nat) (s : State) : (toDelay e s).rsp = s.rsp := by rw [toDelay]

@[simp] theorem toDelay_wdataReqs (e : Nat) (s : State) : (toDelay e s).wdataReqs = s.wdataReqs := by rw [toDelay]

@[simp] theorem toDelay_data (e : Nat) (s : State) : (toDelay e s).data = s.data := by rw [toDelay]

@[simp] theorem toDelay_buf (e : Nat) (s : State) : (toDelay e s).buf = s.buf := by rw [toDelay]

@[simp] theorem toDelay_transport (e : Nat) (s : State) : (toDelay e s).transport = s.transport := by rw [toDelay]

@[simp] theorem toDelay_trace (e : Nat) (s : State) : (toDelay e s).trace = s.trace := by rw [toDelay]

@[simp] theorem toDelay_slot (e : Nat) (s : State) : (toDelay e s).slot = s.slot := by rw [toDelay]

@[simp] theorem toDelay_result (e : Nat) (s : State) : (toDelay e s).result = s.result := by rw [toDelay]

@[simp] theorem toDelay_draws (e : Nat) (s : State) : (toDelay e s).draws = s.draws := by rw [toDelay]

/-! ### afterDelay -/

@[simp] theorem afterDelay_params (s : State) : (afterDelay s).params = s.params := by rw [afterDelay]

@[simp] theorem afterDelay_hwAddr (s : State) : (afterDelay s).hwAddr = s.hwAddr := by rw [afterDelay]

@[simp] theorem afterDelay_scratch (s : State) : (afterDelay s).scratch = s.scratch := by rw [afterDelay]

@[simp] theorem afterDelay_fsm (s : State) : (afterDelay s).fsm = .attempt := by rw [afterDelay]

@[simp] theorem afterDelay_op (s : State) : (afterDelay s).op = s.op := by rw [afterDelay]

@[simp] theorem afterDelay_base (s : State) : (afterDelay s).base = s.base := by rw [afterDelay]

@[simp] theorem afterDelay_len (s : State) : (afterDelay s).len = s.len := by rw [afterDelay]

@[simp] theorem afterDelay_cur (s : State) : (afterDelay s).cur = s.cur := by rw [afterDelay]

@[simp] theorem afterDelay_retries (s : State) : (afterDelay s).retries = s.retries + 1 := by rw [afterDelay]

@[simp] theorem afterDelay_err (s : State) : (afterDelay s).err = s.err := by rw [afterDelay]

@[simp] theorem afterDelay_cmds (s : State) : (afterDelay s).cmds = s.cmds := by rw [afterDelay]

@[simp] theorem afterDelay_reply (s : State) : (afterDelay s).reply = s.reply := by rw [afterDelay]

@[simp] theorem afterDelay_rsp (s : State) : (afterDelay s).rsp = s.rsp := by rw [afterDelay]

@[simp] theorem afterDelay_wdataReqs (s : State) : (afterDelay s).wdataReqs = s.wdataReqs := by rw [afterDelay]

@[simp] theorem afterDelay_data (s : State) : (afterDelay s).data = s.data := by rw [afterDelay]

@[simp] theorem afterDelay_buf (s : State) : (afterDelay s).buf = s.buf := by rw [afterDelay]

@[simp] theorem afterDelay_transport (s : State) : (afterDelay s).transport = s.transport := by rw [afterDelay]

@[simp] theorem afterDelay_trace (s : State) : (afterDelay s).trace = s.trace := by rw [afterDelay]

@[simp] theorem afterDelay_slot (s : State) : (afterDelay s).slot = s.slot := by rw [afterDelay]

@[simp] theorem afterDelay_result (s : State) : (afterDelay s).result = s.result := by rw [afterDelay]

@[simp] theorem afterDelay_draws (s : State) : (afterDelay s).draws = s.draws := by rw [afterDelay]

/-! ### Derived values, which only `cur`, `base`, `len`, `data` and `hwAddr` decide -/

@[simp] theorem encHdr_rem (a : Addr) (s : State) : (encHdr a s).rem = s.rem := by simp [State.rem, State.off]

@[simp] theorem encHdr_rel (a : Addr) (s : State) : (encHdr a s).rel = s.rel := by simp [State.rel]

@[simp] theorem encHdr_endp (a : Addr) (s : State) : (encHdr a s).endp = s.endp := by simp [State.endp]

@[simp] theorem encHdr_klen (a : Addr) (s : State) :
    (encHdr a s).klen = s.klen := by
  simp [State.klen, State.toGo, State.endp]

@[simp] theorem encHdr_dev (a : Addr) (s : State) : (encHdr a s).dev = s.dev := by simp [State.dev]

@[simp] theorem encHdr_curAddr (a : Addr) (s : State) : (encHdr a s).curAddr = s.curAddr := by simp [State.curAddr]

@[simp] theorem encHdr_chunkTodo (a : Addr) (s : State) :
    (encHdr a s).chunkTodo = s.chunkTodo := by
  rw [State.chunkTodo, State.chunkTodo, decide_eq_decide, encHdr_cur, encHdr_endp]

@[simp] theorem encHdr_chunkData (a : Addr) (s : State) :
    (encHdr a s).chunkData = s.chunkData := by
  simp [State.chunkData, State.klen, State.toGo, State.endp, State.rel, State.dataAt]

@[simp] theorem loadPayload_rem (ds : List Byte) (s : State) :
    (loadPayload ds s).rem = s.rem := by
  simp [State.rem, State.off]

@[simp] theorem loadPayload_rel (ds : List Byte) (s : State) : (loadPayload ds s).rel = s.rel := by simp [State.rel]

@[simp] theorem loadPayload_endp (ds : List Byte) (s : State) :
    (loadPayload ds s).endp = s.endp := by
  simp [State.endp]

@[simp] theorem loadPayload_klen (ds : List Byte) (s : State) :
    (loadPayload ds s).klen = s.klen := by
  simp [State.klen, State.toGo, State.endp]

@[simp] theorem loadPayload_dev (ds : List Byte) (s : State) : (loadPayload ds s).dev = s.dev := by simp [State.dev]

@[simp] theorem loadPayload_curAddr (ds : List Byte) (s : State) :
    (loadPayload ds s).curAddr = s.curAddr := by
  simp [State.curAddr]

@[simp] theorem loadPayload_chunkTodo (ds : List Byte) (s : State) :
    (loadPayload ds s).chunkTodo = s.chunkTodo := by
  rw [State.chunkTodo, State.chunkTodo, decide_eq_decide, loadPayload_cur, loadPayload_endp]

@[simp] theorem loadPayload_chunkData (ds : List Byte) (s : State) :
    (loadPayload ds s).chunkData = s.chunkData := by
  simp [State.chunkData, State.klen, State.toGo, State.endp, State.rel, State.dataAt]

@[simp] theorem encodeChunk_rem (s : State) : (encodeChunk s).rem = s.rem := by simp [State.rem, State.off]

@[simp] theorem encodeChunk_rel (s : State) : (encodeChunk s).rel = s.rel := by simp [State.rel]

@[simp] theorem encodeChunk_endp (s : State) : (encodeChunk s).endp = s.endp := by simp [State.endp]

@[simp] theorem encodeChunk_klen (s : State) :
    (encodeChunk s).klen = s.klen := by
  simp [State.klen, State.toGo, State.endp]

@[simp] theorem encodeChunk_dev (s : State) : (encodeChunk s).dev = s.dev := by simp [State.dev]

@[simp] theorem encodeChunk_curAddr (s : State) : (encodeChunk s).curAddr = s.curAddr := by simp [State.curAddr]

@[simp] theorem encodeChunk_chunkTodo (s : State) :
    (encodeChunk s).chunkTodo = s.chunkTodo := by
  rw [State.chunkTodo, State.chunkTodo, decide_eq_decide, encodeChunk_cur, encodeChunk_endp]

@[simp] theorem encodeChunk_chunkData (s : State) :
    (encodeChunk s).chunkData = s.chunkData := by
  simp [State.chunkData, State.klen, State.toGo, State.endp, State.rel, State.dataAt]

@[simp] theorem respond_rem (r : Reply) (s : State) : (respond r s).rem = s.rem := by simp [State.rem, State.off]

@[simp] theorem respond_rel (r : Reply) (s : State) : (respond r s).rel = s.rel := by simp [State.rel]

@[simp] theorem respond_endp (r : Reply) (s : State) : (respond r s).endp = s.endp := by simp [State.endp]

@[simp] theorem respond_klen (r : Reply) (s : State) :
    (respond r s).klen = s.klen := by
  simp [State.klen, State.toGo, State.endp]

@[simp] theorem respond_dev (r : Reply) (s : State) : (respond r s).dev = s.dev := by simp [State.dev]

@[simp] theorem respond_curAddr (r : Reply) (s : State) :
    (respond r s).curAddr = s.curAddr := by
  simp [State.curAddr]

@[simp] theorem respond_chunkTodo (r : Reply) (s : State) :
    (respond r s).chunkTodo = s.chunkTodo := by
  rw [State.chunkTodo, State.chunkTodo, decide_eq_decide, respond_cur, respond_endp]

@[simp] theorem respond_chunkData (r : Reply) (s : State) :
    (respond r s).chunkData = s.chunkData := by
  simp [State.chunkData, State.klen, State.toGo, State.endp, State.rel, State.dataAt]

@[simp] theorem raiseTransportError_rem (e : Nat) (s : State) :
    (raiseTransportError e s).rem = s.rem := by
  simp [State.rem, State.off]

@[simp] theorem raiseTransportError_rel (e : Nat) (s : State) :
    (raiseTransportError e s).rel = s.rel := by
  simp [State.rel]

@[simp] theorem raiseTransportError_endp (e : Nat) (s : State) :
    (raiseTransportError e s).endp = s.endp := by
  simp [State.endp]

@[simp] theorem raiseTransportError_klen (e : Nat) (s : State) :
    (raiseTransportError e s).klen = s.klen := by
  simp [State.klen, State.toGo, State.endp]

@[simp] theorem raiseTransportError_dev (e : Nat) (s : State) :
    (raiseTransportError e s).dev = s.dev := by
  simp [State.dev]

@[simp] theorem raiseTransportError_curAddr (e : Nat) (s : State) :
    (raiseTransportError e s).curAddr = s.curAddr := by
  simp [State.curAddr]

@[simp] theorem raiseTransportError_chunkTodo (e : Nat) (s : State) :
    (raiseTransportError e s).chunkTodo = s.chunkTodo := by
  rw [State.chunkTodo, State.chunkTodo, decide_eq_decide, raiseTransportError_cur, raiseTransportError_endp]

@[simp] theorem raiseTransportError_chunkData (e : Nat) (s : State) :
    (raiseTransportError e s).chunkData = s.chunkData := by
  simp [State.chunkData, State.klen, State.toGo, State.endp, State.rel, State.dataAt]

@[simp] theorem toDelay_rem (e : Nat) (s : State) : (toDelay e s).rem = s.rem := by simp [State.rem, State.off]

@[simp] theorem toDelay_rel (e : Nat) (s : State) : (toDelay e s).rel = s.rel := by simp [State.rel]

@[simp] theorem toDelay_endp (e : Nat) (s : State) : (toDelay e s).endp = s.endp := by simp [State.endp]

@[simp] theorem toDelay_klen (e : Nat) (s : State) :
    (toDelay e s).klen = s.klen := by
  simp [State.klen, State.toGo, State.endp]

@[simp] theorem toDelay_dev (e : Nat) (s : State) : (toDelay e s).dev = s.dev := by simp [State.dev]

@[simp] theorem toDelay_curAddr (e : Nat) (s : State) : (toDelay e s).curAddr = s.curAddr := by simp [State.curAddr]

@[simp] theorem toDelay_chunkTodo (e : Nat) (s : State) :
    (toDelay e s).chunkTodo = s.chunkTodo := by
  rw [State.chunkTodo, State.chunkTodo, decide_eq_decide, toDelay_cur, toDelay_endp]

@[simp] theorem toDelay_chunkData (e : Nat) (s : State) :
    (toDelay e s).chunkData = s.chunkData := by
  simp [State.chunkData, State.klen, State.toGo, State.endp, State.rel, State.dataAt]

@[simp] theorem afterDelay_rem (s : State) : (afterDelay s).rem = s.rem := by simp [State.rem, State.off]

@[simp] theorem afterDelay_rel (s : State) : (afterDelay s).rel = s.rel := by simp [State.rel]

@[simp] theorem afterDelay_endp (s : State) : (afterDelay s).endp = s.endp := by simp [State.endp]

@[simp] theorem afterDelay_klen (s : State) :
    (afterDelay s).klen = s.klen := by
  simp [State.klen, State.toGo, State.endp]

@[simp] theorem afterDelay_dev (s : State) : (afterDelay s).dev = s.dev := by simp [State.dev]

@[simp] theorem afterDelay_curAddr (s : State) : (afterDelay s).curAddr = s.curAddr := by simp [State.curAddr]

@[simp] theorem afterDelay_chunkTodo (s : State) :
    (afterDelay s).chunkTodo = s.chunkTodo := by
  rw [State.chunkTodo, State.chunkTodo, decide_eq_decide, afterDelay_cur, afterDelay_endp]

@[simp] theorem afterDelay_chunkData (s : State) :
    (afterDelay s).chunkData = s.chunkData := by
  simp [State.chunkData, State.klen, State.toGo, State.endp, State.rel, State.dataAt]

/-! ### Derived values across a latch and a response -/

@[simp] theorem latchCommand_dev (o : Op) (a : Addr) (n : Nat) (s : State) :
    (latchCommand o a n s).dev = s.dev := by simp [State.dev]

@[simp] theorem latchCommand_dataAt (o : Op) (a : Addr) (n : Nat) (s : State) (i : Nat) :
    (latchCommand o a n s).dataAt i = s.dataAt i := by simp [State.dataAt]

@[simp] theorem latchCommand_bufAt (o : Op) (a : Addr) (n : Nat) (s : State) (i : Nat) :
    (latchCommand o a n s).bufAt i = s.bufAt i := by simp [State.bufAt]

@[simp] theorem respond_bufAt (r : Reply) (s : State) (i : Nat) : (respond r s).bufAt i = s.bufAt i := by
  simp [State.bufAt]

@[simp] theorem raiseTransportError_bufAt (e : Nat) (s : State) (i : Nat) :
    (raiseTransportError e s).bufAt i = s.bufAt i := by simp [State.bufAt]

end Sys2Proof.Machine
end

