-- ==== Sys2Proof/Laws/Memory.lean ====
section
/-! SUPPORT. The device's memory: reading after writing, and the canonical form kept by every operation. -/

namespace Sys2Proof.Machine.Memory

theorem read_of_all_lt (m : Memory) (a : Nat) (h : ∀ c ∈ m, a < c.1) : read m a = Config.unlistedDeviceByte := by
  induction m with
  | nil => rfl
  | cons c rest ih =>
    obtain ⟨k, v⟩ := c
    have hk : a < k := h (k, v) (by simp)
    rw [read, if_neg (by omega)]
    exact ih fun c hc => h c (by simp [hc])

theorem wf_cons {k : Nat} {v : Byte} {rest : Memory} :
    wf ((k, v) :: rest) = true ↔ v ≠ Config.unlistedDeviceByte ∧ (∀ c ∈ rest, k < c.1) ∧ wf rest = true := by
  simp [wf, and_assoc]

theorem mem_write {m : Memory} {a : Nat} {b : Byte} {c : Host.Cell} (h : c ∈ write m a b) : c ∈ m ∨ c = (a, b) := by
  induction m with
  | nil =>
    unfold write at h
    split at h
    · exact Or.inl h
    · exact Or.inr (by simpa using h)
  | cons d rest ih =>
    obtain ⟨k, v⟩ := d
    unfold write at h
    repeat' split at h
    all_goals simp only [List.mem_cons] at h ⊢
    · tauto
    · tauto
    · tauto
    · tauto
    · rcases h with h | h
      · tauto
      · rcases ih h with h | h <;> tauto

/-- Every write keeps the canonical form. -/
theorem write_wf {m : Memory} (h : wf m = true) (a : Nat) (b : Byte) : wf (write m a b) = true := by
  induction m with
  | nil =>
    unfold write
    split
    · rfl
    · exact wf_cons.2 ⟨by assumption, by simp, rfl⟩
  | cons c rest ih =>
    obtain ⟨k, v⟩ := c
    obtain ⟨hv, hlt, hr⟩ := wf_cons.1 h
    unfold write
    split
    · split
      · exact h
      · refine wf_cons.2 ⟨by assumption, ?_, h⟩
        intro c hc
        rcases List.mem_cons.1 hc with rfl | hc
        · assumption
        · have := hlt c hc
          omega
    · split
      · split
        · exact hr
        · subst_vars
          exact wf_cons.2 ⟨by assumption, hlt, hr⟩
      · refine wf_cons.2 ⟨hv, ?_, ih hr⟩
        intro c hc
        rcases mem_write hc with hc | rfl
        · exact hlt c hc
        · show k < a
          omega

/-- A byte written is read back. -/
theorem read_write_same {m : Memory} (h : wf m = true) (a : Nat) (b : Byte) : read (write m a b) a = b := by
  induction m with
  | nil =>
    unfold write
    split
    · simp_all [read]
    · simp [read]
  | cons c rest ih =>
    obtain ⟨k, v⟩ := c
    obtain ⟨hv, hlt, hr⟩ := wf_cons.1 h
    unfold write
    split
    · split
      · rename_i h1 h2
        rw [h2]
        refine read_of_all_lt _ _ fun c hc => ?_
        rcases List.mem_cons.1 hc with rfl | hc
        · assumption
        · have := hlt c hc
          omega
      · simp [read]
    · split
      · split
        · rename_i h1 h2 h3
          rw [h3]
          refine read_of_all_lt _ _ fun c hc => ?_
          have := hlt c hc
          omega
        · simp [read]
      · rw [read, if_neg (by omega)]
        exact ih hr

/-- A write leaves every other byte alone. -/
theorem read_write_other {m : Memory} (a a' : Nat) (b : Byte) (hne : a' ≠ a) : read (write m a b) a' = read m a' := by
  induction m with
  | nil =>
    unfold write
    split
    · rfl
    · simp [read, Ne.symm hne]
  | cons c rest ih =>
    obtain ⟨k, v⟩ := c
    unfold write
    split
    · split
      · rfl
      · rw [read, if_neg (Ne.symm hne)]
    · split
      · subst_vars
        split
        · rw [read, if_neg (Ne.symm hne)]
        · rw [read, read, if_neg (Ne.symm hne), if_neg (Ne.symm hne)]
      · simp only [read]
        split
        · rfl
        · exact ih

theorem write_bounded {m : Memory} {a : Nat} (h : bounded m = true) (ha : a < Config.capacity) (b : Byte) :
    bounded (write m a b) = true := by
  simp only [bounded, List.all_eq_true, decide_eq_true_eq] at h ⊢
  intro c hc
  rcases mem_write hc with hc | rfl
  · exact h c hc
  · exact ha

theorem writeBytes_wf {m : Memory} (h : wf m = true) (a : Nat) (bs : List Byte) : wf (writeBytes m a bs) = true := by
  induction bs generalizing m a with
  | nil => exact h
  | cons b rest ih => exact ih (write_wf h a b) (a + 1)

theorem writeBytes_bounded {m : Memory} (a : Nat) (bs : List Byte) (h : bounded m = true)
    (ha : a + bs.length ≤ Config.capacity) : bounded (writeBytes m a bs) = true := by
  induction bs generalizing m a with
  | nil => exact h
  | cons b rest ih =>
    simp only [List.length_cons] at ha
    exact ih (a + 1) (write_bounded h (by omega) b) (by omega)

theorem read_writeBytes_outside {m : Memory} (a : Nat) (bs : List Byte) (x : Nat) (hx : x < a ∨ a + bs.length ≤ x) :
    read (writeBytes m a bs) x = read m x := by
  induction bs generalizing m a with
  | nil => rfl
  | cons b rest ih =>
    simp only [List.length_cons] at hx
    rw [writeBytes, ih (a + 1) (by omega), read_write_other _ _ _ (by omega)]

theorem read_writeBytes_inside {m : Memory} (h : wf m = true) (a : Nat) (bs : List Byte) (j : Nat)
    (hj : j < bs.length) : read (writeBytes m a bs) (a + j) = bs[j] := by
  induction bs generalizing m a j with
  | nil => simp at hj
  | cons b rest ih =>
    cases j with
    | zero => rw [writeBytes, read_writeBytes_outside _ _ _ (by omega)]; exact read_write_same h a b
    | succ j =>
      have := ih (write_wf h a b) (a + 1) j (by simpa using hj)
      rw [writeBytes, show a + (j + 1) = a + 1 + j by omega, this]
      rfl

/-- Canonical memories that read alike everywhere are equal data. -/
theorem ext_of_wf {m1 m2 : Memory} (h1 : wf m1 = true) (h2 : wf m2 = true) (h : ∀ a, read m1 a = read m2 a) :
    m1 = m2 := by
  induction m1 generalizing m2 with
  | nil =>
    cases m2 with
    | nil => rfl
    | cons c rest =>
      obtain ⟨k, v⟩ := c
      have := h k
      simp only [read, if_true] at this
      exact absurd this.symm (wf_cons.1 h2).1
  | cons c1 rest1 ih =>
    obtain ⟨k1, v1⟩ := c1
    obtain ⟨hv1, hl1, hr1⟩ := wf_cons.1 h1
    cases m2 with
    | nil =>
      have := h k1
      simp only [read, if_true] at this
      exact absurd this hv1
    | cons c2 rest2 =>
      obtain ⟨k2, v2⟩ := c2
      obtain ⟨hv2, hl2, hr2⟩ := wf_cons.1 h2
      have hk : k1 = k2 := by
        rcases Nat.lt_trichotomy k1 k2 with hlt | heq | hgt
        · have := h k1
          rw [read_of_all_lt ((k2, v2) :: rest2) k1 (by
            intro c hc
            rcases List.mem_cons.1 hc with rfl | hc
            · exact hlt
            · have := hl2 c hc; omega)] at this
          simp only [read, if_true] at this
          exact absurd this hv1
        · exact heq
        · have := h k2
          rw [read_of_all_lt ((k1, v1) :: rest1) k2 (by
            intro c hc
            rcases List.mem_cons.1 hc with rfl | hc
            · exact hgt
            · have := hl1 c hc; omega)] at this
          simp only [read, if_true] at this
          exact absurd this.symm hv2
      subst hk
      have hv : v1 = v2 := by simpa [read] using h k1
      subst hv
      congr 1
      refine ih hr1 hr2 fun a => ?_
      by_cases ha : k1 = a
      · subst ha
        rw [read_of_all_lt rest1 k1 hl1, read_of_all_lt rest2 k1 hl2]
      · simpa [read, ha] using h a

end Sys2Proof.Machine.Memory
end

