-- ==== Sys2Proof/Laws/Scratch.lean ====
section
/-! SUPPORT. The scratch buffer: what a write leaves at each index, and the frame ENCODE builds. -/

namespace Sys2Proof.Machine

theorem putScratch_getElem (v : Vector Byte 34) (pos : Nat) (bs : List Byte) (i : Nat) (h : i < 34) :
    (putScratch v pos bs)[i] =
      if pos ≤ i ∧ i < pos + bs.length then bs.getD (i - pos) 0 else v[i] := by
  simp [putScratch]

theorem putScratch_inside {v : Vector Byte 34} {pos : Nat} {bs : List Byte} {j : Nat} (hj : j < bs.length)
    (h : pos + j < 34) : (putScratch v pos bs)[pos + j] = bs[j] := by
  rw [putScratch_getElem, if_pos ⟨by omega, by omega⟩]
  simp [hj]

theorem putScratch_outside {v : Vector Byte 34} {pos : Nat} {bs : List Byte} {i : Nat} (h : i < 34)
    (hi : i < pos ∨ pos + bs.length ≤ i) : (putScratch v pos bs)[i] = v[i] := by
  rw [putScratch_getElem, if_neg (by omega)]

@[simp] theorem headerBytes_length (a : Addr) : (headerBytes a).length = 2 := rfl

@[simp] theorem chunkData_length (s : State) : s.chunkData.length = s.klen := by simp [State.chunkData]

theorem chunkData_getElem (s : State) (i : Nat) (h : i < s.chunkData.length) :
    s.chunkData[i] = s.dataAt (s.rel + i) := by simp [State.chunkData]

/-- `scratch[0 .. n)` read element by element. -/
theorem scratchTo_getElem (s : State) (n i : Nat) (h : i < (s.scratchTo n).length) :
    (s.scratchTo n)[i] = s.scratch[i]'(by simp [State.scratchTo] at h; omega) := by
  simp [State.scratchTo]

theorem scratchTo_length (s : State) (n : Nat) (h : n ≤ 34) : (s.scratchTo n).length = n := by
  simp [State.scratchTo, h]

@[simp] theorem toDelay_scratchTo (e : Nat) (s : State) (n : Nat) : (toDelay e s).scratchTo n = s.scratchTo n := rfl

@[simp] theorem afterDelay_scratchTo (s : State) (n : Nat) : (afterDelay s).scratchTo n = s.scratchTo n := rfl

/-- The header written by ENC_HDR is `scratch[0 .. 2)`. -/
theorem take_putScratch_header (v : Vector Byte 34) (a : Addr) :
    (putScratch v 0 (headerBytes a)).toList.take 2 = headerBytes a := by
  refine List.ext_getElem (by simp) fun i h1 h2 => ?_
  have hi : i < 34 := by simp at h2; omega
  rw [List.getElem_take, Vector.getElem_toList, putScratch_getElem _ _ _ _ hi, if_pos ⟨by omega, by omega⟩,
    Nat.sub_zero, ← List.getElem_eq_getD]

/-- The frame ENC_HDR and LOAD_PAYLOAD write is `scratch[0 .. 2 + k)` (40_address_encoder.md R114). -/
theorem take_putScratch_frame (v : Vector Byte 34) (a : Addr) (ds : List Byte) (h : ds.length ≤ 32) :
    (putScratch (putScratch v 0 (headerBytes a)) 2 ds).toList.take (2 + ds.length) = headerBytes a ++ ds := by
  refine List.ext_getElem (by simp; omega) fun i h1 h2 => ?_
  have hi : i < 34 := by simp at h2; omega
  rw [List.getElem_take, Vector.getElem_toList]
  by_cases hlt : i < 2
  · rw [putScratch_outside hi (Or.inl hlt), List.getElem_append_left (by simpa using hlt),
      putScratch_getElem _ _ _ _ hi, if_pos ⟨by omega, by simpa using hlt⟩, Nat.sub_zero, ← List.getElem_eq_getD]
  · have hj : i - 2 < ds.length := by simp at h2; omega
    rw [List.getElem_append_right (by simp only [headerBytes_length]; omega), putScratch_getElem _ _ _ _ hi,
      if_pos ⟨by omega, by omega⟩]
    simp only [headerBytes_length]
    rw [← List.getElem_eq_getD]

theorem klen_le (s : State) : s.klen ≤ 32 := by
  unfold State.klen nextChunkLen Config.pageSize
  omega

theorem encodeChunk_scratch_write {s : State} (h : s.op = .write) :
    (encodeChunk s).scratch = putScratch (putScratch s.scratch 0 (headerBytes s.curAddr)) 2 s.chunkData := by
  simp [encodeChunk, h, Config.hdrLen]

theorem encodeChunk_scratch_read {s : State} (h : s.op = .read) :
    (encodeChunk s).scratch = putScratch s.scratch 0 (headerBytes s.curAddr) := by
  simp [encodeChunk, h]

theorem encodeChunk_wdataReqs_write {s : State} (h : s.op = .write) :
    (encodeChunk s).wdataReqs = s.wdataReqs ++ (List.range s.klen).map (s.rel + ·) := by
  simp [encodeChunk, h]

theorem encodeChunk_wdataReqs_read {s : State} (h : s.op = .read) : (encodeChunk s).wdataReqs = s.wdataReqs := by
  simp [encodeChunk, h]

/-- After ENCODE the header stands in `scratch[0 .. 2)` (10_state.md R34 (e)). -/
theorem encodeChunk_header (s : State) : (encodeChunk s).scratchTo 2 = headerBytes s.curAddr := by
  cases h : s.op with
  | read => simpa [State.scratchTo, encodeChunk_scratch_read h] using take_putScratch_header s.scratch s.curAddr
  | write =>
    have := congrArg (List.take 2) (take_putScratch_frame s.scratch s.curAddr s.chunkData (by simpa using klen_le s))
    rw [List.take_take, Nat.min_eq_left (by omega), List.take_left' (headerBytes_length _)] at this
    simpa only [State.scratchTo, encodeChunk_scratch_write h] using this

/-- After ENCODE of a write the frame stands in `scratch[0 .. 2 + klen)` (10_state.md R34 (e)). -/
theorem encodeChunk_frame {s : State} (h : s.op = .write) :
    (encodeChunk s).scratchTo (2 + s.klen) = headerBytes s.curAddr ++ s.chunkData := by
  simpa [State.scratchTo, encodeChunk_scratch_write h] using
    take_putScratch_frame s.scratch s.curAddr s.chunkData (by simpa using klen_le s)

end Sys2Proof.Machine
end

