-- ==== Sys2Proof/Laws/Perform.lean ====
section
/-! SUPPORT. What one transport request can do: the answer, and which fields of the state it touches. -/

namespace Sys2Proof.Machine

/-! ## The transport -/

/-- The memory of the device stays canonical and inside the device, whatever is requested. -/
theorem device_serve_memory {d d1 : Device} {q : Request} {a : Answer} (h : d.serve q = .answered a d1)
    (hw : d.mem.wf = true ∧ d.mem.bounded = true) : d1.mem.wf = true ∧ d1.mem.bounded = true := by
  have ht : d.tick.mem = d.mem := by unfold Device.tick; split <;> rfl
  rw [← ht] at hw
  cases q with
  | sleep u =>
    simp only [Device.serve, Served.answered.injEq] at h
    exact h.2 ▸ hw
  | writeRead dv sent k dst =>
    simp only [Device.serve, Device.writeRead] at h
    repeat' split at h
    all_goals first
      | (simp only [Served.answered.injEq] at h; exact h.2 ▸ hw)
      | (exact absurd h (by simp))
  | write dv bytes =>
    simp only [Device.serve, Device.write] at h
    split at h
    · simp only [Served.answered.injEq] at h; exact h.2 ▸ hw
    split at h
    · simp only [Served.answered.injEq] at h; exact h.2 ▸ hw
    split at h
    · split at h
      · exact absurd h (by simp)
      · rename_i hc
        simp only [Served.answered.injEq] at h
        rw [← h.2]
        exact ⟨Memory.writeBytes_wf hw.1 _ _, Memory.writeBytes_bounded _ _ hw.2 (by omega)⟩
    · exact absurd h (by simp)

/-- Nothing a request does changes who answers, or the device's strap. -/
theorem serve_keeps {t t1 : Transport} {q : Request} {a : Answer} (h : t.serve q = .answered a t1) :
    t1.responder = t.responder ∧ t1.device.strap = t.device.strap := by
  unfold Transport.serve at h
  split at h
  · split at h
    · exact absurd h (by simp)
    · simp only [Served.answered.injEq] at h
      rw [← h.2]
      exact ⟨rfl, rfl⟩
  · rename_i hr
    split at h
    · exact absurd h (by simp)
    · exact absurd h (by simp)
    · rename_i a' d hd
      simp only [Served.answered.injEq] at h
      rw [← h.2]
      refine ⟨rfl, ?_⟩
      have ht : t.device.tick.strap = t.device.strap := by unfold Device.tick; split <;> rfl
      rw [← ht]
      cases q with
      | sleep u => simp only [Device.serve, Served.answered.injEq] at hd; rw [← hd.2]
      | writeRead dv sent k dst =>
        simp only [Device.serve, Device.writeRead] at hd
        repeat' split at hd
        all_goals first
          | (simp only [Served.answered.injEq] at hd; rw [← hd.2])
          | (exact absurd hd (by simp))
      | write dv bytes =>
        simp only [Device.serve, Device.write] at hd
        repeat' split at hd
        all_goals first
          | (simp only [Served.answered.injEq] at hd; rw [← hd.2])
          | (exact absurd hd (by simp))

/-- The memory stays canonical through the transport. -/
theorem serve_memory {t t1 : Transport} {q : Request} {a : Answer} (h : t.serve q = .answered a t1)
    (hw : t.device.mem.wf = true ∧ t.device.mem.bounded = true) :
    t1.device.mem.wf = true ∧ t1.device.mem.bounded = true := by
  unfold Transport.serve at h
  split at h
  · split at h
    · exact absurd h (by simp)
    · simp only [Served.answered.injEq] at h
      rw [← h.2]
      exact hw
  · split at h
    · exact absurd h (by simp)
    · exact absurd h (by simp)
    · rename_i hd
      simp only [Served.answered.injEq] at h
      rw [← h.2]
      exact device_serve_memory hd hw

/-- The listed answers never leave a request without a meaning (20_memory.md R59). -/
theorem serve_answers_meaning {t : Transport} (h : t.responder = .answers) (q : Request) :
    t.serve q ≠ .noMeaning := by
  unfold Transport.serve
  rw [h]
  cases t.answers <;> simp

/-- The reference device never withholds its answer (20_memory.md R70). -/
theorem serve_device_live {t : Transport} (h : t.responder = .device) (q : Request) : t.serve q ≠ .withheld := by
  unfold Transport.serve
  rw [h]
  have hd : t.device.serve q ≠ .withheld := by
    cases q with
    | sleep u => simp [Device.serve]
    | writeRead dv sent k dst =>
      simp only [Device.serve, Device.writeRead]
      repeat' split
      all_goals simp
    | write dv bytes =>
      simp only [Device.serve, Device.write]
      repeat' split
      all_goals simp
  cases hs : t.device.serve q <;> simp_all

/-- A sleep is always given a meaning. -/
theorem serve_sleep_meaning (t : Transport) (u : Nat) : t.serve (.sleep u) ≠ .noMeaning := by
  unfold Transport.serve
  cases t.responder <;> cases t.answers <;> simp [Device.serve]

/-! ## One request -/

theorem portErr_lt (p : Params) (e : Nat) : portErr p e < 2 ^ p.errW := Nat.mod_lt _ (Nat.two_pow_pos _)

theorem portLen_lt (p : Params) (n : Nat) : portLen p n < 2 ^ p.lenW := Nat.mod_lt _ (Nat.two_pow_pos _)

/-- The reply an answer gives: the error value comes over a port of `ERR_W` bits. -/
def replyOf (p : Params) : Answer → Reply
  | .ok _ => .ok
  | .err e => .err (portErr p e)

/-- TR_WRITE: the answer decides the reply, and only `transport` and `trace` change. -/
theorem performWrite_answered {s : State} {a : Answer} {t : Transport}
    (h : s.transport.serve (writeRequest s) = .answered a t) :
    performWrite s = .replied (replyOf s.params a)
      { s with
        transport := t
        trace := s.trace ++ [.write s.dev (s.scratchTo (2 + s.klen)) (replyOf s.params a)] } := by
  unfold performWrite
  rw [h]
  cases a <;> rfl

/-- What TR_WRITE_READ delivers into the buffer: the bytes received, or unspecified ones. -/
def burst (s : State) : Answer → List Byte
  | .ok bytes => received s.draws s.klen bytes
  | .err _ => received s.draws s.klen []

/-- The answer as the trace records it. -/
def recorded (s : State) : Answer → Answer
  | .ok bytes => .ok (received s.draws s.klen bytes)
  | .err e => .err (portErr s.params e)

/-- TR_WRITE_READ: only `transport`, `buf`, `draws` and `trace` change. -/
theorem performWriteRead_answered {s : State} {a : Answer} {t : Transport}
    (h : s.transport.serve (readRequest s) = .answered a t) :
    performWriteRead s = .replied (replyOf s.params a)
      { s with
        transport := t
        buf := storeBuf s.buf s.rel (burst s a)
        draws := s.draws + s.klen
        trace := s.trace ++ [.writeRead s.dev (s.scratchTo 2) s.klen (recorded s a)] } := by
  unfold performWriteRead
  rw [h]
  cases a <;> rfl

/-- TR_SLEEP: only `transport` and `trace` change, and it cannot fail. -/
theorem performSleep_answered {s : State} {a : Answer} {t : Transport}
    (h : s.transport.serve sleepRequest = .answered a t) :
    performSleep s = .replied .ok { s with transport := t, trace := s.trace ++ [.sleep 1] } := by
  unfold performSleep
  rw [h]
  rfl

theorem performWrite_cases (s : State) :
    (s.transport.serve (writeRequest s) = .withheld ∧ performWrite s = .withheld) ∨
    (s.transport.serve (writeRequest s) = .noMeaning ∧ performWrite s = .noMeaning) ∨
    ∃ a t, s.transport.serve (writeRequest s) = .answered a t := by
  unfold performWrite
  cases h : s.transport.serve (writeRequest s) <;> simp

theorem performWriteRead_cases (s : State) :
    (s.transport.serve (readRequest s) = .withheld ∧ performWriteRead s = .withheld) ∨
    (s.transport.serve (readRequest s) = .noMeaning ∧ performWriteRead s = .noMeaning) ∨
    ∃ a t, s.transport.serve (readRequest s) = .answered a t := by
  unfold performWriteRead
  cases h : s.transport.serve (readRequest s) <;> simp

theorem performSleep_cases (s : State) :
    (s.transport.serve sleepRequest = .withheld ∧ performSleep s = .withheld) ∨
    ∃ a t, s.transport.serve sleepRequest = .answered a t := by
  unfold performSleep
  cases h : s.transport.serve sleepRequest with
  | withheld => simp
  | noMeaning => exact absurd h (serve_sleep_meaning _ _)
  | answered a t => simp

/-! ## The reply in ATTEMPT and in DELAY -/

/-- The request an attempt presents (30_encoding.md R86). -/
def attemptRequest (s : State) : Request :=
  match s.op with
  | .write => writeRequest s
  | .read => readRequest s

/-- The event an attempt records. -/
def attemptEvent (s : State) (a : Answer) : Event :=
  match s.op with
  | .write => .write s.dev (s.scratchTo (2 + s.klen)) (replyOf s.params a)
  | .read => .writeRead s.dev (s.scratchTo 2) s.klen (recorded s a)

/-- The state after an attempt is answered. -/
def afterAnswer (s : State) (a : Answer) (t : Transport) : State :=
  match s.op with
  | .write => { s with transport := t, trace := s.trace ++ [attemptEvent s a] }
  | .read =>
    { s with
      transport := t
      buf := storeBuf s.buf s.rel (burst s a)
      draws := s.draws + s.klen
      trace := s.trace ++ [attemptEvent s a] }

/-- Everything `attemptReply` can do. -/
theorem attemptReply_cases (s : State) :
    (∃ r, s.reply = some r ∧ attemptReply s = .replied r { s with reply := none }) ∨
    (s.reply = none ∧ s.transport.serve (attemptRequest s) = .withheld ∧ attemptReply s = .withheld) ∨
    (s.reply = none ∧ s.transport.serve (attemptRequest s) = .noMeaning ∧ attemptReply s = .noMeaning) ∨
    (∃ a t, s.reply = none ∧ s.transport.serve (attemptRequest s) = .answered a t ∧
      attemptReply s = .replied (replyOf s.params a) (afterAnswer s a t)) := by
  cases hr : s.reply with
  | some r => exact Or.inl ⟨r, rfl, by simp [attemptReply, hr]⟩
  | none =>
    refine Or.inr ?_
    cases ho : s.op with
    | write =>
      have e : attemptReply s = performWrite s := by simp [attemptReply, hr, ho]
      have q : attemptRequest s = writeRequest s := by simp [attemptRequest, ho]
      rw [e, q]
      rcases performWrite_cases s with h | h | ⟨a, t, h⟩
      · exact Or.inl ⟨rfl, h⟩
      · exact Or.inr (Or.inl ⟨rfl, h⟩)
      · exact Or.inr (Or.inr ⟨a, t, rfl, h, by
          rw [performWrite_answered h]; simp only [afterAnswer, attemptEvent, ho]⟩)
    | read =>
      have e : attemptReply s = performWriteRead s := by simp [attemptReply, hr, ho]
      have q : attemptRequest s = readRequest s := by simp [attemptRequest, ho]
      rw [e, q]
      rcases performWriteRead_cases s with h | h | ⟨a, t, h⟩
      · exact Or.inl ⟨rfl, h⟩
      · exact Or.inr (Or.inl ⟨rfl, h⟩)
      · exact Or.inr (Or.inr ⟨a, t, rfl, h, by
          rw [performWriteRead_answered h]; simp only [afterAnswer, attemptEvent, ho]⟩)

/-- An attempt whose request is answered. -/
theorem attemptReply_answered {s : State} {a : Answer} {t : Transport} (hr : s.reply = none)
    (h : s.transport.serve (attemptRequest s) = .answered a t) :
    attemptReply s = .replied (replyOf s.params a) (afterAnswer s a t) := by
  rcases attemptReply_cases s with ⟨r, h1, _⟩ | ⟨_, h1, _⟩ | ⟨_, h1, _⟩ | ⟨a', t', _, h1, h2⟩
  · simp [hr] at h1
  · simp [h] at h1
  · simp [h] at h1
  · rw [h] at h1
    simp only [Served.answered.injEq] at h1
    rw [h1.1, h1.2, h2]

theorem attemptRequest_write {s : State} (ho : s.op = .write) : attemptRequest s = writeRequest s := by
  simp [attemptRequest, ho]

theorem attemptRequest_read {s : State} (ho : s.op = .read) : attemptRequest s = readRequest s := by
  simp [attemptRequest, ho]

/-- The state after a write attempt is answered. -/
theorem afterAnswer_write {s : State} (ho : s.op = .write) (a : Answer) (t : Transport) :
    afterAnswer s a t =
      { s with
        transport := t
        trace := s.trace ++ [.write s.dev (s.scratchTo (2 + s.klen)) (replyOf s.params a)] } := by
  simp only [afterAnswer, attemptEvent, ho]

/-- The state after a read attempt is answered. -/
theorem afterAnswer_read {s : State} (ho : s.op = .read) (a : Answer) (t : Transport) :
    afterAnswer s a t =
      { s with
        transport := t
        buf := storeBuf s.buf s.rel (burst s a)
        draws := s.draws + s.klen
        trace := s.trace ++ [.writeRead s.dev (s.scratchTo 2) s.klen (recorded s a)] } := by
  simp only [afterAnswer, attemptEvent, ho]

/-- Everything `sleepReply` can do. -/
theorem sleepReply_cases (s : State) :
    (∃ r, s.reply = some r ∧ sleepReply s = .replied r { s with reply := none }) ∨
    (s.reply = none ∧ s.transport.serve sleepRequest = .withheld ∧ sleepReply s = .withheld) ∨
    (∃ a t, s.reply = none ∧ s.transport.serve sleepRequest = .answered a t ∧
      sleepReply s = .replied .ok { s with transport := t, trace := s.trace ++ [.sleep 1] }) := by
  cases hr : s.reply with
  | some r => exact Or.inl ⟨r, rfl, by simp [sleepReply, hr]⟩
  | none =>
    refine Or.inr ?_
    have e : sleepReply s = performSleep s := by simp [sleepReply, hr]
    rw [e]
    rcases performSleep_cases s with h | ⟨a, t, h⟩
    · exact Or.inl ⟨rfl, h⟩
    · exact Or.inr ⟨a, t, rfl, h, by rw [performSleep_answered h, hr]⟩

/-- What an attempt or a sleep may change: the transport, the host's buffer, the trace, the pending reply and the draw
counter, and nothing else. -/
structure SameRegisters (s s1 : State) : Prop where
  params : s1.params = s.params
  hwAddr : s1.hwAddr = s.hwAddr
  scratch : s1.scratch = s.scratch
  fsm : s1.fsm = s.fsm
  op : s1.op = s.op
  base : s1.base = s.base
  len : s1.len = s.len
  cur : s1.cur = s.cur
  retries : s1.retries = s.retries
  err : s1.err = s.err
  cmds : s1.cmds = s.cmds
  rsp : s1.rsp = s.rsp
  wdataReqs : s1.wdataReqs = s.wdataReqs
  data : s1.data = s.data
  slot : s1.slot = s.slot
  result : s1.result = s.result
  reply : s1.reply = none

theorem afterAnswer_same {s : State} (hr : s.reply = none) (a : Answer) (t : Transport) :
    SameRegisters s (afterAnswer s a t) := by
  unfold afterAnswer
  split <;> exact ⟨rfl, rfl, rfl, rfl, rfl, rfl, rfl, rfl, rfl, rfl, rfl, rfl, rfl, rfl, rfl, rfl, hr⟩

@[simp] theorem afterAnswer_transport (s : State) (a : Answer) (t : Transport) :
    (afterAnswer s a t).transport = t := by
  unfold afterAnswer; split <;> rfl

@[simp] theorem afterAnswer_trace (s : State) (a : Answer) (t : Transport) :
    (afterAnswer s a t).trace = s.trace ++ [attemptEvent s a] := by
  unfold afterAnswer; split <;> rfl

theorem attemptReply_same {s s1 : State} {r : Reply} (h : attemptReply s = .replied r s1) : SameRegisters s s1 := by
  rcases attemptReply_cases s with ⟨r', _, h'⟩ | ⟨_, _, h'⟩ | ⟨_, _, h'⟩ | ⟨a, t, hr, _, h'⟩ <;>
    rw [h'] at h <;> simp only [Performed.replied.injEq, reduceCtorEq] at h
  · rw [← h.2]
    exact ⟨rfl, rfl, rfl, rfl, rfl, rfl, rfl, rfl, rfl, rfl, rfl, rfl, rfl, rfl, rfl, rfl, rfl⟩
  · rw [← h.2]
    exact afterAnswer_same hr a t

theorem sleepReply_same {s s1 : State} {r : Reply} (h : sleepReply s = .replied r s1) : SameRegisters s s1 := by
  rcases sleepReply_cases s with ⟨r', _, h'⟩ | ⟨_, _, h'⟩ | ⟨a, t, hr, _, h'⟩ <;>
    rw [h'] at h <;> simp only [Performed.replied.injEq, reduceCtorEq] at h
  · rw [← h.2]
    exact ⟨rfl, rfl, rfl, rfl, rfl, rfl, rfl, rfl, rfl, rfl, rfl, rfl, rfl, rfl, rfl, rfl, rfl⟩
  · rw [← h.2]
    exact ⟨rfl, rfl, rfl, rfl, rfl, rfl, rfl, rfl, rfl, rfl, rfl, rfl, rfl, rfl, rfl, rfl, hr⟩

/-- Derived values survive an attempt. -/
theorem SameRegisters.rem {s s1 : State} (h : SameRegisters s s1) : s1.rem = s.rem := by
  simp [State.rem, State.off, h.cur]

theorem SameRegisters.rel {s s1 : State} (h : SameRegisters s s1) : s1.rel = s.rel := by
  simp [State.rel, h.cur, h.base]

theorem SameRegisters.endp {s s1 : State} (h : SameRegisters s s1) : s1.endp = s.endp := by
  simp [State.endp, h.base, h.len]

theorem SameRegisters.klen {s s1 : State} (h : SameRegisters s s1) : s1.klen = s.klen := by
  simp [State.klen, State.toGo, h.cur, h.endp]

theorem SameRegisters.dev {s s1 : State} (h : SameRegisters s s1) : s1.dev = s.dev := by simp [State.dev, h.hwAddr]

theorem SameRegisters.curAddr {s s1 : State} (h : SameRegisters s s1) : s1.curAddr = s.curAddr := by
  simp [State.curAddr, h.cur]

theorem SameRegisters.dataAt {s s1 : State} (h : SameRegisters s s1) (i : Nat) : s1.dataAt i = s.dataAt i := by
  simp [State.dataAt, h.data]

theorem SameRegisters.chunkData {s s1 : State} (h : SameRegisters s s1) : s1.chunkData = s.chunkData := by
  simp [State.chunkData, h.klen, h.rel, h.dataAt]

theorem SameRegisters.scratchTo {s s1 : State} (h : SameRegisters s s1) (n : Nat) : s1.scratchTo n = s.scratchTo n := by
  simp [State.scratchTo, h.scratch]

end Sys2Proof.Machine
end

