-- ==== Sys2Proof/Laws/Buffer.lean ====
section
/-! SUPPORT. The host's read buffer: what a burst leaves at each index (spec/20_memory.md R57). -/

namespace Sys2Proof.Machine

theorem storeBuf_inside (buf : List Byte) (dst : Nat) (bs : List Byte) (j : Nat) (h : j < bs.length) (d : Byte) :
    (storeBuf buf dst bs).getD (dst + j) d = bs[j] := by
  simp only [storeBuf, List.append_assoc, List.getD_eq_getElem?_getD]
  rw [List.getElem?_append_right (by simp)]
  simp only [List.length_map, List.length_range, Nat.add_sub_cancel_left]
  rw [List.getElem?_append_left h]
  simp [h]

theorem storeBuf_outside (buf : List Byte) (dst : Nat) (bs : List Byte) (i : Nat) (h : i < dst ∨ dst + bs.length ≤ i) :
    (storeBuf buf dst bs).getD i (Config.hostBuf i) = buf.getD i (Config.hostBuf i) := by
  simp only [storeBuf, List.append_assoc, List.getD_eq_getElem?_getD]
  rcases h with h | h
  · rw [List.getElem?_append_left (by simpa using h)]
    simp [h]
  · rw [List.getElem?_append_right (by simp; omega), List.getElem?_append_right (by simp; omega)]
    simp only [List.length_map, List.length_range, List.getElem?_drop]
    rw [show dst + bs.length + (i - dst - bs.length) = i by omega]

@[simp] theorem received_length (d k : Nat) (bs : List Byte) : (received d k bs).length = k := by simp [received]

theorem received_of_le (d k : Nat) (bs : List Byte) (h : k ≤ bs.length) : received d k bs = bs.take k := by
  refine List.ext_getElem (by simp; omega) fun i h1 h2 => ?_
  simp at h1
  simp [received, show i < bs.length by omega]

theorem received_eq (d : Nat) (bs : List Byte) : received d bs.length bs = bs := by
  rw [received_of_le _ _ _ (le_refl _), List.take_length]

theorem bufSlice_storeBuf {s t : State} {dst : Nat} {bs : List Byte} (h : t.buf = storeBuf s.buf dst bs) :
    t.bufSlice dst bs.length = bs := by
  refine List.ext_getElem (by simp [State.bufSlice]) fun i h1 h2 => ?_
  rw [← storeBuf_inside s.buf dst bs i h2 (Config.hostBuf (dst + i))]
  simp only [State.bufSlice, State.bufAt, h, List.getElem_map, List.getElem_range]

theorem bufAt_storeBuf_outside {s t : State} {dst : Nat} {bs : List Byte} (h : t.buf = storeBuf s.buf dst bs) {i : Nat}
    (hi : i < dst ∨ dst + bs.length ≤ i) : t.bufAt i = s.bufAt i := by
  simp only [State.bufAt, h]
  exact storeBuf_outside _ _ _ _ hi

theorem getElem_bufSlice (s : State) (i k j : Nat) (h : j < (s.bufSlice i k).length) :
    (s.bufSlice i k)[j] = s.bufAt (i + j) := by simp [State.bufSlice]

@[simp] theorem bufSlice_length (s : State) (i k : Nat) : (s.bufSlice i k).length = k := by simp [State.bufSlice]

@[simp] theorem dataSlice_length (s : State) (i k : Nat) : (s.dataSlice i k).length = k := by simp [State.dataSlice]

/-- A slice is cut anywhere. -/
theorem bufSlice_append (s : State) (i k m : Nat) : s.bufSlice i k ++ s.bufSlice (i + k) m = s.bufSlice i (k + m) := by
  simp only [State.bufSlice, List.range_add, List.map_append, List.map_map]
  congr 1
  exact List.map_congr_left fun j _ => by simp [Nat.add_assoc]

theorem bufSlice_congr {s t : State} {i k : Nat} (h : ∀ j, j < k → t.bufAt (i + j) = s.bufAt (i + j)) :
    t.bufSlice i k = s.bufSlice i k :=
  List.map_congr_left fun j hj => h j (by simpa using hj)

end Sys2Proof.Machine
end

