-- ==== Sys2Proof/Laws/Chunk.lean ====
section
/-! SUPPORT. The chunk arithmetic (spec/43_paginated_write.md R152 to R156): the chunk at a cursor, the next cursor, and the
closed form of the chunk sequence. -/

namespace Sys2Proof.Machine

theorem nextChunkLen_le_rem (c m : Nat) : nextChunkLen c m ≤ 32 - c % 32 := by
  unfold nextChunkLen Config.pageSize; omega

theorem nextChunkLen_le_toGo (c m : Nat) : nextChunkLen c m ≤ m := by
  unfold nextChunkLen; omega

theorem nextChunkLen_pos {c m : Nat} (h : 1 ≤ m) : 1 ≤ nextChunkLen c m := by
  unfold nextChunkLen Config.pageSize; omega

theorem klen_pos {s : State} (h : s.cur < s.endp) : 1 ≤ s.klen :=
  nextChunkLen_pos (by unfold State.toGo; omega)

theorem rem_eq (s : State) : s.rem = 32 - s.cur % 32 := rfl

theorem klen_le_rem (s : State) : s.klen ≤ s.rem := nextChunkLen_le_rem _ _

theorem rem_pos (s : State) : 1 ≤ s.rem := by rw [rem_eq]; omega

theorem rem_le (s : State) : s.rem ≤ 32 := by rw [rem_eq]; omega

theorem chunkTodo_iff {s : State} : s.chunkTodo = true ↔ s.cur < s.endp := by simp [State.chunkTodo]

theorem chunkTodo_false_iff {s : State} : s.chunkTodo = false ↔ s.endp ≤ s.cur := by simp [State.chunkTodo]

/-- `klen = cend - rel = min(rem, len - rel)` (10_state.md R26). -/
theorem klen_eq_cend_sub_rel {s : State} (h1 : s.base.toNat ≤ s.cur) (h2 : s.cur < s.endp) :
    s.klen = s.cend - s.rel ∧ s.klen = min s.rem (s.len - s.rel) := by
  unfold State.klen nextChunkLen State.toGo State.cend State.rel State.rem State.off State.endp Config.pageSize at *
  omega

/-- The next cursor is the next page boundary (43_paginated_write.md R155). -/
theorem advance_cur_eq (s : State) : (advance s).cur = 32 * (s.cur / 32 + 1) := by
  rw [advance_cur, rem_eq]; omega

theorem chunkStart_zero (a : Nat) : chunkStart a 0 = a := rfl

theorem chunkStart_succ (a j : Nat) :
    chunkStart a j + (32 - chunkStart a j % 32) = chunkStart a (j + 1) := by
  unfold chunkStart
  split <;> simp <;> omega

theorem le_chunkStart (a j : Nat) : a ≤ chunkStart a j := by
  unfold chunkStart
  split <;> omega

/-- Chunk `j` exists exactly for `j < N`. -/
theorem chunkStart_lt_iff (a n j : Nat) : chunkStart a j < a + n ↔ j < chunkCount a n := by
  unfold chunkStart chunkCount
  split <;> split <;> omega

/-- The length of chunk `j` is NEXT_CHUNK at its start. -/
theorem nextChunkLen_chunkStart (a n j : Nat) :
    nextChunkLen (chunkStart a j) (a + n - chunkStart a j) = chunkLength a n j := by
  unfold nextChunkLen chunkLength Config.pageSize chunkStart
  split <;> omega

/-- Chunks are adjacent while the next one exists (43_paginated_write.md R156). -/
theorem chunkStart_add_length {a n j : Nat} (h : j + 1 < chunkCount a n) :
    chunkStart a j + chunkLength a n j = chunkStart a (j + 1) := by
  unfold chunkCount at h
  unfold chunkStart chunkLength chunkStart
  split at h
  · omega
  · split <;> simp <;> omega

/-- The last chunk ends at the end of the command (43_paginated_write.md R156). -/
theorem chunkStart_add_length_last {a n j : Nat} (h : j + 1 = chunkCount a n) :
    chunkStart a j + chunkLength a n j = a + n := by
  unfold chunkCount at h
  unfold chunkStart chunkLength chunkStart
  split at h
  · omega
  · split <;> omega

/-- The block stands at chunk `j` of the command `(a, n)`. -/
structure AtChunk (s : State) (a n j : Nat) : Prop where
  base : s.base.toNat = a
  len : s.len = n
  cur : s.cur = chunkStart a j

theorem AtChunk.endp {s : State} {a n j : Nat} (h : AtChunk s a n j) : s.endp = a + n := by
  simp [State.endp, h.base, h.len]

theorem AtChunk.todo {s : State} {a n j : Nat} (h : AtChunk s a n j) : s.chunkTodo = true ↔ j < chunkCount a n := by
  rw [chunkTodo_iff, h.endp, h.cur, chunkStart_lt_iff]

theorem AtChunk.klen {s : State} {a n j : Nat} (h : AtChunk s a n j) : s.klen = chunkLength a n j := by
  rw [← nextChunkLen_chunkStart, State.klen, State.toGo, h.endp, h.cur]

theorem AtChunk.rel {s : State} {a n j : Nat} (h : AtChunk s a n j) : s.rel = chunkStart a j - a := by
  rw [State.rel, h.cur, h.base]

theorem AtChunk.advance {s : State} {a n j : Nat} (h : AtChunk s a n j) :
    AtChunk (Machine.advance s) a n (j + 1) where
  base := h.base
  len := h.len
  cur := by rw [advance_cur, rem_eq, h.cur, chunkStart_succ]

/-- The frame of the chunk at the cursor is `F_j` (43_paginated_write.md R159). -/
theorem AtChunk.frame {s : State} {a n j : Nat} (h : AtChunk s a n j) :
    headerBytes s.curAddr ++ s.chunkData = chunkFrame s a n j := by
  unfold chunkFrame State.curAddr State.chunkData State.dataSlice
  rw [h.cur, h.rel, h.klen]

end Sys2Proof.Machine
end

