-- ==== Sys2Proof/Laws/Step.lean ====
section
/-! SUPPORT. What one step is: the sequencer's selector decodes to the step it was made for, and in each state the step
is one operation, a wait, or a stop. -/

namespace Sys2Proof.Machine

/-- The selector of a sequencer step decodes as the table's row. -/
theorem decode_encodeSeq (f : Fsm) (o : Op) (t : Nat) (ht : t < 256) :
    decode .seq (encodeSeq f o t) = stepRow f o t := by
  have e : (BitVec.ofNat 8 t).toNat = t := by simp; omega
  cases f <;> cases o <;> simp [decode, decodeSeq, encodeSeq, selectorByte, Fsm.code, Op.bit, Fsm.ofCode, Op.ofBit, e]

theorem slot_none_eta {s : State} (h : s.slot = none) : { s with slot := none } = s := by
  cases s; simp_all

theorem step_of_fetch_word {s : State} {f : Format} {bs : List Byte} {i : Instr} (hf : fetch s = .word f bs)
    (hd : decode f bs = .ok i) (hb : blocks i s = false) : step s = exec i { s with slot := none } := by
  simp [step, hf, hd, hb]

theorem step_of_sequencer {s : State} {o : Op} {f : Fsm} {t : Nat} {i : Instr} (hs : s.slot = none) (ht : t < 256)
    (hf : sequencerWord s = .word .seq (encodeSeq f o t)) (hi : stepRow f o t = .ok i) (hb : blocks i s = false) :
    step s = exec i s := by
  have h1 : fetch s = .word .seq (encodeSeq f o t) := by simp [fetch, hs, hf]
  rw [step_of_fetch_word h1 ((decode_encodeSeq f o t ht).trans hi) hb, slot_none_eta hs]

theorem step_waiting {s : State} (hs : s.slot = none) (h : sequencerWord s = .waiting) : step s = .next s := by
  simp [step, fetch, hs, h]

theorem step_idle {s : State} (hs : s.slot = none) (hf : s.fsm = .idle) (hc : s.cmds ≠ []) :
    step s = execAccept s.op s := by
  refine step_of_sequencer (i := .accept s.op) (f := .idle) (o := s.op) (t := 1) hs (by decide)
    (by simp [sequencerWord, hf, hc]) ?_ rfl
  cases s.op <;> rfl

theorem step_idle_waiting {s : State} (hs : s.slot = none) (hf : s.fsm = .idle) (hc : s.cmds = []) :
    step s = .next s := step_waiting hs (by simp [sequencerWord, hf, hc])

theorem step_chunk_done {s : State} (hs : s.slot = none) (hf : s.fsm = .chunk) (ht : s.chunkTodo = false) :
    step s = .next (respond .ok s) := by
  have : step s = execChunkDone s.op s := by
    refine step_of_sequencer (i := .chunkDone s.op) (f := .chunk) (o := s.op) (t := 2) hs (by decide)
      (by simp [sequencerWord, hf, ht]) ?_ rfl
    cases s.op <;> rfl
  rw [this, execChunkDone, if_pos ⟨hf, rfl, ht⟩]

theorem step_chunk_next {s : State} (hs : s.slot = none) (hf : s.fsm = .chunk) (ht : s.chunkTodo = true) :
    step s = .next { s with fsm := .encode } := by
  have : step s = execChunkNext s.op s := by
    refine step_of_sequencer (i := .chunkNext s.op) (f := .chunk) (o := s.op) (t := 3) hs (by decide)
      (by simp [sequencerWord, hf, ht]) ?_ rfl
    cases s.op <;> rfl
  rw [this, execChunkNext, if_pos ⟨hf, rfl, ht⟩]

theorem step_encode {s : State} (hs : s.slot = none) (hf : s.fsm = .encode) : step s = .next (encodeChunk s) := by
  have : step s = execEncode s.op s := by
    refine step_of_sequencer (i := .encode s.op) (f := .encode) (o := s.op) (t := 4) hs (by decide)
      (by simp [sequencerWord, hf]) ?_ rfl
    cases s.op <;> rfl
  rw [this, execEncode, if_pos ⟨hf, rfl⟩]

theorem step_attempt_withheld {s : State} (hs : s.slot = none) (hf : s.fsm = .attempt)
    (h : attemptReply s = .withheld) : step s = .next s := step_waiting hs (by simp [sequencerWord, hf, h])

theorem step_attempt_ok {s s1 : State} (hs : s.slot = none) (hf : s.fsm = .attempt)
    (h : attemptReply s = .replied .ok s1) : step s = .next (advance s1) := by
  have : step s = execAttemptOk s.op s := by
    refine step_of_sequencer (i := .attemptOk s.op) (f := .attempt) (o := s.op) (t := 5) hs (by decide)
      (by simp [sequencerWord, hf, h]) ?_ rfl
    cases s.op <;> rfl
  rw [this, execAttemptOk, if_pos ⟨hf, rfl⟩, h]

theorem step_attempt_noMeaning {s : State} (hs : s.slot = none) (hf : s.fsm = .attempt)
    (h : attemptReply s = .noMeaning) : step s = .refused .deviceNoMeaning := by
  have : step s = execAttemptOk s.op s := by
    refine step_of_sequencer (i := .attemptOk s.op) (f := .attempt) (o := s.op) (t := 5) hs (by decide)
      (by simp [sequencerWord, hf, h]) ?_ rfl
    cases s.op <;> rfl
  rw [this, execAttemptOk, if_pos ⟨hf, rfl⟩, h]

theorem step_attempt_fail {s s1 : State} {e : Nat} (hs : s.slot = none) (hf : s.fsm = .attempt)
    (h : attemptReply s = .replied (.err e) s1) (hm : s.mustFail = true) :
    step s = .next (raiseTransportError e s1) := by
  have : step s = execAttemptFail s.op s := by
    refine step_of_sequencer (i := .attemptFail s.op) (f := .attempt) (o := s.op) (t := 7) hs (by decide)
      (by simp [sequencerWord, hf, h, hm]) ?_ rfl
    cases s.op <;> rfl
  rw [this, execAttemptFail, if_pos ⟨hf, rfl, hm⟩, h]

theorem mayRetry_op {s : State} (h : s.mayRetry = true) : s.op = .write := by
  simp [State.mayRetry] at h
  exact h.1

theorem mustFail_of_mayRetry {s : State} (h : s.mayRetry = true) : s.mustFail = false := by
  simp [State.mayRetry, State.mustFail] at h ⊢
  exact ⟨by simp [h.1], by omega⟩

theorem step_attempt_retry {s s1 : State} {e : Nat} (hs : s.slot = none) (hf : s.fsm = .attempt)
    (h : attemptReply s = .replied (.err e) s1) (hm : s.mayRetry = true) : step s = .next (toDelay e s1) := by
  have hn := mustFail_of_mayRetry hm
  have ho := mayRetry_op hm
  have : step s = execAttemptRetry s :=
    step_of_sequencer (i := .attemptRetry) (f := .attempt) (o := .write) (t := 6) hs (by decide)
      (by simp [sequencerWord, hf, h, hm, hn, ho]) rfl rfl
  rw [this, execAttemptRetry, if_pos ⟨hf, hm⟩, h]

theorem step_attempt_stuck {s s1 : State} {e : Nat} (hs : s.slot = none) (hf : s.fsm = .attempt)
    (h : attemptReply s = .replied (.err e) s1) (hm : s.mayRetry = false) (hn : s.mustFail = false) :
    step s = .fault .noTransition := by
  simp [step, fetch, hs, sequencerWord, hf, h, hm, hn]

theorem step_delay {s s1 : State} {r : Reply} (hs : s.slot = none) (hf : s.fsm = .delay) (ho : s.op = .write)
    (h : sleepReply s = .replied r s1) : step s = .next (afterDelay s1) := by
  have : step s = execDelay s :=
    step_of_sequencer (i := .delay) (f := .delay) (o := .write) (t := 8) hs (by decide)
      (by simp [sequencerWord, hf, ho, h]) rfl rfl
  rw [this, execDelay, if_pos ⟨hf, ho⟩, h]

theorem step_delay_withheld {s : State} (hs : s.slot = none) (hf : s.fsm = .delay) (ho : s.op = .write)
    (h : sleepReply s = .withheld) : step s = .next s :=
  step_waiting hs (by simp [sequencerWord, hf, ho, h])

theorem step_delay_stuck {s : State} (hs : s.slot = none) (hf : s.fsm = .delay) (ho : s.op = .read) :
    step s = .fault .noTransition := by
  simp [step, fetch, hs, sequencerWord, hf, ho]

/-- Everything a step can do while the slot is empty (43_paginated_write.md R160): a wait, one of the eight
transitions, a refusal of the reference device, or no transition at all. -/
inductive Transition (s : State) : Outcome → Prop where
  | idleWaits (hf : s.fsm = .idle) (hc : s.cmds = []) : Transition s (.next s)
  | accept (c : Command) (rest : List Command) (hf : s.fsm = .idle) (hc : s.cmds = c :: rest) :
      Transition s (.next (lendSlice c (latchCommand c.op c.addr c.len { s with cmds := rest })))
  | chunkDone (hf : s.fsm = .chunk) (ht : s.chunkTodo = false) : Transition s (.next (respond .ok s))
  | chunkNext (hf : s.fsm = .chunk) (ht : s.chunkTodo = true) : Transition s (.next { s with fsm := .encode })
  | encode (hf : s.fsm = .encode) : Transition s (.next (encodeChunk s))
  | attemptWaits (hf : s.fsm = .attempt) (h : attemptReply s = .withheld) : Transition s (.next s)
  | attemptOk (s1 : State) (hf : s.fsm = .attempt) (h : attemptReply s = .replied .ok s1) :
      Transition s (.next (advance s1))
  | attemptRetry (e : Nat) (s1 : State) (hf : s.fsm = .attempt) (h : attemptReply s = .replied (.err e) s1)
      (hm : s.mayRetry = true) : Transition s (.next (toDelay e s1))
  | attemptFail (e : Nat) (s1 : State) (hf : s.fsm = .attempt) (h : attemptReply s = .replied (.err e) s1)
      (hm : s.mustFail = true) : Transition s (.next (raiseTransportError e s1))
  | deviceRefuses (hf : s.fsm = .attempt) (h : attemptReply s = .noMeaning) :
      Transition s (.refused .deviceNoMeaning)
  | attemptStuck (e : Nat) (s1 : State) (hf : s.fsm = .attempt) (h : attemptReply s = .replied (.err e) s1)
      (hm : s.mayRetry = false) (hn : s.mustFail = false) : Transition s (.fault .noTransition)
  | delayWaits (hf : s.fsm = .delay) (ho : s.op = .write) (h : sleepReply s = .withheld) : Transition s (.next s)
  | delay (r : Reply) (s1 : State) (hf : s.fsm = .delay) (ho : s.op = .write) (h : sleepReply s = .replied r s1) :
      Transition s (.next (afterDelay s1))
  | delayStuck (hf : s.fsm = .delay) (ho : s.op = .read) : Transition s (.fault .noTransition)

theorem execAccept_eq {s : State} {c : Command} {rest : List Command} (hf : s.fsm = .idle) (hc : s.cmds = c :: rest) :
    execAccept s.op s = .next (lendSlice c (latchCommand c.op c.addr c.len { s with cmds := rest })) := by
  rw [execAccept, if_pos ⟨hf, rfl⟩, hc]

theorem execAttemptOk_eq {s s1 : State} {o : Op} (hf : s.fsm = .attempt) (ho : s.op = o)
    (h : attemptReply s = .replied .ok s1) : execAttemptOk o s = .next (advance s1) := by
  rw [execAttemptOk, if_pos ⟨hf, ho⟩, h]

theorem execAttemptRetry_eq {s s1 : State} {e : Nat} (hf : s.fsm = .attempt) (hm : s.mayRetry = true)
    (h : attemptReply s = .replied (.err e) s1) : execAttemptRetry s = .next (toDelay e s1) := by
  rw [execAttemptRetry, if_pos ⟨hf, hm⟩, h]

theorem execAttemptFail_eq {s s1 : State} {o : Op} {e : Nat} (hf : s.fsm = .attempt) (ho : s.op = o)
    (hm : s.mustFail = true) (h : attemptReply s = .replied (.err e) s1) :
    execAttemptFail o s = .next (raiseTransportError e s1) := by
  rw [execAttemptFail, if_pos ⟨hf, ho, hm⟩, h]

theorem execDelay_eq {s s1 : State} {r : Reply} (hf : s.fsm = .delay) (ho : s.op = .write)
    (h : sleepReply s = .replied r s1) : execDelay s = .next (afterDelay s1) := by
  rw [execDelay, if_pos ⟨hf, ho⟩, h]

/-- Where the block presents a write request, TR_WRITE runs (30_encoding.md R86). -/
theorem primitiveStop_write {s : State} (hf : s.fsm = .attempt) (ho : s.op = .write) :
    primitiveStop 0b01 s = if s.klen = 0 then some .emptyChunk else if s.reply = none then none else some .replyPending := by
  simp [primitiveStop, State.trPort, State.request, hf, ho, portFields, writeRequest]

/-- Where the block presents a read request, TR_WRITE_READ runs. -/
theorem primitiveStop_read {s : State} (hf : s.fsm = .attempt) (ho : s.op = .read) :
    primitiveStop 0b10 s = if s.klen = 0 then some .emptyChunk else if s.reply = none then none else some .replyPending := by
  simp [primitiveStop, State.trPort, State.request, hf, ho, portFields, readRequest]

/-- In `DELAY` TR_SLEEP runs. -/
theorem primitiveStop_sleep {s : State} (hf : s.fsm = .delay) :
    primitiveStop 0b11 s = if s.reply = none then none else some .replyPending := by
  simp [primitiveStop, State.trPort, State.request, hf, portFields, sleepRequest]

theorem primitiveStop_write_elsewhere {s : State} (h : s.fsm ≠ .attempt ∨ s.op ≠ .write) :
    primitiveStop 0b01 s = some .guardNotMet := by
  unfold primitiveStop State.trPort State.request
  cases hf : s.fsm <;> cases ho : s.op <;> simp_all [portFields, readRequest, sleepRequest]

theorem primitiveStop_read_elsewhere {s : State} (h : s.fsm ≠ .attempt ∨ s.op ≠ .read) :
    primitiveStop 0b10 s = some .guardNotMet := by
  unfold primitiveStop State.trPort State.request
  cases hf : s.fsm <;> cases ho : s.op <;> simp_all [portFields, writeRequest, sleepRequest]

theorem primitiveStop_sleep_elsewhere {s : State} (h : s.fsm ≠ .delay) : primitiveStop 0b11 s = some .guardNotMet := by
  unfold primitiveStop State.trPort State.request
  cases hf : s.fsm <;> cases ho : s.op <;> simp_all [portFields, writeRequest, readRequest]

theorem finishPrimitive_eq {kind : BitVec 2} {s s1 : State} {p : Performed} {r : Reply}
    (hk : primitiveStop kind s = none) (h : p = .replied r s1) :
    finishPrimitive kind s p = .next { s1 with reply := some r } := by
  subst h
  simp [finishPrimitive, hk]

theorem finishPrimitive_stop {kind : BitVec 2} {s : State} {p : Performed} {why : Refusal}
    (hk : primitiveStop kind s = some why) : finishPrimitive kind s p = .refused why := by
  unfold finishPrimitive
  rw [hk]

theorem finishPrimitive_withheld {kind : BitVec 2} {s : State} {p : Performed} (hk : primitiveStop kind s = none)
    (h : p = .withheld) : finishPrimitive kind s p = .next s := by
  unfold finishPrimitive
  rw [hk, h]

/-- All that a transport primitive can do when it answers a next state. -/
theorem finishPrimitive_next {kind : BitVec 2} {s t : State} {p : Performed} (h : finishPrimitive kind s p = .next t) :
    primitiveStop kind s = none ∧
      ((p = .withheld ∧ t = s) ∨ ∃ r s1, p = .replied r s1 ∧ t = { s1 with reply := some r }) := by
  unfold finishPrimitive at h
  split at h
  · simp at h
  · rename_i hk
    refine ⟨hk, ?_⟩
    split at h <;> simp only [Host.Outcome.next.injEq, reduceCtorEq] at h
    · exact Or.inl ⟨rfl, h.symm⟩
    · exact Or.inr ⟨_, _, rfl, h.symm⟩

/-- Each step is one of the transitions. -/
theorem step_transition {s : State} (hs : s.slot = none) : Transition s (step s) := by
  cases hf : s.fsm with
  | idle =>
    cases hc : s.cmds with
    | nil => rw [step_idle_waiting hs hf hc]; exact .idleWaits hf hc
    | cons c rest =>
      rw [step_idle hs hf (by simp [hc]), execAccept_eq hf hc]
      exact .accept c rest hf hc
  | chunk =>
    cases ht : s.chunkTodo with
    | true => rw [step_chunk_next hs hf ht]; exact .chunkNext hf ht
    | false => rw [step_chunk_done hs hf ht]; exact .chunkDone hf ht
  | encode => rw [step_encode hs hf]; exact .encode hf
  | attempt =>
    cases h : attemptReply s with
    | withheld => rw [step_attempt_withheld hs hf h]; exact .attemptWaits hf h
    | noMeaning => rw [step_attempt_noMeaning hs hf h]; exact .deviceRefuses hf h
    | replied r s1 =>
      cases r with
      | ok => rw [step_attempt_ok hs hf h]; exact .attemptOk s1 hf h
      | err e =>
        cases hm : s.mayRetry with
        | true => rw [step_attempt_retry hs hf h hm]; exact .attemptRetry e s1 hf h hm
        | false =>
          cases hn : s.mustFail with
          | true => rw [step_attempt_fail hs hf h hn]; exact .attemptFail e s1 hf h hn
          | false => rw [step_attempt_stuck hs hf h hm hn]; exact .attemptStuck e s1 hf h hm hn
  | delay =>
    cases ho : s.op with
    | read => rw [step_delay_stuck hs hf ho]; exact .delayStuck hf ho
    | write =>
      rcases sleepReply_cases s with ⟨r, _, h⟩ | ⟨_, _, h⟩ | ⟨a, t, _, _, h⟩
      · rw [step_delay hs hf ho h]; exact .delay r _ hf ho h
      · rw [step_delay_withheld hs hf ho h]; exact .delayWaits hf ho h
      · rw [step_delay hs hf ho h]; exact .delay _ _ hf ho h

end Sys2Proof.Machine
end

