-- ==== Sys2Proof/Laws/Raw.lean ====
section
/-! SUPPORT. The raw operations: an attempt answered from a list, the retry loop for every list of failures, and what a
raw operation leaves alone. -/

namespace Sys2Proof.Machine

theorem replyOf_err {p : Params} {e : Nat} (h : e < 2 ^ p.errW) : replyOf p (.err e) = .err e := by
  simp [replyOf, portErr, Nat.mod_eq_of_lt h]

theorem serve_answers {t : Transport} {a : Answer} {l : List Answer} (hr : t.responder = .answers)
    (ha : t.answers = a :: l) (q : Request) : t.serve q = .answered a { t with answers := l } := by
  simp [Transport.serve, hr, ha]

/-- The state after the head of the answers is used up and some events are recorded. -/
def answered (s : State) (l : List Answer) (evs : List Event) : State :=
  { s with transport := { s.transport with answers := l }, trace := s.trace ++ evs }

/-- One write attempt answered from a list. -/
theorem attemptReply_write {s : State} {a : Answer} {l : List Answer} (ho : s.op = .write) (hr : s.reply = none)
    (ha : AnswersFrom s (a :: l)) :
    attemptReply s = .replied (replyOf s.params a)
      (answered s l [.write s.dev (s.scratchTo (2 + s.klen)) (replyOf s.params a)]) := by
  have e : attemptReply s = performWrite s := by simp [attemptReply, hr, ho]
  rw [e, performWrite_answered (serve_answers ha.1 ha.2 _)]
  rfl

/-- One sleep answered from a list. -/
theorem sleepReply_answered {s : State} {a : Answer} {l : List Answer} (hr : s.reply = none)
    (ha : AnswersFrom s (a :: l)) : sleepReply s = .replied .ok (answered s l [.sleep 1]) := by
  have e : sleepReply s = performSleep s := by simp [sleepReply, hr]
  rw [e, performSleep_answered (serve_answers ha.1 ha.2 _)]
  rfl

/-- The state after the failed attempts `errs` of a raw write, each followed by its sleep. -/
def afterFailures (s : State) (l : List Answer) (errs : List Nat) : State :=
  { answered s l (failedAttempts s.dev (s.scratchTo (2 + s.klen)) errs) with
    retries := s.retries + BitVec.ofNat 4 errs.length
    err := errs.getLast?.getD s.err
    fsm := .attempt }

theorem afterFailures_nil {s : State} {l : List Answer} (hf : s.fsm = .attempt) (ha : AnswersFrom s l) :
    afterFailures s l [] = s := by
  have e1 : ({ s.transport with answers := l } : Transport) = s.transport := by rw [← ha.2]
  have e2 : s.retries + BitVec.ofNat 4 0 = s.retries := by simp
  cases s
  simp_all [afterFailures, answered, failedAttempts]

/-- One failed attempt and its sleep, in the loop. -/
theorem rawAttempts_fail_one {s : State} {e : Nat} {x : Answer} {l : List Answer} (n : Nat) (ho : s.op = .write)
    (hr : s.reply = none) (he : e < 2 ^ s.params.errW) (ha : AnswersFrom s (.err e :: x :: l)) :
    rawAttempts (n + 1) s = rawAttempts n (afterFailures s l [e]) := by
  rw [rawAttempts, attemptReply_write ho hr ha, replyOf_err he]
  simp only
  have hs : sleepReply (toDelay e (answered s (x :: l) [.write s.dev (s.scratchTo (2 + s.klen)) (.err e)])) =
      .replied .ok (answered (toDelay e (answered s (x :: l)
        [.write s.dev (s.scratchTo (2 + s.klen)) (.err e)])) l [.sleep 1]) :=
    sleepReply_answered (a := x) hr ⟨ha.1, rfl⟩
  rw [hs]
  simp only
  congr 1
  simp [afterDelay, answered, toDelay, afterFailures, failedAttempts]

theorem afterFailures_cons {s : State} {l l' : List Answer} {e : Nat} {errs : List Nat} :
    afterFailures (afterFailures s l' [e]) l errs = afterFailures s l (e :: errs) := by
  have e1 : (afterFailures s l' [e]).dev = s.dev := rfl
  have e2 : (afterFailures s l' [e]).klen = s.klen := rfl
  have e3 : ∀ n, (afterFailures s l' [e]).scratchTo n = s.scratchTo n := fun n => rfl
  have e4 : s.retries + BitVec.ofNat 4 1 + BitVec.ofNat 4 errs.length = s.retries + BitVec.ofNat 4 (errs.length + 1) := by
    apply BitVec.eq_of_toNat_eq
    simp only [BitVec.toNat_add, BitVec.toNat_ofNat]
    omega
  have e5 : (errs.getLast?).getD e = ((e :: errs).getLast?).getD s.err := by
    cases errs <;> simp [List.getLast?_cons]
  simp only [afterFailures, e1, e2, e3] at *
  simp only [answered, failedAttempts, List.flatMap_cons, List.flatMap_nil, List.length_cons, List.length_nil,
    List.append_nil, List.append_assoc, List.getLast?_singleton, Option.getD_some, Nat.zero_add, e4, e5]

/-- The failed attempts of a raw write (41_raw_write_retry.md R128). -/
theorem rawAttempts_failures {s : State} {errs : List Nat} {l : List Answer} (n : Nat) (ho : s.op = .write)
    (hr : s.reply = none) (hf : s.fsm = .attempt) (he : ∀ e ∈ errs, e < 2 ^ s.params.errW)
    (ha : AnswersFrom s (failAnswers errs ++ l)) :
    rawAttempts (errs.length + n) s = rawAttempts n (afterFailures s l errs) := by
  induction errs generalizing s with
  | nil => rw [afterFailures_nil hf (by simpa [failAnswers] using ha)]; simp
  | cons e errs ih =>
    have ha' : AnswersFrom s (.err e :: .ok [] :: (failAnswers errs ++ l)) := by simpa [failAnswers] using ha
    rw [List.length_cons, show errs.length + 1 + n = errs.length + n + 1 by omega,
      rawAttempts_fail_one (errs.length + n) ho hr (he e (by simp)) ha', ih]
    · rw [afterFailures_cons]
    · exact ho
    · exact hr
    · rfl
    · exact fun x hx => he x (by simp [hx])
    · exact ⟨ha.1, rfl⟩

/-- A raw write that succeeds on attempt `|errs| + 1` (41_raw_write_retry.md R128). -/
theorem rawAttempts_accepted {s : State} {errs : List Nat} {l : List Answer} {left : Nat} (hl : errs.length ≤ left)
    (ho : s.op = .write) (hr : s.reply = none) (hf : s.fsm = .attempt) (he : ∀ e ∈ errs, e < 2 ^ s.params.errW)
    (ha : AnswersFrom s (acceptAfter errs ++ l)) :
    rawAttempts left s = .returned .ok
      { afterFailures s l errs with
        trace := s.trace ++ acceptedGroup s.dev (s.scratchTo (2 + s.klen)) errs } := by
  have ha' : AnswersFrom s (failAnswers errs ++ (.ok [] :: l)) := by simpa [acceptAfter] using ha
  obtain ⟨k, rfl⟩ : ∃ k, left = errs.length + k := ⟨left - errs.length, by omega⟩
  rw [rawAttempts_failures k ho hr hf he ha']
  have h1 : attemptReply (afterFailures s (.ok [] :: l) errs) = _ :=
    attemptReply_write (a := .ok []) (l := l) ho hr ⟨ha.1, rfl⟩
  unfold rawAttempts
  rw [h1]
  have e3 : ∀ n, (afterFailures s (.ok [] :: l) errs).scratchTo n = s.scratchTo n := fun n => rfl
  have e1 : (afterFailures s (.ok [] :: l) errs).dev = s.dev := rfl
  have e2 : (afterFailures s (.ok [] :: l) errs).klen = s.klen := rfl
  simp only [replyOf, e1, e2, e3]
  simp [answered, afterFailures, acceptedGroup]

/-- A raw write whose every attempt fails (41_raw_write_retry.md R128). -/
theorem rawAttempts_exhausted {s : State} {errs : List Nat} {e : Nat} {l : List Answer}
    (ho : s.op = .write) (hr : s.reply = none) (hf : s.fsm = .attempt) (he : ∀ x ∈ errs, x < 2 ^ s.params.errW)
    (hl : e < 2 ^ s.params.errW) (ha : AnswersFrom s (failAnswers errs ++ .err e :: l)) :
    rawAttempts errs.length s = .returned (.err e)
      { afterFailures s l errs with
        trace := s.trace ++ failedAttempts s.dev (s.scratchTo (2 + s.klen)) errs ++
          [.write s.dev (s.scratchTo (2 + s.klen)) (.err e)]
        err := e } := by
  have := rawAttempts_failures 0 ho hr hf he ha
  rw [Nat.add_zero] at this
  rw [this]
  have h1 : attemptReply (afterFailures s (.err e :: l) errs) = _ :=
    attemptReply_write (a := .err e) (l := l) ho hr ⟨ha.1, rfl⟩
  unfold rawAttempts
  rw [h1, show (afterFailures s (.err e :: l) errs).params = s.params from rfl, replyOf_err hl]
  have e3 : ∀ n, (afterFailures s (.err e :: l) errs).scratchTo n = s.scratchTo n := fun n => rfl
  have e1 : (afterFailures s (.err e :: l) errs).dev = s.dev := rfl
  have e2 : (afterFailures s (.err e :: l) errs).klen = s.klen := rfl
  simp only [e1, e2, e3]
  simp [answered, afterFailures]

theorem rawAttempts_zero_ok {s s1 : State} (h : attemptReply s = .replied .ok s1) :
    rawAttempts 0 s = .returned .ok s1 := by
  unfold rawAttempts
  rw [h]

theorem rawAttempts_zero_err {s s1 : State} {e : Nat} (h : attemptReply s = .replied (.err e) s1) :
    rawAttempts 0 s = .returned (.err e) { s1 with err := e } := by
  unfold rawAttempts
  rw [h]

/-- One read attempt answered from a list. -/
theorem attemptReply_read {s : State} {a : Answer} {l : List Answer} (ho : s.op = .read) (hr : s.reply = none)
    (ha : AnswersFrom s (a :: l)) :
    attemptReply s = .replied (replyOf s.params a)
      { answered s l [.writeRead s.dev (s.scratchTo 2) s.klen (recorded s a)] with
        buf := storeBuf s.buf s.rel (burst s a)
        draws := s.draws + s.klen } := by
  rw [attemptReply_answered hr (serve_answers ha.1 ha.2 _), afterAnswer_read ho]
  rfl

theorem rawAttempts_read_ok {s : State} {bs : List Byte} {l : List Answer} (ho : s.op = .read) (hr : s.reply = none)
    (hb : bs.length = s.klen) (ha : AnswersFrom s (.ok bs :: l)) :
    rawAttempts 0 s = .returned .ok
      { answered s l [.writeRead s.dev (s.scratchTo 2) s.klen (.ok bs)] with
        buf := storeBuf s.buf s.rel bs
        draws := s.draws + s.klen } := by
  rw [rawAttempts_zero_ok (attemptReply_read ho hr ha)]
  simp only [recorded, burst, ← hb, received_eq]

theorem rawAttempts_read_err {s : State} {e : Nat} {l : List Answer} (ho : s.op = .read) (hr : s.reply = none)
    (he : e < 2 ^ s.params.errW) (ha : AnswersFrom s (.err e :: l)) :
    rawAttempts 0 s = .returned (.err e)
      { answered s l [.writeRead s.dev (s.scratchTo 2) s.klen (.err e)] with
        buf := storeBuf s.buf s.rel (received s.draws s.klen [])
        draws := s.draws + s.klen
        err := e } := by
  have h := attemptReply_read ho hr ha
  rw [replyOf_err he] at h
  rw [rawAttempts_zero_err h]
  simp only [recorded, burst, portErr, Nat.mod_eq_of_lt he]

end Sys2Proof.Machine
end

