-- ==== Sys2Proof/Laws/Frame.lean ====
section
/-! SUPPORT. What every operation leaves alone: a relation between states that the small effects meet is met by the raw
operations and the commands built from them. -/

namespace Sys2Proof.Machine

/-- A relation that the parts of a raw operation meet, and that can be chained. -/
structure RawKeeps (R : State → State → Prop) : Prop where
  refl : ∀ s, R s s
  trans : ∀ {s t u}, R s t → R t u → R s u
  attempt : ∀ {s s1 r}, attemptReply s = .replied r s1 → R s s1
  sleep : ∀ {s s1 r}, sleepReply s = .replied r s1 → R s s1
  toDelay : ∀ e s, R s (toDelay e s)
  afterDelay : ∀ s, R s (afterDelay s)
  setErr : ∀ e s, R s { s with err := e }

/-- The raw operation keeps the relation, however it ends. -/
def RawEnd.Keeps (R : State → State → Prop) (s : State) : RawEnd → Prop
  | .waiting s1 => R s s1
  | .noMeaning => True
  | .returned _ s1 => R s s1

theorem RawEnd.Keeps.trans {R : State → State → Prop} (h : RawKeeps R) {s s1 : State} {e : RawEnd} (h1 : R s s1)
    (h2 : e.Keeps R s1) : e.Keeps R s := by
  cases e with
  | waiting t => exact h.trans h1 h2
  | noMeaning => exact h2
  | returned r t => exact h.trans h1 h2

theorem rawAttempts_keeps {R : State → State → Prop} (h : RawKeeps R) (left : Nat) (s : State) :
    (rawAttempts left s).Keeps R s := by
  induction left generalizing s with
  | zero =>
    unfold rawAttempts
    split
    · exact h.refl s
    · trivial
    · exact h.attempt (by assumption)
    · exact h.trans (h.attempt (by assumption)) (h.setErr _ _)
  | succ n ih =>
    unfold rawAttempts
    split
    · exact h.refl s
    · trivial
    · exact h.attempt (by assumption)
    · rename_i e s1 ha
      have h1 := h.trans (h.attempt ha) (h.toDelay e s1)
      simp only
      split
      · exact h1
      · trivial
      · exact (ih _).trans h (h.trans (h.trans h1 (h.sleep (by assumption))) (h.afterDelay _))

/-- A relation that the parts of a command meet. -/
structure CommandKeeps (R : State → State → Prop) : Prop extends RawKeeps R where
  encode : ∀ s, R s (encodeChunk s)
  advance : ∀ s, R s (advance s)
  respond : ∀ r s, R s (respond r s)

theorem CommandKeeps.raise {R : State → State → Prop} (h : CommandKeeps R) (e : Nat) (s : State) :
    R s (raiseTransportError e s) := h.trans (h.setErr e s) (h.respond _ _)

theorem rawWrite_keeps {R : State → State → Prop} (h : CommandKeeps R) (s : State) : (rawWrite s).Keeps R s :=
  RawEnd.Keeps.trans h.toRawKeeps (h.encode s) (rawAttempts_keeps h.toRawKeeps _ _)

theorem rawRead_keeps {R : State → State → Prop} (h : CommandKeeps R) (s : State) : (rawRead s).Keeps R s :=
  RawEnd.Keeps.trans h.toRawKeeps (h.encode s) (rawAttempts_keeps h.toRawKeeps _ _)

theorem chunkLoop_keeps {R : State → State → Prop} (h : CommandKeeps R) {raw : State → RawEnd}
    (hraw : ∀ s, (raw s).Keeps R s) {fuel : Nat} {s t : State} (ht : chunkLoop raw fuel s = .next t) : R s t := by
  induction fuel generalizing s with
  | zero =>
    simp only [chunkLoop, Host.Outcome.next.injEq] at ht
    exact ht ▸ h.refl s
  | succ fuel ih =>
    unfold chunkLoop at ht
    split at ht
    · have hr := hraw s
      split at ht <;> rename_i hq <;> rw [hq] at hr
      · simp only [Host.Outcome.next.injEq] at ht
        exact ht ▸ hr
      · simp at ht
      · exact h.trans hr (h.trans (h.advance _) (ih ht))
      · simp only [Host.Outcome.next.injEq] at ht
        exact ht ▸ h.trans hr (h.raise _ _)
    · simp only [Host.Outcome.next.injEq] at ht
      exact ht ▸ h.respond _ _

/-- What no operation changes: the wired address, the widths, who answers and at which strap, and the canonical form of
the device's memory; and no operation fills the slot. -/
structure Keeps (s t : State) : Prop where
  params : t.params = s.params
  hwAddr : t.hwAddr = s.hwAddr
  slot : t.slot = s.slot
  responder : t.transport.responder = s.transport.responder
  strap : t.transport.device.strap = s.transport.device.strap
  memory : s.transport.device.mem.wf = true ∧ s.transport.device.mem.bounded = true →
    t.transport.device.mem.wf = true ∧ t.transport.device.mem.bounded = true

theorem Keeps.refl (s : State) : Keeps s s := ⟨rfl, rfl, rfl, rfl, rfl, id⟩

theorem Keeps.trans {s t u : State} (h1 : Keeps s t) (h2 : Keeps t u) : Keeps s u :=
  ⟨h2.params.trans h1.params, h2.hwAddr.trans h1.hwAddr, h2.slot.trans h1.slot, h2.responder.trans h1.responder,
    h2.strap.trans h1.strap, fun h => h2.memory (h1.memory h)⟩

/-- An update that leaves the five fields alone. -/
theorem Keeps.of_eq {s t : State} (h1 : t.params = s.params) (h2 : t.hwAddr = s.hwAddr) (h3 : t.slot = s.slot)
    (h4 : t.transport = s.transport) : Keeps s t :=
  ⟨h1, h2, h3, by rw [h4], by rw [h4], by rw [h4]; exact id⟩

theorem Keeps.of_serve {s t : State} {q : Request} {a : Answer} (hq : s.transport.serve q = .answered a t.transport)
    (h1 : t.params = s.params) (h2 : t.hwAddr = s.hwAddr) (h3 : t.slot = s.slot) : Keeps s t :=
  ⟨h1, h2, h3, (serve_keeps hq).1, (serve_keeps hq).2, serve_memory hq⟩

theorem attemptReply_keeps {s s1 : State} {r : Reply} (h : attemptReply s = .replied r s1) : Keeps s s1 := by
  have hs := attemptReply_same h
  rcases attemptReply_cases s with ⟨r', _, h'⟩ | ⟨_, _, h'⟩ | ⟨_, _, h'⟩ | ⟨a, t, hr, hq, h'⟩ <;>
    rw [h'] at h <;> simp only [Performed.replied.injEq, reduceCtorEq] at h
  · exact Keeps.of_eq hs.params hs.hwAddr hs.slot (by rw [← h.2])
  · exact Keeps.of_serve (a := a) (by rw [hq, ← h.2, afterAnswer_transport]) hs.params hs.hwAddr hs.slot

theorem sleepReply_keeps {s s1 : State} {r : Reply} (h : sleepReply s = .replied r s1) : Keeps s s1 := by
  have hs := sleepReply_same h
  rcases sleepReply_cases s with ⟨r', _, h'⟩ | ⟨_, _, h'⟩ | ⟨a, t, hr, hq, h'⟩ <;>
    rw [h'] at h <;> simp only [Performed.replied.injEq, reduceCtorEq] at h
  · exact Keeps.of_eq hs.params hs.hwAddr hs.slot (by rw [← h.2])
  · exact Keeps.of_serve (a := a) (by rw [hq, ← h.2]) hs.params hs.hwAddr hs.slot

theorem commandKeeps : CommandKeeps Keeps where
  refl := Keeps.refl
  trans := Keeps.trans
  attempt := attemptReply_keeps
  sleep := sleepReply_keeps
  toDelay _ _ := Keeps.of_eq rfl rfl rfl rfl
  afterDelay _ := Keeps.of_eq rfl rfl rfl rfl
  setErr _ _ := Keeps.of_eq rfl rfl rfl rfl
  encode _ := Keeps.of_eq (by simp) (by simp) (by simp) (by simp)
  advance _ := Keeps.of_eq rfl rfl rfl rfl
  respond _ _ := Keeps.of_eq rfl rfl rfl rfl

theorem finishRaw_keeps {R : State → State → Prop} (hrefl : ∀ r s, R s { s with reply := some r })
    (htrans : ∀ {s t u}, R s t → R t u → R s u) {s t : State} {e : RawEnd} (h : e.Keeps R s)
    (ht : finishRaw e = .next t) : R s t := by
  cases e with
  | waiting s1 =>
    simp only [finishRaw, Host.Outcome.next.injEq] at ht
    exact ht ▸ h
  | noMeaning => simp [finishRaw] at ht
  | returned r s1 =>
    simp only [finishRaw, Host.Outcome.next.injEq] at ht
    exact ht ▸ htrans h (hrefl _ _)

theorem performWrite_keeps {s s1 : State} {r : Reply} (h : performWrite s = .replied r s1) : Keeps s s1 := by
  rcases performWrite_cases s with ⟨_, h'⟩ | ⟨_, h'⟩ | ⟨a, t, hq⟩
  · simp [h'] at h
  · simp [h'] at h
  · rw [performWrite_answered hq] at h
    simp only [Performed.replied.injEq] at h
    rw [← h.2]
    exact Keeps.of_serve hq rfl rfl rfl

theorem performWriteRead_keeps {s s1 : State} {r : Reply} (h : performWriteRead s = .replied r s1) : Keeps s s1 := by
  rcases performWriteRead_cases s with ⟨_, h'⟩ | ⟨_, h'⟩ | ⟨a, t, hq⟩
  · simp [h'] at h
  · simp [h'] at h
  · rw [performWriteRead_answered hq] at h
    simp only [Performed.replied.injEq] at h
    rw [← h.2]
    exact Keeps.of_serve hq rfl rfl rfl

theorem performSleep_keeps {s s1 : State} {r : Reply} (h : performSleep s = .replied r s1) : Keeps s s1 := by
  rcases performSleep_cases s with ⟨_, h'⟩ | ⟨a, t, hq⟩
  · simp [h'] at h
  · rw [performSleep_answered hq] at h
    simp only [Performed.replied.injEq] at h
    rw [← h.2]
    exact Keeps.of_serve hq rfl rfl rfl

theorem finishPrimitive_keeps {kind : BitVec 2} {s t : State} {p : Performed}
    (hp : ∀ r s1, p = .replied r s1 → Keeps s s1) (ht : finishPrimitive kind s p = .next t) : Keeps s t := by
  obtain ⟨_, ⟨_, rfl⟩ | ⟨r, s1, h, rfl⟩⟩ := finishPrimitive_next ht
  · exact Keeps.refl _
  · exact (hp r s1 h).trans (Keeps.of_eq rfl rfl rfl rfl)

theorem lendSlice_latch_keeps (c : Command) (rest : List Command) (s : State) :
    Keeps s (lendSlice c (latchCommand c.op c.addr c.len { s with cmds := rest })) := by
  unfold lendSlice
  split <;> exact Keeps.of_eq rfl rfl rfl rfl

/-- Every operation, in every state. -/
theorem exec_keeps {i : Instr} {s t : State} (h : exec i s = .next t) : Keeps s t := by
  cases i with
  | write a n =>
    simp only [exec, execWrite] at h
    split at h
    · have h1 : Keeps s (latchCommand .write a n s) := Keeps.of_eq rfl rfl rfl rfl
      exact h1.trans (chunkLoop_keeps commandKeeps (rawWrite_keeps commandKeeps) h)
    · simp only [Host.Outcome.next.injEq] at h
      exact h ▸ Keeps.of_eq rfl rfl rfl rfl
  | read a n =>
    simp only [exec, execRead] at h
    split at h
    · have h1 : Keeps s (latchCommand .read a n s) := Keeps.of_eq rfl rfl rfl rfl
      exact h1.trans (chunkLoop_keeps commandKeeps (rawRead_keeps commandKeeps) h)
    · simp only [Host.Outcome.next.injEq] at h
      exact h ▸ Keeps.of_eq rfl rfl rfl rfl
  | nextChunk c =>
    simp only [exec, execNextChunk, Host.Outcome.next.injEq] at h
    exact h ▸ Keeps.of_eq rfl rfl rfl rfl
  | encHdr a =>
    simp only [exec, execEncHdr, Host.Outcome.next.injEq] at h
    exact h ▸ Keeps.of_eq (by simp) (by simp) (by simp) (by simp)
  | loadPayload ds =>
    simp only [exec, execLoadPayload] at h
    split at h <;> simp only [Host.Outcome.next.injEq, reduceCtorEq] at h
    exact h ▸ Keeps.of_eq (by simp) (by simp) (by simp) (by simp)
  | devAddr b =>
    simp only [exec, execDevAddr, Host.Outcome.next.injEq] at h
    exact h ▸ Keeps.of_eq rfl rfl rfl rfl
  | rawWrite f =>
    have hraw := @finishRaw_keeps Keeps (fun _ _ => Keeps.of_eq rfl rfl rfl rfl) Keeps.trans
    simp only [exec, execRawWrite] at h
    split at h
    · split at h
      · simp at h
      · split at h
        · exact hraw (rawWrite_keeps commandKeeps s) h
        · split at h
          · exact hraw (rawAttempts_keeps commandKeeps.toRawKeeps _ _) h
          · simp at h
        · split at h
          · split at h
            · simp only [Host.Outcome.next.injEq] at h
              exact h ▸ Keeps.refl s
            · simp at h
            · exact hraw (RawEnd.Keeps.trans commandKeeps.toRawKeeps
                ((sleepReply_keeps (by assumption)).trans (commandKeeps.afterDelay _))
                (rawAttempts_keeps commandKeeps.toRawKeeps _ _)) h
          · simp at h
        · simp at h
        · simp at h
    · simp at h
  | rawRead f =>
    have hraw := @finishRaw_keeps Keeps (fun _ _ => Keeps.of_eq rfl rfl rfl rfl) Keeps.trans
    simp only [exec, execRawRead] at h
    split at h
    · split at h
      · simp at h
      · split at h
        · exact hraw (rawRead_keeps commandKeeps s) h
        · exact hraw (rawAttempts_keeps commandKeeps.toRawKeeps _ _) h
        · simp at h
        · simp at h
        · simp at h
    · simp at h
  | trWrite => exact finishPrimitive_keeps (fun _ _ => performWrite_keeps) h
  | trWriteRead => exact finishPrimitive_keeps (fun _ _ => performWriteRead_keeps) h
  | trSleep => exact finishPrimitive_keeps (fun _ _ => performSleep_keeps) h
  | wframe a ds =>
    simp only [exec, execWframe] at h
    split at h <;> simp only [Host.Outcome.next.injEq, reduceCtorEq] at h
    exact h ▸ Keeps.of_eq rfl rfl rfl rfl
  | rframe a =>
    simp only [exec, execRframe, Host.Outcome.next.injEq] at h
    exact h ▸ Keeps.of_eq rfl rfl rfl rfl
  | accept o =>
    simp only [exec, execAccept] at h
    split at h
    · split at h <;> simp only [Host.Outcome.next.injEq, reduceCtorEq] at h
      exact h ▸ lendSlice_latch_keeps _ _ _
    · simp at h
  | chunkDone o =>
    simp only [exec, execChunkDone] at h
    split at h <;> simp only [Host.Outcome.next.injEq, reduceCtorEq] at h
    exact h ▸ commandKeeps.respond _ _
  | chunkNext o =>
    simp only [exec, execChunkNext] at h
    split at h <;> simp only [Host.Outcome.next.injEq, reduceCtorEq] at h
    exact h ▸ Keeps.of_eq rfl rfl rfl rfl
  | encode o =>
    simp only [exec, execEncode] at h
    split at h <;> simp only [Host.Outcome.next.injEq, reduceCtorEq] at h
    exact h ▸ commandKeeps.encode _
  | attemptOk o =>
    simp only [exec, execAttemptOk] at h
    split at h
    · split at h <;> simp only [Host.Outcome.next.injEq, reduceCtorEq] at h
      exact h ▸ (attemptReply_keeps (by assumption)).trans (commandKeeps.advance _)
    · simp at h
  | attemptRetry =>
    simp only [exec, execAttemptRetry] at h
    split at h
    · split at h <;> simp only [Host.Outcome.next.injEq, reduceCtorEq] at h
      exact h ▸ (attemptReply_keeps (by assumption)).trans (commandKeeps.toDelay _ _)
    · simp at h
  | attemptFail o =>
    simp only [exec, execAttemptFail] at h
    split at h
    · split at h <;> simp only [Host.Outcome.next.injEq, reduceCtorEq] at h
      exact h ▸ (attemptReply_keeps (by assumption)).trans (commandKeeps.raise _ _)
    · simp at h
  | delay =>
    simp only [exec, execDelay] at h
    split at h
    · split at h <;> simp only [Host.Outcome.next.injEq, reduceCtorEq] at h
      exact h ▸ (sleepReply_keeps (by assumption)).trans (commandKeeps.afterDelay _)
    · simp at h

/-- Of a read: only the header of the scratch buffer is written. -/
def HeaderOnly (s t : State) : Prop :=
  s.op = .read → t.op = .read ∧ ∀ (k : Nat) (h : k < 34), 2 ≤ k → t.scratch[k] = s.scratch[k]

theorem HeaderOnly.of_eq {s t : State} (h1 : t.op = s.op) (h2 : t.scratch = s.scratch) : HeaderOnly s t :=
  fun h => ⟨h1.trans h, fun _ _ _ => by simp only [h2]⟩

theorem headerOnly : CommandKeeps HeaderOnly where
  refl _ := HeaderOnly.of_eq rfl rfl
  trans h1 h2 := fun h =>
    ⟨(h2 (h1 h).1).1, fun k hk h3 => ((h2 (h1 h).1).2 k hk h3).trans ((h1 h).2 k hk h3)⟩
  attempt h := HeaderOnly.of_eq (attemptReply_same h).op (attemptReply_same h).scratch
  sleep h := HeaderOnly.of_eq (sleepReply_same h).op (sleepReply_same h).scratch
  toDelay _ _ := HeaderOnly.of_eq rfl rfl
  afterDelay _ := HeaderOnly.of_eq rfl rfl
  setErr _ _ := HeaderOnly.of_eq rfl rfl
  encode s := fun h => ⟨by simp [h], fun k hk h2 => by
    simp only [encodeChunk_scratch_read h]; exact putScratch_outside hk (Or.inr (by simpa using h2))⟩
  advance _ := HeaderOnly.of_eq rfl rfl
  respond _ _ := HeaderOnly.of_eq rfl rfl

/-- Every step: it is a wait, or one operation with the slot empty. -/
theorem step_keeps {s t : State} (h : step s = .next t) : t = s ∨ ∃ i, exec i { s with slot := none } = .next t := by
  unfold step at h
  split at h
  · simp only [Host.Outcome.next.injEq] at h
    exact Or.inl h.symm
  · simp at h
  · split at h
    · simp at h
    · split at h
      · simp only [Host.Outcome.next.injEq] at h
        exact Or.inl h.symm
      · exact Or.inr ⟨_, h⟩

end Sys2Proof.Machine
end

