-- ==== Sys2Proof/Laws/Device.lean ====
section
/-! SUPPORT. The reference device (spec/20_memory.md R70): what it answers to a frame of the block, and what that leaves in its
memory. -/

namespace Sys2Proof.Machine

theorem tick_mem (d : Device) : d.tick.mem = d.mem := by unfold Device.tick; split <;> rfl

theorem tick_strap (d : Device) : d.tick.strap = d.strap := by unfold Device.tick; split <;> rfl

theorem tick_eAbsent (d : Device) : d.tick.eAbsent = d.eAbsent := by unfold Device.tick; split <;> rfl

theorem tick_eNack (d : Device) : d.tick.eNack = d.eNack := by unfold Device.tick; split <;> rfl

theorem tick_finish (d : Device) : d.tick.finish = d.finish.tail := by
  unfold Device.tick; split <;> simp [*]

/-- The write cycle is over after the environment's step exactly if `finish` occurred or no cycle was running. -/
theorem tick_busy (d : Device) : d.tick.busy = (d.busy && !(d.finish.headD false)) := by
  unfold Device.tick; split <;> simp [*]

/-- A frame of a chunk inside the device, given to the reference device. -/
theorem device_write_frame {d : Device} {dev : BitVec 7} {a : Addr} {ds : List Byte} (h1 : 1 ≤ ds.length)
    (h2 : a.toNat % 32 + ds.length ≤ 32) (h3 : a.toNat + ds.length ≤ 8192) :
    d.write dev (headerBytes a ++ ds) =
      if dev ≠ devAddrOf d.strap then .answered (.err d.eAbsent) d
      else if d.busy then .answered (.err d.eNack) d
      else .answered (.ok []) { d with mem := d.mem.writeBytes a.toNat ds, busy := true } := by
  have hc : ¬ (ds.length < 1 ∨ 32 < ds.length ∨ Config.capacity < a.toNat + ds.length ∨
      32 < a.toNat % 32 + ds.length) := by unfold Config.capacity; omega
  simp only [Device.write, headerBytes, List.cons_append, List.nil_append, headerAddr_header]
  rw [if_neg hc]

/-- A read inside the device, given to the reference device. -/
theorem device_read_frame {d : Device} {dev : BitVec 7} {a : Addr} {k : Nat} (h1 : 1 ≤ k) (h3 : a.toNat + k ≤ 8192) :
    d.writeRead dev (headerBytes a) k =
      if dev ≠ devAddrOf d.strap then .answered (.err d.eAbsent) d
      else if d.busy then .answered (.err d.eNack) d
      else .answered (.ok (d.mem.readBytes a.toNat k)) d := by
  have hc : ¬ (k = 0 ∨ Config.capacity < a.toNat + k) := by unfold Config.capacity; omega
  simp only [Device.writeRead, headerBytes, headerAddr_header]
  rw [if_neg hc]

/-- The chunk at the cursor lies inside the device and inside one page. -/
theorem chunk_inside {s : State} (h1 : s.base.toNat ≤ s.cur) (h2 : s.cur < s.endp) (hr : s.endp ≤ 8192) :
    s.curAddr.toNat = s.cur ∧ 1 ≤ s.klen ∧ s.cur % 32 + s.klen ≤ 32 ∧ s.cur + s.klen ≤ s.endp := by
  have e : s.curAddr.toNat = s.cur := by
    unfold State.curAddr
    rw [BitVec.toNat_ofNat]
    omega
  have h3 := klen_pos h2
  have h4 := klen_le_rem s
  rw [rem_eq] at h4
  have h5 : s.klen ≤ s.toGo := nextChunkLen_le_toGo _ _
  unfold State.toGo at h5
  exact ⟨e, h3, by omega, by omega⟩

theorem serve_device {t : Transport} {q : Request} {a : Answer} {d : Device} (hd : t.responder = .device)
    (h : t.device.serve q = .answered a d) : t.serve q = .answered a { t with device := d } := by
  simp only [Transport.serve, hd, h]

theorem dev_strap_iff (s : State) : s.dev ≠ devAddrOf s.transport.device.tick.strap ↔
    s.transport.device.strap ≠ s.hwAddr := by
  rw [tick_strap, State.dev]
  exact ⟨fun h h' => h (by rw [h']), fun h h' => h (devAddrOf_injective h').symm⟩

/-- A write attempt whose frame stands in the scratch buffer, inside the device: what the reference device answers. -/
theorem serve_writeRequest {s : State} (hd : s.transport.responder = .device)
    (hp : s.scratchTo (2 + s.klen) = headerBytes s.curAddr ++ s.chunkData) (h1 : s.base.toNat ≤ s.cur)
    (h2 : s.cur < s.endp) (hr : s.endp ≤ 8192) :
    s.transport.serve (writeRequest s) =
      if s.transport.device.strap ≠ s.hwAddr then
        .answered (.err s.transport.device.eAbsent) { s.transport with device := s.transport.device.tick }
      else if s.transport.device.tick.busy then
        .answered (.err s.transport.device.eNack) { s.transport with device := s.transport.device.tick }
      else .answered (.ok []) { s.transport with device :=
        { s.transport.device.tick with
          mem := s.transport.device.mem.writeBytes s.cur s.chunkData
          busy := true } } := by
  obtain ⟨e, h3, h4, h5⟩ := chunk_inside h1 h2 hr
  have hw := device_write_frame (d := s.transport.device.tick) (dev := s.dev) (a := s.curAddr) (ds := s.chunkData)
    (by simpa using h3) (by rw [e, chunkData_length]; exact h4) (by rw [e, chunkData_length]; omega)
  have hs : s.transport.device.serve (writeRequest s) = s.transport.device.tick.write s.dev (headerBytes s.curAddr ++ s.chunkData) := by
    simp only [writeRequest, Device.serve, Config.hdrLen, hp]
  rw [hw] at hs
  by_cases hx : s.transport.device.strap ≠ s.hwAddr
  · rw [if_pos ((dev_strap_iff s).2 hx)] at hs
    rw [if_pos hx, serve_device hd hs, tick_eAbsent]
  · rw [if_neg (fun h => hx ((dev_strap_iff s).1 h))] at hs
    rw [if_neg hx]
    split at hs
    · rw [if_pos (by assumption), serve_device hd hs, tick_eNack]
    · rw [if_neg (by assumption), serve_device hd hs, e, tick_mem]

/-- A read attempt whose header stands in the scratch buffer, inside the device: what the reference device answers. -/
theorem serve_readRequest {s : State} (hd : s.transport.responder = .device)
    (hp : s.scratchTo 2 = headerBytes s.curAddr) (h1 : s.base.toNat ≤ s.cur) (h2 : s.cur < s.endp)
    (hr : s.endp ≤ 8192) :
    s.transport.serve (readRequest s) =
      if s.transport.device.strap ≠ s.hwAddr then
        .answered (.err s.transport.device.eAbsent) { s.transport with device := s.transport.device.tick }
      else if s.transport.device.tick.busy then
        .answered (.err s.transport.device.eNack) { s.transport with device := s.transport.device.tick }
      else .answered (.ok (s.transport.device.mem.readBytes s.cur s.klen))
        { s.transport with device := s.transport.device.tick } := by
  obtain ⟨e, h3, h4, h5⟩ := chunk_inside h1 h2 hr
  have hw := device_read_frame (d := s.transport.device.tick) (dev := s.dev) (a := s.curAddr) (k := s.klen) h3
    (by rw [e]; omega)
  have hs : s.transport.device.serve (readRequest s) = s.transport.device.tick.writeRead s.dev (headerBytes s.curAddr) s.klen := by
    simp only [readRequest, Device.serve, Config.hdrLen, hp]
  rw [hw] at hs
  by_cases hx : s.transport.device.strap ≠ s.hwAddr
  · rw [if_pos ((dev_strap_iff s).2 hx)] at hs
    rw [if_pos hx, serve_device hd hs, tick_eAbsent]
  · rw [if_neg (fun h => hx ((dev_strap_iff s).1 h))] at hs
    rw [if_neg hx]
    split at hs
    · rw [if_pos (by assumption), serve_device hd hs, tick_eNack]
    · rw [if_neg (by assumption), serve_device hd hs, e, tick_mem]

end Sys2Proof.Machine
end

