-- ==== Sys2Proof/Laws/Bounds.lean ====
section
/-! SUPPORT. How many events an operation records, whatever the transport does (spec/41_raw_write_retry.md R131,
43_paginated_write.md R159, 44_paginated_read.md R175), and that it ends when the transport answers (70_reset_and_hazards.md
R222). -/

namespace Sys2Proof.Machine

/-- Between the two states at most `w` writes, `r` reads and `z` sleeps of one unit were recorded, and no response. -/
def Adds (s t : State) (w r z : Nat) : Prop :=
  ∃ evs, t.trace = s.trace ++ evs ∧ evs.countP Event.isWrite ≤ w ∧ evs.countP Event.isRead ≤ r ∧
    evs.countP Event.isSleep ≤ z ∧ evs.countP Event.isResponse = 0 ∧ (evs.map Event.units).sum ≤ z

theorem Adds.same {s t : State} (h : t.trace = s.trace) : Adds s t 0 0 0 := ⟨[], by simp [h]⟩

theorem Adds.trans {s t u : State} {w r z w' r' z' : Nat} (h1 : Adds s t w r z) (h2 : Adds t u w' r' z') :
    Adds s u (w + w') (r + r') (z + z') := by
  obtain ⟨e1, t1, a1, b1, c1, d1, f1⟩ := h1
  obtain ⟨e2, t2, a2, b2, c2, d2, f2⟩ := h2
  refine ⟨e1 ++ e2, by rw [t2, t1, List.append_assoc], ?_, ?_, ?_, ?_, ?_⟩ <;>
    simp only [List.countP_append, List.map_append, List.sum_append] <;> omega

theorem Adds.mono {s t : State} {w r z w' r' z' : Nat} (h : Adds s t w r z) (hw : w ≤ w') (hr : r ≤ r') (hz : z ≤ z') :
    Adds s t w' r' z' := by
  obtain ⟨e, t1, a, b, c, d, f⟩ := h
  exact ⟨e, t1, by omega, by omega, by omega, d, by omega⟩

theorem attemptReply_adds_write {s s1 : State} {r : Reply} (ho : s.op = .write) (h : attemptReply s = .replied r s1) :
    Adds s s1 1 0 0 := by
  rcases attemptReply_cases s with ⟨r', _, h'⟩ | ⟨_, _, h'⟩ | ⟨_, _, h'⟩ | ⟨a, t, hr, hq, h'⟩ <;>
    rw [h'] at h <;> simp only [Performed.replied.injEq, reduceCtorEq] at h
  · exact (Adds.same (by rw [← h.2])).mono (by omega) (by omega) (by omega)
  · refine ⟨[attemptEvent s a], by rw [← h.2, afterAnswer_trace], ?_⟩
    simp only [attemptEvent, ho]
    simp [Event.isWrite, Event.isRead, Event.isSleep, Event.isResponse, Event.units]

theorem attemptReply_adds_read {s s1 : State} {r : Reply} (ho : s.op = .read) (h : attemptReply s = .replied r s1) :
    Adds s s1 0 1 0 := by
  rcases attemptReply_cases s with ⟨r', _, h'⟩ | ⟨_, _, h'⟩ | ⟨_, _, h'⟩ | ⟨a, t, hr, hq, h'⟩ <;>
    rw [h'] at h <;> simp only [Performed.replied.injEq, reduceCtorEq] at h
  · exact (Adds.same (by rw [← h.2])).mono (by omega) (by omega) (by omega)
  · refine ⟨[attemptEvent s a], by rw [← h.2, afterAnswer_trace], ?_⟩
    simp only [attemptEvent, ho]
    simp [Event.isWrite, Event.isRead, Event.isSleep, Event.isResponse, Event.units]

theorem sleepReply_adds {s s1 : State} {r : Reply} (h : sleepReply s = .replied r s1) : Adds s s1 0 0 1 := by
  rcases sleepReply_cases s with ⟨r', _, h'⟩ | ⟨_, _, h'⟩ | ⟨a, t, hr, hq, h'⟩ <;>
    rw [h'] at h <;> simp only [Performed.replied.injEq, reduceCtorEq] at h
  · exact (Adds.same (by rw [← h.2])).mono (by omega) (by omega) (by omega)
  · exact ⟨[.sleep 1], by rw [← h.2], by simp [Event.isWrite, Event.isRead, Event.isSleep, Event.isResponse, Event.units]⟩

/-- What is known of the state a raw operation of the chunk at the cursor ends in. -/
structure RawBound (s t : State) (w r z : Nat) : Prop where
  adds : Adds s t w r z
  op : t.op = s.op
  base : t.base = s.base
  len : t.len = s.len
  cur : t.cur = s.cur
  rsp : t.rsp = s.rsp
  data : t.data = s.data
  buf : s.op = .write → t.buf = s.buf
  retries : s.retries.toNat + z ≤ 15 → t.retries.toNat ≤ s.retries.toNat + z

/-- A raw operation ends within the bounds; one that waits is in `ATTEMPT` or `DELAY`. -/
def RawEnd.Bounded (s : State) (w r z : Nat) : RawEnd → Prop
  | .waiting t => RawBound s t w r z ∧ t.fsm ≠ .idle
  | .noMeaning => True
  | .returned _ t => RawBound s t w r z

theorem RawBound.same (s : State) (w r z : Nat) : RawBound s s w r z :=
  ⟨(Adds.same rfl).mono (by omega) (by omega) (by omega), rfl, rfl, rfl, rfl, rfl, rfl, fun _ => rfl, fun _ => by omega⟩

theorem RawBound.setErr {s t : State} {w r z : Nat} (h : RawBound s t w r z) (e : Nat) :
    RawBound s { t with err := e } w r z :=
  ⟨h.adds, h.op, h.base, h.len, h.cur, h.rsp, h.data, h.buf, h.retries⟩

theorem attemptReply_buf {s s1 : State} {r : Reply} (ho : s.op = .write) (h : attemptReply s = .replied r s1) :
    s1.buf = s.buf := by
  rcases attemptReply_cases s with ⟨r', _, h'⟩ | ⟨_, _, h'⟩ | ⟨_, _, h'⟩ | ⟨a, t, hr, hq, h'⟩ <;>
    rw [h'] at h <;> simp only [Performed.replied.injEq, reduceCtorEq] at h
  · rw [← h.2]
  · rw [← h.2, afterAnswer_write ho]

theorem sleepReply_buf {s s1 : State} {r : Reply} (h : sleepReply s = .replied r s1) : s1.buf = s.buf := by
  rcases sleepReply_cases s with ⟨r', _, h'⟩ | ⟨_, _, h'⟩ | ⟨a, t, hr, hq, h'⟩ <;>
    rw [h'] at h <;> simp only [Performed.replied.injEq, reduceCtorEq] at h <;> rw [← h.2]

/-- The retry loop of a write, whatever the transport answers. -/
theorem rawAttempts_bounded (left : Nat) {s : State} (ho : s.op = .write) (hf : s.fsm = .attempt) :
    (rawAttempts left s).Bounded s (left + 1) 0 left := by
  induction left generalizing s with
  | zero =>
    unfold rawAttempts
    split
    · exact ⟨RawBound.same s _ _ _, by simp [hf]⟩
    · trivial
    · rename_i s1 h1
      have hs := attemptReply_same h1
      exact ⟨attemptReply_adds_write ho h1, hs.op, hs.base, hs.len, hs.cur, hs.rsp, hs.data,
        fun _ => attemptReply_buf ho h1, fun _ => by rw [hs.retries]; omega⟩
    · rename_i e s1 h1
      have hs := attemptReply_same h1
      have hb : RawBound s s1 1 0 0 := ⟨attemptReply_adds_write ho h1, hs.op, hs.base, hs.len, hs.cur, hs.rsp, hs.data,
        fun _ => attemptReply_buf ho h1, fun _ => by rw [hs.retries]; omega⟩
      exact hb.setErr e
  | succ n ih =>
    unfold rawAttempts
    split
    · exact ⟨RawBound.same s _ _ _, by simp [hf]⟩
    · trivial
    · rename_i s1 h1
      have hs := attemptReply_same h1
      exact ⟨(attemptReply_adds_write ho h1).mono (by omega) (by omega) (by omega), hs.op, hs.base, hs.len, hs.cur,
        hs.rsp, hs.data, fun _ => attemptReply_buf ho h1, fun _ => by rw [hs.retries]; omega⟩
    · rename_i e s1 h1
      have hs := attemptReply_same h1
      have ha := attemptReply_adds_write ho h1
      simp only
      split
      · have hb : RawBound s s1 (n + 1 + 1) 0 (n + 1) :=
          ⟨ha.mono (by omega) (by omega) (by omega), hs.op, hs.base, hs.len, hs.cur, hs.rsp, hs.data,
            fun _ => attemptReply_buf ho h1, fun _ => by rw [hs.retries]; omega⟩
        exact ⟨⟨hb.adds, hb.op, hb.base, hb.len, hb.cur, hb.rsp, hb.data, hb.buf, hb.retries⟩, by simp [toDelay]⟩
      · trivial
      · rename_i r s2 h2
        have hz := sleepReply_same h2
        have hb := @ih (afterDelay s2) (by simp [hz.op, hs.op, ho]) (by simp)
        have hadds : Adds s (afterDelay s2) 1 0 1 := by
          have h3 := sleepReply_adds h2
          have := ha.trans (show Adds s1 s2 0 0 1 from h3)
          simpa [Adds] using this
        have hbuf : (afterDelay s2).buf = s.buf := by
          simp only [afterDelay_buf, sleepReply_buf h2, toDelay_buf, attemptReply_buf ho h1]
        have hret : (afterDelay s2).retries = s.retries + 1 := by simp [hz.retries, hs.retries]
        have key : ∀ t, RawBound (afterDelay s2) t (n + 1) 0 n → RawBound s t (n + 1 + 1) 0 (n + 1) := by
          intro t ht
          refine ⟨(hadds.trans ht.adds).mono (by omega) (by omega) (by omega), ?_, ?_, ?_, ?_, ?_, ?_, ?_, ?_⟩
          · rw [ht.op]; simp [hz.op, hs.op]
          · rw [ht.base]; simp [hz.base, hs.base]
          · rw [ht.len]; simp [hz.len, hs.len]
          · rw [ht.cur]; simp [hz.cur, hs.cur]
          · rw [ht.rsp]; simp [hz.rsp, hs.rsp]
          · rw [ht.data]; simp [hz.data, hs.data]
          · intro _
            rw [ht.buf (by simp [hz.op, hs.op, ho]), hbuf]
          · intro hl
            have h3 : (afterDelay s2).retries.toNat = s.retries.toNat + 1 := by
              rw [hret, BitVec.toNat_add]
              simp
              omega
            have := ht.retries (by omega)
            omega
        revert hb
        cases rawAttempts n (afterDelay s2) with
        | waiting t => exact fun hb => ⟨key t hb.1, hb.2⟩
        | noMeaning => exact fun _ => trivial
        | returned r t => exact fun hb => key t hb

/-- The single attempt of a read. -/
theorem rawAttempts_bounded_read {s : State} (ho : s.op = .read) (hf : s.fsm = .attempt) :
    (rawAttempts 0 s).Bounded s 0 1 0 := by
  unfold rawAttempts
  split
  · exact ⟨RawBound.same s _ _ _, by simp [hf]⟩
  · trivial
  · rename_i s1 h1
    have hs := attemptReply_same h1
    exact ⟨attemptReply_adds_read ho h1, hs.op, hs.base, hs.len, hs.cur, hs.rsp, hs.data,
      fun h => by simp [ho] at h, fun _ => by rw [hs.retries]; omega⟩
  · rename_i e s1 h1
    have hs := attemptReply_same h1
    have hb : RawBound s s1 0 1 0 := ⟨attemptReply_adds_read ho h1, hs.op, hs.base, hs.len, hs.cur, hs.rsp, hs.data,
      fun h => by simp [ho] at h, fun _ => by rw [hs.retries]; omega⟩
    exact hb.setErr e

theorem RawBound.of_encode {s t : State} {w r z : Nat} (h : RawBound (encodeChunk s) t w r z) :
    Adds s t w r z ∧ t.op = s.op ∧ t.base = s.base ∧ t.len = s.len ∧ t.cur = s.cur ∧ t.rsp = s.rsp ∧
      t.data = s.data ∧ (s.op = .write → t.buf = s.buf) ∧ (z ≤ 15 → t.retries.toNat ≤ z) := by
  obtain ⟨h1, h2, h3, h4, h5, h6, h7, h8, h9⟩ := h
  simp only [encodeChunk_op, encodeChunk_base, encodeChunk_len, encodeChunk_cur, encodeChunk_rsp, encodeChunk_data,
    encodeChunk_buf, encodeChunk_retries] at *
  refine ⟨?_, h2, h3, h4, h5, h6, h7, h8, fun hz => by simpa using h9 (by simpa using hz)⟩
  obtain ⟨evs, ht, h⟩ := h1
  exact ⟨evs, by simpa using ht, h⟩

/-- What is known of the state a command ends in: the transport events within the bounds, and one response if the command
is over. -/
def CommandBound (s t : State) (w r z : Nat) : Prop :=
  ∃ u, Adds s u w r z ∧ ((t.fsm ≠ .idle ∧ t.trace = u.trace) ∨ (t.fsm = .idle ∧ ∃ x, t.trace = u.trace ++ [.rsp x]))

theorem CommandBound.after {s s1 t : State} {w r z w' r' z' : Nat} (h1 : Adds s s1 w r z)
    (h2 : CommandBound s1 t w' r' z') : CommandBound s t (w + w') (r + r') (z + z') := by
  obtain ⟨u, hu, h⟩ := h2
  exact ⟨u, h1.trans hu, h⟩

theorem CommandBound.mono {s t : State} {w r z w' r' z' : Nat} (h : CommandBound s t w r z) (hw : w ≤ w')
    (hr : r ≤ r') (hz : z ≤ z') : CommandBound s t w' r' z' := by
  obtain ⟨u, hu, h⟩ := h
  exact ⟨u, hu.mono hw hr hz, h⟩

/-- The loop of a command from chunk `j` on, with a raw operation of bounds `w`, `r`, `z`. -/
theorem chunkLoop_bounded {raw : State → RawEnd} {a n w r z : Nat} {o : Op}
    (hraw : ∀ s, s.op = o → (raw s).Bounded (encodeChunk s) w r z) {fuel j : Nat} {s t : State}
    (hs : AtChunk s a n j) (ho : s.op = o) (hf : s.fsm = .chunk) (h : chunkLoop raw fuel s = .next t) :
    CommandBound s t (w * (chunkCount a n - j)) (r * (chunkCount a n - j)) (z * (chunkCount a n - j)) ∧
      t.data = s.data ∧ (o = .write → t.buf = s.buf) := by
  induction fuel generalizing s j with
  | zero =>
    simp only [chunkLoop, Host.Outcome.next.injEq] at h
    subst h
    exact ⟨⟨s, (Adds.same rfl).mono (by omega) (by omega) (by omega), Or.inl ⟨by simp [hf], rfl⟩⟩, rfl, fun _ => rfl⟩
  | succ fuel ih =>
    unfold chunkLoop at h
    split at h
    · rename_i htodo
      have hj := hs.todo.1 htodo
      obtain ⟨m, hm⟩ : ∃ m, chunkCount a n - j = m + 1 := ⟨chunkCount a n - j - 1, by omega⟩
      have hb := hraw s ho
      rw [hm]
      have hmul : ∀ x : Nat, x ≤ x * (m + 1) := fun x => Nat.le_mul_of_pos_right x (by omega)
      split at h <;> rename_i hq <;> rw [hq] at hb
      · simp only [Host.Outcome.next.injEq] at h
        subst h
        obtain ⟨h1, h2, h3, h4, h5, h6, h7, h8, h9⟩ := hb.1.of_encode
        exact ⟨⟨_, h1.mono (hmul w) (hmul r) (hmul z), Or.inl ⟨hb.2, rfl⟩⟩, h7, fun hw => h8 (ho.trans hw)⟩
      · simp at h
      · rename_i s1
        have hb : RawBound (encodeChunk s) s1 w r z := hb
        obtain ⟨h1, h2, h3, h4, h5, h6, h7, h8, h9⟩ := hb.of_encode
        have hs1 : AtChunk s1 a n j := ⟨by rw [h3]; exact hs.base, by rw [h4]; exact hs.len, by rw [h5]; exact hs.cur⟩
        have hadv : Adds s (advance s1) w r z := h1
        obtain ⟨hr, hd, hbuf⟩ := ih hs1.advance (by simp [h2, ho]) (by simp) h
        have e : chunkCount a n - (j + 1) = m := by omega
        rw [e] at hr
        refine ⟨(CommandBound.after hadv hr).mono ?_ ?_ ?_, by rw [hd]; simp [h7], fun hw => by
          rw [hbuf hw]; simp [h8 (ho.trans hw)]⟩ <;> rw [Nat.mul_succ] <;> omega
      · rename_i e s1
        simp only [Host.Outcome.next.injEq] at h
        subst h
        have hb : RawBound (encodeChunk s) s1 w r z := hb
        obtain ⟨h1, h2, h3, h4, h5, h6, h7, h8, h9⟩ := hb.of_encode
        exact ⟨⟨s1, h1.mono (hmul w) (hmul r) (hmul z), Or.inr ⟨by simp, .err e, by simp⟩⟩, by simp [h7],
          fun hw => by simp [h8 (ho.trans hw)]⟩
    · simp only [Host.Outcome.next.injEq] at h
      subst h
      exact ⟨⟨s, (Adds.same rfl).mono (by omega) (by omega) (by omega), Or.inr ⟨by simp, .ok, by simp⟩⟩, by simp,
        fun _ => by simp⟩

theorem rawWrite_bounded {s : State} (ho : s.op = .write) : (rawWrite s).Bounded (encodeChunk s) 11 0 10 :=
  rawAttempts_bounded 10 (by simpa using ho) (by simp)

theorem rawRead_bounded {s : State} (ho : s.op = .read) : (rawRead s).Bounded (encodeChunk s) 0 1 0 :=
  rawAttempts_bounded_read (by simpa using ho) (by simp)

/-- A command starts at chunk 0 of its range. -/
theorem latchCommand_atChunk (o : Op) (a : Addr) {n : Nat} (s : State) (hn : n < 2 ^ s.params.lenW) :
    AtChunk (latchCommand o a n s) a.toNat n 0 :=
  ⟨by simp, by simp [portLen, Nat.mod_eq_of_lt hn], by simp [chunkStart_zero]⟩

/-! ## When the transport answers (spec/70_reset_and_hazards.md R222) -/

theorem TransportLive.mono {n m : Nat} {s : State} (hle : n ≤ m) (h : TransportLive m s) : TransportLive n s :=
  h.imp id fun h => Nat.le_trans hle h

theorem TransportLive.of_transport {n : Nat} {s t : State} (h : TransportLive n s) (ht : t.transport = s.transport) :
    TransportLive n t := by
  unfold TransportLive
  rwa [ht]

/-- A live transport answers a request, and stays live for one request less. -/
theorem TransportLive.serve {n : Nat} {s : State} (h : TransportLive (n + 1) s) (q : Request) :
    s.transport.serve q ≠ .withheld ∧
      ∀ a t, s.transport.serve q = .answered a t → ∀ s1 : State, s1.transport = t → TransportLive n s1 := by
  rcases h with h | h
  · exact ⟨serve_device_live h q, fun a t hq s1 hs => Or.inl (by rw [hs, (serve_keeps hq).1, h])⟩
  · cases hr : s.transport.responder with
    | device => exact ⟨serve_device_live hr q, fun a t hq s1 hs => Or.inl (by rw [hs, (serve_keeps hq).1, hr])⟩
    | answers =>
      cases hl : s.transport.answers with
      | nil => simp [hl] at h
      | cons a rest =>
        rw [serve_answers hr hl]
        refine ⟨by simp, fun a' t hq s1 hs => Or.inr ?_⟩
        simp only [Served.answered.injEq] at hq
        rw [hs, ← hq.2]
        simpa [hl] using h

theorem attemptReply_live {n : Nat} {s : State} (h : TransportLive (n + 1) s) :
    attemptReply s ≠ .withheld ∧ ∀ r s1, attemptReply s = .replied r s1 → TransportLive n s1 := by
  have hl := h.serve (attemptRequest s)
  rcases attemptReply_cases s with ⟨r', _, h'⟩ | ⟨_, hq, h'⟩ | ⟨_, _, h'⟩ | ⟨a, t, _, hq, h'⟩ <;> rw [h']
  · refine ⟨by simp, fun r s1 e => ?_⟩
    simp only [Performed.replied.injEq] at e
    exact (h.mono (Nat.le_succ n)).of_transport (by rw [← e.2])
  · exact absurd hq hl.1
  · exact ⟨by simp, by simp⟩
  · refine ⟨by simp, fun r s1 e => ?_⟩
    simp only [Performed.replied.injEq] at e
    exact hl.2 a t hq s1 (by rw [← e.2, afterAnswer_transport])

theorem sleepReply_live {n : Nat} {s : State} (h : TransportLive (n + 1) s) :
    sleepReply s ≠ .withheld ∧ ∀ r s1, sleepReply s = .replied r s1 → TransportLive n s1 := by
  have hl := h.serve sleepRequest
  rcases sleepReply_cases s with ⟨r', _, h'⟩ | ⟨_, hq, h'⟩ | ⟨a, t, _, hq, h'⟩ <;> rw [h']
  · refine ⟨by simp, fun r s1 e => ?_⟩
    simp only [Performed.replied.injEq] at e
    exact (h.mono (Nat.le_succ n)).of_transport (by rw [← e.2])
  · exact absurd hq hl.1
  · refine ⟨by simp, fun r s1 e => ?_⟩
    simp only [Performed.replied.injEq] at e
    exact hl.2 a t hq s1 (by rw [← e.2])

/-- A raw operation does not wait, and leaves the transport live for `n` more requests. -/
def RawEnd.Live (n : Nat) : RawEnd → Prop
  | .waiting _ => False
  | .noMeaning => True
  | .returned _ t => TransportLive n t

theorem rawAttempts_live (left n : Nat) {s : State} (h : TransportLive (2 * left + 1 + n) s) :
    (rawAttempts left s).Live n := by
  induction left generalizing s with
  | zero =>
    have hl := attemptReply_live (n := n) (h.mono (by omega))
    unfold rawAttempts
    split
    · exact hl.1 ‹_›
    · trivial
    · exact hl.2 _ _ ‹_›
    · rename_i h1
      exact (hl.2 _ _ h1).of_transport rfl
  | succ m ih =>
    have hl := attemptReply_live (n := 2 * m + 2 + n) (h.mono (by omega))
    unfold rawAttempts
    split
    · exact hl.1 ‹_›
    · trivial
    · exact (hl.2 _ _ ‹_›).mono (by omega)
    · rename_i e s1 h1
      have hz := sleepReply_live (s := toDelay e s1) (n := 2 * m + 1 + n)
        (((hl.2 _ _ h1).mono (by omega)).of_transport rfl)
      simp only
      split
      · exact hz.1 ‹_›
      · trivial
      · rename_i h2
        exact ih ((hz.2 _ _ h2).of_transport rfl)

/-- A command whose raw operation uses at most `q` requests ends, if the transport answers `q` for each chunk left. -/
theorem chunkLoop_live {raw : State → RawEnd} {a n w r z q : Nat} {o : Op}
    (hraw : ∀ s, s.op = o → (raw s).Bounded (encodeChunk s) w r z)
    (hlive : ∀ m s, TransportLive (q + m) s → (raw s).Live m) {fuel j : Nat} {s t : State} (hs : AtChunk s a n j)
    (ho : s.op = o) (hf : chunkCount a n - j < fuel) (hl : TransportLive (q * (chunkCount a n - j)) s)
    (h : chunkLoop raw fuel s = .next t) : t.fsm = .idle := by
  induction fuel generalizing s j with
  | zero => omega
  | succ fuel ih =>
    unfold chunkLoop at h
    split at h
    · rename_i htodo
      have hj := hs.todo.1 htodo
      obtain ⟨m, hm⟩ : ∃ m, chunkCount a n - j = m + 1 := ⟨chunkCount a n - j - 1, by omega⟩
      rw [hm, Nat.mul_succ, Nat.add_comm] at hl
      have hb := hraw s ho
      have hv := hlive _ s hl
      split at h <;> rename_i hq <;> rw [hq] at hb hv
      · exact hv.elim
      · simp at h
      · rename_i s1
        have hb : RawBound (encodeChunk s) s1 w r z := hb
        obtain ⟨-, h2, h3, h4, h5, -⟩ := hb.of_encode
        have hs1 : AtChunk s1 a n j := ⟨by rw [h3]; exact hs.base, by rw [h4]; exact hs.len, by rw [h5]; exact hs.cur⟩
        have e : chunkCount a n - (j + 1) = m := by omega
        exact ih hs1.advance (by simp [h2, ho]) (by omega) (by rw [e]; exact hv.of_transport rfl) h
      · simp only [Host.Outcome.next.injEq] at h
        simp [← h]
    · simp only [Host.Outcome.next.injEq] at h
      simp [← h]

theorem rawWrite_live (m : Nat) (s : State) (h : TransportLive (21 + m) s) : (rawWrite s).Live m :=
  rawAttempts_live 10 m (h.of_transport (by simp))

theorem rawRead_live (m : Nat) (s : State) (h : TransportLive (1 + m) s) : (rawRead s).Live m :=
  rawAttempts_live 0 m (h.of_transport (by simp))

end Sys2Proof.Machine
end

