-- ==== Sys2Proof/Laws/Commands.lean ====
section
/-! SUPPORT. The two commands, chunk by chunk: what one chunk of a WRITE or a READ leaves, and the loop over the chunks. -/

namespace Sys2Proof.Machine

/-! ## Positions in the host's buffers -/

/-- Where chunk `j` starts in the host's slice; the length of the slice once every chunk is done. -/
def chunkPos (a n j : Nat) : Nat := min (chunkStart a j - a) n

theorem chunkPos_zero (a n : Nat) : chunkPos a n 0 = 0 := by simp [chunkPos, chunkStart_zero]

theorem chunkPos_of_lt {a n j : Nat} (h : j < chunkCount a n) : chunkStart a j - a = chunkPos a n j := by
  have := (chunkStart_lt_iff a n j).2 h
  have := le_chunkStart a j
  unfold chunkPos
  omega

theorem chunkPos_succ {a n j : Nat} (h : j < chunkCount a n) :
    chunkPos a n j + chunkLength a n j = chunkPos a n (j + 1) := by
  have h1 := (chunkStart_lt_iff a n j).2 h
  have h2 := le_chunkStart a j
  have h3 := le_chunkStart a (j + 1)
  have h4 := chunkStart_succ a j
  have h5 := nextChunkLen_chunkStart a n j
  rw [← h5]
  unfold chunkPos nextChunkLen Config.pageSize
  omega

theorem chunkPos_count (a n : Nat) : chunkPos a n (chunkCount a n) = n := by
  have h1 : ¬ chunkStart a (chunkCount a n) < a + n := by
    rw [chunkStart_lt_iff]
    omega
  have := le_chunkStart a (chunkCount a n)
  unfold chunkPos
  omega

theorem chunkPos_le (a n j : Nat) : chunkPos a n j ≤ n := by unfold chunkPos; omega

theorem chunkCount_le (a n : Nat) : chunkCount a n ≤ n := by
  unfold chunkCount
  split <;> omega

/-! ## What a chunk keeps -/

/-- What no chunk of a command changes, and where the block stands between chunks. -/
structure ChunkKeeps (s t : State) : Prop where
  params : t.params = s.params
  hwAddr : t.hwAddr = s.hwAddr
  op : t.op = s.op
  base : t.base = s.base
  len : t.len = s.len
  cmds : t.cmds = s.cmds
  data : t.data = s.data
  slot : t.slot = s.slot
  rsp : t.rsp = s.rsp
  result : t.result = s.result
  fsm : t.fsm = .chunk
  reply : t.reply = none

theorem ChunkKeeps.trans {s t u : State} (h1 : ChunkKeeps s t) (h2 : ChunkKeeps t u) : ChunkKeeps s u :=
  ⟨h2.params.trans h1.params, h2.hwAddr.trans h1.hwAddr, h2.op.trans h1.op, h2.base.trans h1.base,
    h2.len.trans h1.len, h2.cmds.trans h1.cmds, h2.data.trans h1.data, h2.slot.trans h1.slot,
    h2.rsp.trans h1.rsp, h2.result.trans h1.result, h2.fsm, h2.reply⟩

theorem ChunkKeeps.refl {s : State} (hf : s.fsm = .chunk) (hr : s.reply = none) : ChunkKeeps s s :=
  ⟨rfl, rfl, rfl, rfl, rfl, rfl, rfl, rfl, rfl, rfl, hf, hr⟩

theorem ChunkKeeps.dev {s t : State} (h : ChunkKeeps s t) : t.dev = s.dev := by simp [State.dev, h.hwAddr]

theorem ChunkKeeps.dataAt {s t : State} (h : ChunkKeeps s t) (i : Nat) : t.dataAt i = s.dataAt i := by
  simp [State.dataAt, h.data]

theorem chunkFrame_congr {s t : State} (h : t.data = s.data) (a n j : Nat) :
    chunkFrame t a n j = chunkFrame s a n j := by simp [chunkFrame, State.dataSlice, State.dataAt, h]

theorem acceptedGroups_congr {s t : State} (h1 : t.hwAddr = s.hwAddr) (h2 : t.data = s.data) (a n j : Nat)
    (ess : List (List Nat)) : acceptedGroups t a n j ess = acceptedGroups s a n j ess := by
  induction ess generalizing j with
  | nil => rfl
  | cons es rest ih => simp only [acceptedGroups, ih, chunkFrame_congr h2, State.dev, h1]

theorem readEvents_congr {s t : State} (h1 : t.hwAddr = s.hwAddr) (a n j : Nat) (bursts : List (List Byte)) :
    readEvents t a n j bursts = readEvents s a n j bursts := by
  induction bursts generalizing j with
  | nil => rfl
  | cons b rest ih => simp only [readEvents, ih, State.dev, h1]

/-! ## A chunk of a WRITE -/

/-- The loop takes a chunk whose raw operation succeeds. -/
theorem chunkLoop_ok {raw : State → RawEnd} {s s1 : State} (fuel : Nat) (ht : s.chunkTodo = true)
    (h : raw s = .returned .ok s1) : chunkLoop raw (fuel + 1) s = chunkLoop raw fuel (advance s1) := by
  rw [chunkLoop, if_pos ht, h]

theorem chunkLoop_err {raw : State → RawEnd} {s s1 : State} {e : Nat} (fuel : Nat) (ht : s.chunkTodo = true)
    (h : raw s = .returned (.err e) s1) : chunkLoop raw (fuel + 1) s = .next (raiseTransportError e s1) := by
  rw [chunkLoop, if_pos ht, h]

theorem chunkLoop_done {raw : State → RawEnd} {s : State} (fuel : Nat) (ht : s.chunkTodo = false) :
    chunkLoop raw (fuel + 1) s = .next (respond .ok s) := by
  rw [chunkLoop, if_neg (by simp [ht])]

theorem encodeChunk_frame_at {s : State} {a n j : Nat} (hs : AtChunk s a n j) (ho : s.op = .write) :
    (encodeChunk s).scratchTo (2 + (encodeChunk s).klen) = chunkFrame s a n j := by
  rw [show (encodeChunk s).klen = s.klen by simp, encodeChunk_frame ho, hs.frame]

/-- What a chunk of a WRITE leaves once it is accepted. -/
structure WroteChunk (s t : State) (a n j : Nat) : Prop extends ChunkKeeps s t where
  atChunk : AtChunk t a n (j + 1)
  wdata : t.wdataReqs = s.wdataReqs ++ (List.range (chunkLength a n j)).map (chunkPos a n j + ·)
  buf : t.buf = s.buf
  draws : t.draws = s.draws

/-- The transport once it has given its answers down to `l`. -/
def leftAnswers (s : State) (l : List Answer) : Transport := { s.transport with answers := l }

theorem answersFrom_of_left {s t : State} {l l' : List Answer} (h : t.transport = leftAnswers s l)
    (ha : AnswersFrom s l') : AnswersFrom t l := ⟨by rw [h]; exact ha.1, by rw [h]; rfl⟩

theorem leftAnswers_trans {s t : State} {l l' : List Answer} (h : t.transport = leftAnswers s l) :
    leftAnswers t l' = leftAnswers s l' := by
  unfold leftAnswers
  rw [h]
  rfl

/-- A chunk accepted after the failed attempts `errs`, answered from a list. -/
theorem rawWrite_accepted {s : State} {a n j : Nat} {errs : List Nat} {l : List Answer} (hs : AtChunk s a n j)
    (hj : j < chunkCount a n) (ho : s.op = .write) (hr : s.reply = none) (hfew : FewErrors s.params errs)
    (ha : AnswersFrom s (acceptAfter errs ++ l)) :
    ∃ s1, rawWrite s = .returned .ok s1 ∧ WroteChunk s (advance s1) a n j ∧
      s1.trace = s.trace ++ acceptedGroup s.dev (chunkFrame s a n j) errs ∧
      (advance s1).transport = leftAnswers s l := by
  have h := rawAttempts_accepted (s := encodeChunk s) (errs := errs) (l := l) (left := 10) hfew.1 (by simpa using ho)
    (by simpa using hr) (by simp) (by simpa using hfew.2) (by simpa [AnswersFrom] using ha)
  rw [encodeChunk_frame_at hs ho] at h
  refine ⟨_, h, ⟨⟨?_, ?_, ?_, ?_, ?_, ?_, ?_, ?_, ?_, ?_, by simp, ?_⟩, ?_, ?_, ?_, ?_⟩, ?_, ?_⟩
  all_goals first
    | (simp [afterFailures, answered, leftAnswers]; done)
    | skip
  · simpa [afterFailures, answered] using hr
  · refine AtChunk.advance ⟨?_, ?_, ?_⟩
    · simpa [afterFailures, answered] using hs.base
    · simpa [afterFailures, answered] using hs.len
    · simpa [afterFailures, answered] using hs.cur
  · simp [afterFailures, answered, encodeChunk_wdataReqs_write ho, hs.klen, hs.rel, chunkPos_of_lt hj]

/-- A chunk whose every attempt fails, answered from a list. -/
theorem rawWrite_exhausted {s : State} {a n j : Nat} {errs : List Nat} {e : Nat} {l : List Answer}
    (hs : AtChunk s a n j) (ho : s.op = .write) (hr : s.reply = none) (hlen : errs.length = 10)
    (hfew : FewErrors s.params errs) (he : e < 2 ^ s.params.errW)
    (ha : AnswersFrom s (failAnswers errs ++ .err e :: l)) :
    ∃ s1, rawWrite s = .returned (.err e) s1 ∧
      s1.trace = s.trace ++ failedAttempts s.dev (chunkFrame s a n j) errs ++
        [.write s.dev (chunkFrame s a n j) (.err e)] ∧
      s1.transport = leftAnswers s l ∧ s1.wdataReqs = s.wdataReqs ++ (List.range s.klen).map (s.rel + ·) ∧
      s1 = { s with
        scratch := s1.scratch
        fsm := .attempt
        retries := 10
        err := e
        wdataReqs := s1.wdataReqs
        transport := s1.transport
        trace := s1.trace } := by
  have h := rawAttempts_exhausted (s := encodeChunk s) (errs := errs) (e := e) (l := l) (by simpa using ho)
    (by simpa using hr) (by simp) (by simpa using hfew.2) (by simpa using he) (by simpa [AnswersFrom] using ha)
  rw [encodeChunk_frame_at hs ho, hlen] at h
  refine ⟨_, h, by simp, by simp [afterFailures, answered, leftAnswers], ?_, ?_⟩
  · simp [afterFailures, answered, encodeChunk_wdataReqs_write ho]
  · apply State.ext <;> simp [afterFailures, answered, hlen]

/-- The chunks `j, j + 1, ...` of a WRITE, one for each list of failed attempts, all accepted. -/
theorem writeLoop_prefix {a n : Nat} {ess : List (List Nat)} {l : List Answer} (fuel : Nat) {s : State} {j : Nat}
    (hs : AtChunk s a n j) (hj : j + ess.length ≤ chunkCount a n) (hf : s.fsm = .chunk) (ho : s.op = .write)
    (hr : s.reply = none) (hw : s.wdataReqs = List.range (chunkPos a n j))
    (hfew : ∀ es ∈ ess, FewErrors s.params es) (ha : AnswersFrom s (ess.flatMap acceptAfter ++ l)) :
    ∃ t, chunkLoop rawWrite (ess.length + fuel) s = chunkLoop rawWrite fuel t ∧ ChunkKeeps s t ∧
      AtChunk t a n (j + ess.length) ∧ t.trace = s.trace ++ acceptedGroups s a n j ess ∧ t.buf = s.buf ∧
      t.wdataReqs = List.range (chunkPos a n (j + ess.length)) ∧ t.transport = leftAnswers s l ∧
      t.draws = s.draws := by
  induction ess generalizing s j with
  | nil =>
    exact ⟨s, by simp, ChunkKeeps.refl hf hr, by simpa using hs, by simp [acceptedGroups], rfl, by simpa using hw,
      by rw [leftAnswers, ← show s.transport.answers = l by simpa using ha.2], rfl⟩
  | cons es rest ih =>
    simp only [List.length_cons] at hj
    have hj' : j < chunkCount a n := by omega
    obtain ⟨s1, h1, hk, htr, hans⟩ := rawWrite_accepted (l := rest.flatMap acceptAfter ++ l) hs hj' ho hr
      (hfew es (by simp)) (by simpa using ha)
    have htodo := hs.todo.2 hj'
    have hwd : (advance s1).wdataReqs = List.range (chunkPos a n (j + 1)) := by
      rw [hk.wdata, hw, ← chunkPos_succ hj', List.range_add]
    obtain ⟨t, g1, g2, g3, g4, g5, g6, g7, g8⟩ := ih hk.atChunk (by omega) hk.fsm (hk.op.trans ho) hk.reply hwd
      (fun x hx => by rw [hk.params]; exact hfew x (by simp [hx])) (answersFrom_of_left hans ha)
    refine ⟨t, ?_, hk.toChunkKeeps.trans g2, ?_, ?_, g5.trans hk.buf, ?_, g7.trans (leftAnswers_trans hans),
      g8.trans hk.draws⟩
    · rw [List.length_cons, show rest.length + 1 + fuel = rest.length + fuel + 1 by omega, chunkLoop_ok _ htodo h1, g1]
    · rw [List.length_cons, show j + (rest.length + 1) = j + 1 + rest.length by omega]
      exact g3
    · rw [g4, acceptedGroups_congr hk.hwAddr hk.data, advance_trace, htr]
      simp [acceptedGroups]
    · rw [List.length_cons, show j + (rest.length + 1) = j + 1 + rest.length by omega]
      exact g6

/-! ## A chunk of a READ -/

/-- What a chunk of a READ leaves once it is answered with the bytes `bs`. -/
structure ReadChunk (s t : State) (a n j : Nat) (bs : List Byte) : Prop extends ChunkKeeps s t where
  atChunk : AtChunk t a n (j + 1)
  trace : t.trace = s.trace ++
    [.writeRead s.dev (headerBytes (BitVec.ofNat 16 (chunkStart a j))) (chunkLength a n j) (.ok bs)]
  inside : t.bufSlice (chunkPos a n j) (chunkLength a n j) = bs
  outside : ∀ i, i < chunkPos a n j ∨ chunkPos a n (j + 1) ≤ i → t.bufAt i = s.bufAt i
  err : t.err = s.err
  wdata : t.wdataReqs = s.wdataReqs

theorem encodeChunk_header_at {s : State} {a n j : Nat} (hs : AtChunk s a n j) :
    (encodeChunk s).scratchTo 2 = headerBytes (BitVec.ofNat 16 (chunkStart a j)) := by
  rw [encodeChunk_header, State.curAddr, hs.cur]

/-- A chunk of a READ whose transaction is answered with the bytes `bs`, by whatever transport. -/
theorem rawRead_answered {s : State} {a n j : Nat} {bs : List Byte} {tr : Transport} (hs : AtChunk s a n j)
    (hj : j < chunkCount a n) (ho : s.op = .read) (hr : s.reply = none) (hb : bs.length = chunkLength a n j)
    (h : s.transport.serve (readRequest (encodeChunk s)) = .answered (.ok bs) tr) :
    ∃ s1, rawRead s = .returned .ok s1 ∧ ReadChunk s (advance s1) a n j bs ∧ (advance s1).transport = tr := by
  have hro : (encodeChunk s).op = .read := by simpa using ho
  have hk : (encodeChunk s).klen = chunkLength a n j := by rw [show (encodeChunk s).klen = s.klen by simp, hs.klen]
  have hrel : (encodeChunk s).rel = chunkPos a n j := by
    rw [show (encodeChunk s).rel = s.rel by simp, hs.rel, chunkPos_of_lt hj]
  have hbs : received (encodeChunk s).draws (chunkLength a n j) bs = bs := by rw [← hb, received_eq]
  have h1 := attemptReply_answered (s := encodeChunk s) (a := .ok bs) (t := tr) (by simpa using hr)
    (by rw [attemptRequest_read hro]; simpa using h)
  rw [afterAnswer_read hro] at h1
  simp only [burst, recorded, encodeChunk_header_at hs, hk, hrel, replyOf, hbs] at h1
  refine ⟨_, rawAttempts_zero_ok h1, ⟨⟨?_, ?_, ?_, ?_, ?_, ?_, ?_, ?_, ?_, ?_, by simp, ?_⟩, ?_, ?_, ?_, ?_, ?_, ?_⟩, ?_⟩
  all_goals first
    | (simp [encodeChunk_wdataReqs_read ho]; done)
    | skip
  · simpa using hr
  · exact AtChunk.advance ⟨by simpa using hs.base, by simpa using hs.len, by simpa using hs.cur⟩
  · have e : ∀ t : State, t.buf = storeBuf s.buf (chunkPos a n j) bs → t.bufSlice (chunkPos a n j) bs.length = bs :=
      fun t ht => bufSlice_storeBuf (s := s) ht
    rw [← hb]
    exact e _ (by simp)
  · intro i hi
    refine bufAt_storeBuf_outside (s := s) (dst := chunkPos a n j) (bs := bs) (by simp) ?_
    have := chunkPos_succ hj
    omega

/-- The chunks `j, j + 1, ...` of a READ, one for each burst, all answered from a list. -/
theorem readLoop_prefix {a n : Nat} {bursts : List (List Byte)} {l : List Answer} (fuel : Nat) {s : State} {j : Nat}
    (hs : AtChunk s a n j) (hj : j + bursts.length ≤ chunkCount a n) (hf : s.fsm = .chunk) (ho : s.op = .read)
    (hr : s.reply = none) (hb : BurstsFit a n j bursts) (ha : AnswersFrom s (bursts.map .ok ++ l)) :
    ∃ t, chunkLoop rawRead (bursts.length + fuel) s = chunkLoop rawRead fuel t ∧ ChunkKeeps s t ∧
      AtChunk t a n (j + bursts.length) ∧ t.trace = s.trace ++ readEvents s a n j bursts ∧
      chunkPos a n j + bursts.flatten.length = chunkPos a n (j + bursts.length) ∧
      t.bufSlice (chunkPos a n j) bursts.flatten.length = bursts.flatten ∧
      (∀ i, i < chunkPos a n j ∨ chunkPos a n (j + bursts.length) ≤ i → t.bufAt i = s.bufAt i) ∧
      t.transport = leftAnswers s l ∧ t.err = s.err ∧ t.wdataReqs = s.wdataReqs := by
  induction bursts generalizing s j with
  | nil =>
    exact ⟨s, by simp, ChunkKeeps.refl hf hr, by simpa using hs, by simp [readEvents], by simp,
      by simp [State.bufSlice], fun _ _ => rfl,
      by rw [leftAnswers, ← show s.transport.answers = l by simpa using ha.2], rfl, rfl⟩
  | cons b rest ih =>
    simp only [List.length_cons] at hj
    have hj' : j < chunkCount a n := by omega
    have hserve := serve_answers (a := .ok b) (l := rest.map .ok ++ l) ha.1 (by simpa using ha.2)
      (readRequest (encodeChunk s))
    obtain ⟨s1, h1, hk, htr⟩ := rawRead_answered hs hj' ho hr hb.1 hserve
    have hans : (advance s1).transport = leftAnswers s (rest.map .ok ++ l) := htr
    have htodo := hs.todo.2 hj'
    obtain ⟨t, g1, g2, g3, g4, g5, g6, g7, g8, g9, g10⟩ := ih hk.atChunk (by omega) hk.fsm (hk.op.trans ho) hk.reply
      hb.2 (answersFrom_of_left hans ha)
    have hpos := chunkPos_succ hj'
    have hidx : j + (rest.length + 1) = j + 1 + rest.length := by omega
    rw [List.length_cons, hidx]
    refine ⟨t, ?_, hk.toChunkKeeps.trans g2, g3, ?_, ?_, ?_, ?_, g8.trans (leftAnswers_trans hans), g9.trans hk.err,
      g10.trans hk.wdata⟩
    · rw [show rest.length + 1 + fuel = rest.length + fuel + 1 by omega, chunkLoop_ok _ htodo h1, g1]
    · rw [g4, readEvents_congr hk.hwAddr, hk.trace]
      simp [readEvents]
    · simp only [List.flatten_cons, List.length_append, hb.1]
      omega
    · rw [List.flatten_cons, List.length_append, ← bufSlice_append, hb.1, hpos, g6]
      congr 1
      rw [← hk.inside]
      exact bufSlice_congr fun i hi => g7 _ (Or.inl (by omega))
    · intro i hi
      have h2 : t.bufAt i = (advance s1).bufAt i := g7 i (by omega)
      rw [h2]
      exact hk.outside i (by omega)

/-- A chunk of a READ whose transaction fails, answered from a list. -/
theorem rawRead_failed {s : State} {a n j : Nat} {e : Nat} {l : List Answer} (hs : AtChunk s a n j)
    (hj : j < chunkCount a n) (ho : s.op = .read) (hr : s.reply = none) (he : e < 2 ^ s.params.errW)
    (ha : AnswersFrom s (.err e :: l)) :
    ∃ s1, rawRead s = .returned (.err e) s1 ∧
      s1.trace = s.trace ++ [.writeRead s.dev (headerBytes (BitVec.ofNat 16 (chunkStart a j))) (chunkLength a n j)
        (.err e)] ∧
      (∀ i, i < chunkPos a n j ∨ chunkPos a n (j + 1) ≤ i → s1.bufAt i = s.bufAt i) ∧
      s1.transport = leftAnswers s l ∧
      s1 = { s with
        scratch := s1.scratch
        fsm := .attempt
        retries := 0
        err := e
        buf := s1.buf
        draws := s1.draws
        transport := s1.transport
        trace := s1.trace } := by
  have h := rawAttempts_read_err (s := encodeChunk s) (e := e) (l := l) (by simpa using ho) (by simpa using hr)
    (by simpa using he) (by simpa [AnswersFrom] using ha)
  have hk : (encodeChunk s).klen = chunkLength a n j := by rw [show (encodeChunk s).klen = s.klen by simp, hs.klen]
  have hrel : (encodeChunk s).rel = chunkPos a n j := by
    rw [show (encodeChunk s).rel = s.rel by simp, hs.rel, chunkPos_of_lt hj]
  rw [encodeChunk_header_at hs, hk, hrel] at h
  refine ⟨_, h, by simp [answered], ?_, by simp [answered, leftAnswers], by
    apply State.ext <;> simp [answered, encodeChunk_wdataReqs_read ho]⟩
  intro i hi
  refine bufAt_storeBuf_outside (s := s) (dst := chunkPos a n j)
    (bs := received (encodeChunk s).draws (chunkLength a n j) []) (by simp) ?_
  have := chunkPos_succ hj
  simp only [received_length]
  omega

end Sys2Proof.Machine
end

