-- ==== Sys2Proof/Laws/PerInstr.lean ====
section
/-! SUPPORT. One lemma per operation: how many bytes its encoding has (spec/30_encoding.md R80 to R89). -/

namespace Sys2Proof.Laws.EncodedLength

open Sys2Proof

/-- The encoding of a well-formed operation is never empty; a command word has `ceil((17 + LEN_W) / 8)` bytes (R84), every
other format at most the 34 of the longest write frame (R82). -/
def Statement (i : Instr) : Prop :=
  ∀ lenW : Nat, i.wf lenW = true →
    1 ≤ (Sys2Proof.encode lenW i).length ∧
    (Sys2Proof.encode lenW i).length ≤ (if formatOf lenW i = .command lenW then commandBytes lenW else 34)

theorem command_length (lenW : Nat) (o : Op) (a : Addr) (n : Nat) :
    (encodeCommand lenW o a n).length = commandBytes lenW := beBytes_length _ _

theorem commandBytes_pos (lenW : Nat) : 1 ≤ commandBytes lenW := by unfold commandBytes; omega

theorem write (a : Addr) (n : Nat) : Statement (.write a n) := fun w _ => by
  simp [Sys2Proof.encode, formatOf, command_length, commandBytes_pos w]

theorem read (a : Addr) (n : Nat) : Statement (.read a n) := fun w _ => by
  simp [Sys2Proof.encode, formatOf, command_length, commandBytes_pos w]

theorem nextChunk (c : BitVec 5) : Statement (.nextChunk c) := fun _ _ => by
  simp [Sys2Proof.encode, formatOf]

theorem encHdr (a : Addr) : Statement (.encHdr a) := fun _ _ => by
  simp [Sys2Proof.encode, formatOf, headerBytes]

theorem loadPayload (ds : List Byte) : Statement (.loadPayload ds) := fun _ h => by
  simp only [Instr.wf, payloadLenOk, decide_eq_true_eq] at h
  simp [Sys2Proof.encode, formatOf]; omega

theorem devAddr (h : BitVec 3) : Statement (.devAddr h) := fun _ _ => by
  simp [Sys2Proof.encode, formatOf]

theorem rawWrite (f : Fsm) : Statement (.rawWrite f) := fun _ _ => by
  simp [Sys2Proof.encode, formatOf]

theorem rawRead (f : Fsm) : Statement (.rawRead f) := fun _ _ => by
  simp [Sys2Proof.encode, formatOf]

theorem trWrite : Statement .trWrite := fun _ _ => by
  simp [Sys2Proof.encode, formatOf]

theorem trWriteRead : Statement .trWriteRead := fun _ _ => by
  simp [Sys2Proof.encode, formatOf]

theorem trSleep : Statement .trSleep := fun _ _ => by
  simp [Sys2Proof.encode, formatOf]

theorem wframe (a : Addr) (ds : List Byte) : Statement (.wframe a ds) := fun _ h => by
  simp only [Instr.wf, payloadLenOk, Bool.and_eq_true, decide_eq_true_eq] at h
  simp [Sys2Proof.encode, formatOf, headerBytes]; omega

theorem rframe (a : Addr) : Statement (.rframe a) := fun _ _ => by
  simp [Sys2Proof.encode, formatOf, headerBytes]

theorem accept (o : Op) : Statement (.accept o) := fun _ _ => by
  simp [Sys2Proof.encode, formatOf, encodeSeq]

theorem chunkDone (o : Op) : Statement (.chunkDone o) := fun _ _ => by
  simp [Sys2Proof.encode, formatOf, encodeSeq]

theorem chunkNext (o : Op) : Statement (.chunkNext o) := fun _ _ => by
  simp [Sys2Proof.encode, formatOf, encodeSeq]

theorem encode (o : Op) : Statement (.encode o) := fun _ _ => by
  simp [Sys2Proof.encode, formatOf, encodeSeq]

theorem attemptOk (o : Op) : Statement (.attemptOk o) := fun _ _ => by
  simp [Sys2Proof.encode, formatOf, encodeSeq]

theorem attemptRetry : Statement .attemptRetry := fun _ _ => by
  simp [Sys2Proof.encode, formatOf, encodeSeq]

theorem attemptFail (o : Op) : Statement (.attemptFail o) := fun _ _ => by
  simp [Sys2Proof.encode, formatOf, encodeSeq]

theorem delay : Statement .delay := fun _ _ => by
  simp [Sys2Proof.encode, formatOf, encodeSeq]

end Sys2Proof.Laws.EncodedLength
end

