-- ==== Sys2Proof/Laws/Reference.lean ====
section
/-! SUPPORT. The block against the reference device (spec/20_memory.md R70): a raw write whose write cycle ends within the retry
budget is accepted, a WRITE reaches the device, a READ returns it, and an absent device fails every attempt. -/

namespace Sys2Proof.Machine

/-- What a raw write of the chunk at the cursor does not change. -/
structure RawSame (s t : State) : Prop where
  params : t.params = s.params
  hwAddr : t.hwAddr = s.hwAddr
  op : t.op = s.op
  base : t.base = s.base
  len : t.len = s.len
  cur : t.cur = s.cur
  cmds : t.cmds = s.cmds
  data : t.data = s.data
  slot : t.slot = s.slot
  buf : t.buf = s.buf
  wdataReqs : t.wdataReqs = s.wdataReqs
  scratch : t.scratch = s.scratch
  rsp : t.rsp = s.rsp
  result : t.result = s.result
  responder : t.transport.responder = s.transport.responder
  strap : t.transport.device.strap = s.transport.device.strap
  reply : t.reply = none

theorem RawSame.trans {s t u : State} (h1 : RawSame s t) (h2 : RawSame t u) : RawSame s u :=
  ⟨h2.params.trans h1.params, h2.hwAddr.trans h1.hwAddr, h2.op.trans h1.op, h2.base.trans h1.base,
    h2.len.trans h1.len, h2.cur.trans h1.cur, h2.cmds.trans h1.cmds, h2.data.trans h1.data, h2.slot.trans h1.slot,
    h2.buf.trans h1.buf, h2.wdataReqs.trans h1.wdataReqs, h2.scratch.trans h1.scratch,
    h2.rsp.trans h1.rsp, h2.result.trans h1.result,
    h2.responder.trans h1.responder, h2.strap.trans h1.strap, h2.reply⟩

theorem RawSame.of_attempt {s s1 : State} {r : Reply} (ho : s.op = .write) (h : attemptReply s = .replied r s1) :
    RawSame s s1 :=
  have hs := attemptReply_same h
  have hk := attemptReply_keeps h
  ⟨hs.params, hs.hwAddr, hs.op, hs.base, hs.len, hs.cur, hs.cmds, hs.data, hs.slot, attemptReply_buf ho h,
    hs.wdataReqs, hs.scratch, hs.rsp, hs.result, hk.responder, hk.strap, hs.reply⟩

theorem RawSame.of_sleep {s s1 : State} {r : Reply} (h : sleepReply s = .replied r s1) : RawSame s s1 :=
  have hs := sleepReply_same h
  have hk := sleepReply_keeps h
  ⟨hs.params, hs.hwAddr, hs.op, hs.base, hs.len, hs.cur, hs.cmds, hs.data, hs.slot, sleepReply_buf h,
    hs.wdataReqs, hs.scratch, hs.rsp, hs.result, hk.responder, hk.strap, hs.reply⟩

theorem RawSame.toDelay {s : State} (hr : s.reply = none) (e : Nat) : RawSame s (Machine.toDelay e s) :=
  ⟨rfl, rfl, rfl, rfl, rfl, rfl, rfl, rfl, rfl, rfl, rfl, rfl, rfl, rfl, rfl, rfl, hr⟩

theorem RawSame.afterDelay {s : State} (hr : s.reply = none) : RawSame s (Machine.afterDelay s) :=
  ⟨rfl, rfl, rfl, rfl, rfl, rfl, rfl, rfl, rfl, rfl, rfl, rfl, rfl, rfl, rfl, rfl, hr⟩

theorem RawSame.klen {s t : State} (h : RawSame s t) : t.klen = s.klen := by
  simp [State.klen, State.toGo, State.endp, h.cur, h.base, h.len]

theorem RawSame.endp {s t : State} (h : RawSame s t) : t.endp = s.endp := by simp [State.endp, h.base, h.len]

theorem RawSame.rel {s t : State} (h : RawSame s t) : t.rel = s.rel := by simp [State.rel, h.cur, h.base]

theorem RawSame.chunkData {s t : State} (h : RawSame s t) : t.chunkData = s.chunkData := by
  simp [State.chunkData, State.dataAt, h.klen, h.rel, h.data]

theorem RawSame.curAddr {s t : State} (h : RawSame s t) : t.curAddr = s.curAddr := by simp [State.curAddr, h.cur]

theorem RawSame.dev {s t : State} (h : RawSame s t) : t.dev = s.dev := by simp [State.dev, h.hwAddr]

theorem RawSame.scratchTo {s t : State} (h : RawSame s t) (n : Nat) : t.scratchTo n = s.scratchTo n := by
  simp [State.scratchTo, h.scratch]

/-- The sleep of the reference device: time passes. -/
theorem sleepReply_device {s : State} (hr : s.reply = none) (hd : s.transport.responder = .device) :
    sleepReply s = .replied .ok { s with
      transport := { s.transport with device := s.transport.device.tick }
      trace := s.trace ++ [.sleep 1] } := by
  have e : sleepReply s = performSleep s := by simp [sleepReply, hr]
  rw [e]
  exact performSleep_answered (a := .ok []) (serve_device hd rfl)

/-- A frame of the block stands in the scratch buffer, ready for the reference device. -/
structure DeviceFrame (s : State) : Prop where
  fsm : s.fsm = .attempt
  op : s.op = .write
  reply : s.reply = none
  responder : s.transport.responder = .device
  frame : s.scratchTo (2 + s.klen) = headerBytes s.curAddr ++ s.chunkData

theorem DeviceFrame.next {s s2 : State} (h : DeviceFrame s) (hs : RawSame s s2) :
    DeviceFrame (afterDelay s2) where
  fsm := rfl
  op := hs.op.trans h.op
  reply := hs.reply
  responder := hs.responder.trans h.responder
  frame := by
    have := h.frame
    rw [← hs.klen, ← hs.scratchTo, ← hs.curAddr, ← hs.chunkData] at this
    simpa using this

/-- More units of sleep allowed, the same attempt. -/
theorem acceptedAt_mono {left left' : Nat} (hle : left ≤ left') {busy : Bool} {finish rest : List Bool}
    (h : acceptedAt left busy finish = some rest) : acceptedAt left' busy finish = some rest := by
  induction left generalizing left' busy finish with
  | zero =>
    unfold acceptedAt at h ⊢
    split at h
    · simp at h
    · rename_i hb
      rwa [if_neg hb]
  | succ n ih =>
    obtain ⟨m, rfl⟩ : ∃ m, left' = m + 1 := ⟨left' - 1, by omega⟩
    unfold acceptedAt at h ⊢
    split at h
    · rename_i hb
      rw [if_pos hb]
      exact ih (by omega) h
    · rename_i hb
      rwa [if_neg hb]

/-- A device that is not in a write cycle at the attempt takes the frame: one entry of the schedule is used. -/
theorem acceptedAt_taken {left : Nat} {d : Device} {rest : List Bool} (hnb : d.tick.busy = false)
    (h : acceptedAt left d.busy d.finish = some rest) : d.finish.tail = rest := by
  rw [tick_busy] at hnb
  unfold acceptedAt at h
  rw [if_neg (by rw [hnb]; exact Bool.false_ne_true)] at h
  exact Option.some.inj h

/-- A device that is in a write cycle at the attempt refuses it: the attempt and the sleep use one entry each. -/
theorem acceptedAt_refused {left : Nat} {d : Device} {rest : List Bool} (hb : d.tick.busy = true)
    (h : acceptedAt (left + 1) d.busy d.finish = some rest) :
    acceptedAt left d.tick.tick.busy d.tick.tick.finish = some rest := by
  unfold acceptedAt at h
  rw [if_pos (by rw [← tick_busy]; exact hb)] at h
  rw [tick_busy, hb, tick_finish, tick_finish, tick_finish, Bool.true_and]
  exact h

theorem cyclesEnd_mono {b b' n : Nat} (hle : b ≤ b') {busy : Bool} {finish : List Bool} (h : cyclesEnd b n busy finish) :
    cyclesEnd b' n busy finish := by
  induction n generalizing busy finish with
  | zero => trivial
  | succ n ih =>
    obtain ⟨rest, h1, h2⟩ := h
    exact ⟨rest, acceptedAt_mono hle h1, ih h2⟩

/-- A raw write accepted by the reference device: the attempt at which it takes the frame comes within the retries left. -/
theorem rawAttempts_device (left : Nat) {s : State} {rest : List Bool} (h : DeviceFrame s)
    (hst : s.transport.device.strap = s.hwAddr) (h1 : s.base.toNat ≤ s.cur) (h2 : s.cur < s.endp)
    (hr : s.endp ≤ 8192)
    (hb : acceptedAt left s.transport.device.busy s.transport.device.finish = some rest) :
    ∃ s1, rawAttempts left s = .returned .ok s1 ∧ RawSame s s1 ∧
      s1.transport.device.mem = s.transport.device.mem.writeBytes s.cur s.chunkData ∧
      s1.transport.device.finish = rest ∧ s1.transport.device.busy = true := by
  induction left generalizing s with
  | zero =>
    have hq := serve_writeRequest h.responder h.frame h1 h2 hr
    have hnb : s.transport.device.tick.busy = false := by
      rw [tick_busy]
      unfold acceptedAt at hb
      split at hb
      · simp at hb
      · rename_i hx
        exact Bool.not_eq_true _ ▸ hx
    rw [if_neg (by simpa using hst), if_neg (by simp [hnb])] at hq
    have ha := attemptReply_answered h.reply (by rw [attemptRequest_write h.op]; exact hq)
    exact ⟨_, rawAttempts_zero_ok ha, RawSame.of_attempt h.op ha, by simp,
      by simp [tick_finish, acceptedAt_taken hnb hb], by simp⟩
  | succ n ih =>
    have hq := serve_writeRequest h.responder h.frame h1 h2 hr
    rw [if_neg (by simpa using hst)] at hq
    by_cases hnb : s.transport.device.tick.busy = false
    · rw [if_neg (by simp [hnb])] at hq
      have ha := attemptReply_answered h.reply (by rw [attemptRequest_write h.op]; exact hq)
      refine ⟨_, ?_, RawSame.of_attempt h.op ha, by simp, by simp [tick_finish, acceptedAt_taken hnb hb], by simp⟩
      unfold rawAttempts
      rw [ha]
      rfl
    · rw [if_pos (by simpa using hnb)] at hq
      have ha := attemptReply_answered h.reply (by rw [attemptRequest_write h.op]; exact hq)
      have hsm := RawSame.of_attempt h.op ha
      generalize hs1 : afterAnswer s (.err s.transport.device.eNack)
        { s.transport with device := s.transport.device.tick } = s1 at ha hsm
      have htr1 : s1.transport.device = s.transport.device.tick := by rw [← hs1]; simp
      have hd1 : s1.transport.responder = .device := hsm.responder.trans h.responder
      have hz := sleepReply_device (s := toDelay (portErr s.params s.transport.device.eNack) s1) hsm.reply hd1
      have hsm2 := (hsm.trans (RawSame.toDelay hsm.reply (portErr s.params s.transport.device.eNack))).trans
        (RawSame.of_sleep hz)
      generalize hs2 : ({ toDelay (portErr s.params s.transport.device.eNack) s1 with
        transport := { (toDelay (portErr s.params s.transport.device.eNack) s1).transport with
          device := (toDelay (portErr s.params s.transport.device.eNack) s1).transport.device.tick }
        trace := (toDelay (portErr s.params s.transport.device.eNack) s1).trace ++ [.sleep 1] } : State) = s2
        at hz hsm2
      have htr2 : s2.transport.device = s.transport.device.tick.tick := by
        rw [← hs2]
        show s1.transport.device.tick = _
        rw [htr1]
      have hsm3 := hsm2.trans (RawSame.afterDelay hsm2.reply)
      have hstep : rawAttempts (n + 1) s = rawAttempts n (afterDelay s2) := by
        rw [rawAttempts, ha]
        show (match sleepReply (toDelay (portErr s.params s.transport.device.eNack) s1) with
          | .withheld => RawEnd.waiting (toDelay (portErr s.params s.transport.device.eNack) s1)
          | .noMeaning => .noMeaning
          | .replied _ s2 => rawAttempts n (afterDelay s2)) = _
        rw [hz]
      have hdev : (afterDelay s2).transport.device = s.transport.device.tick.tick := htr2
      have hb2 := acceptedAt_refused (Bool.not_eq_false _ ▸ hnb) hb
      obtain ⟨s3, g1, g2, g3, g4, g5⟩ := ih (h.next hsm2) (by rw [hsm3.strap, hsm3.hwAddr]; exact hst)
        (by rw [hsm3.base, hsm3.cur]; exact h1) (by rw [hsm3.cur, hsm3.endp]; exact h2) (by rw [hsm3.endp]; exact hr)
        (by rw [hdev]; exact hb2)
      refine ⟨s3, hstep.trans g1, hsm3.trans g2, ?_, g4, g5⟩
      rw [g3, hdev, tick_mem, tick_mem, hsm3.cur, hsm3.chunkData]

/-- The scratch buffer after ENCODE of a write holds the frame for the reference device. -/
theorem encodeChunk_deviceFrame {s : State} (ho : s.op = .write) (hr : s.reply = none)
    (hd : s.transport.responder = .device) : DeviceFrame (encodeChunk s) where
  fsm := by simp
  op := by simpa using ho
  reply := by simpa using hr
  responder := by simpa using hd
  frame := by
    have e1 : (encodeChunk s).klen = s.klen := by simp
    have e2 : (encodeChunk s).curAddr = s.curAddr := by simp
    have e3 : (encodeChunk s).chunkData = s.chunkData := by simp
    rw [e1, e2, e3]
    exact encodeChunk_frame ho

/-- Chunks `j, j + 1, ..., N - 1` of a WRITE to the reference device. -/
theorem writeLoop_device {a n : Nat} (m fuel : Nat) {s : State} {j : Nat} (hs : AtChunk s a n j)
    (hj : j + m = chunkCount a n) (hin : a + n ≤ 8192) (hf : s.fsm = .chunk) (ho : s.op = .write)
    (hr : s.reply = none) (hd : s.transport.responder = .device) (hst : s.transport.device.strap = s.hwAddr)
    (hw : s.transport.device.mem.wf = true) (hc : CycleBounded 10 m s.transport.device) :
    ∃ t, chunkLoop rawWrite (m + fuel) s = chunkLoop rawWrite fuel t ∧ ChunkKeeps s t ∧ t.chunkTodo = false ∧
      t.transport.responder = .device ∧ t.transport.device.strap = s.transport.device.strap ∧ t.buf = s.buf ∧
      t.transport.device.mem.wf = true ∧
      (∀ i, chunkPos a n j ≤ i → i < n → t.transport.device.mem.read (a + i) = s.dataAt i) ∧
      (∀ x, x < a + chunkPos a n j ∨ a + n ≤ x →
        t.transport.device.mem.read x = s.transport.device.mem.read x) := by
  induction m generalizing s j with
  | zero =>
    have hdone : s.chunkTodo = false := by
      have := hs.todo
      rw [show j = chunkCount a n by omega] at this
      simpa using this
    refine ⟨s, by simp, ChunkKeeps.refl hf hr, hdone, hd, rfl, rfl, hw, ?_, fun _ _ => rfl⟩
    intro i h1 h2
    rw [show j = chunkCount a n by omega, chunkPos_count] at h1
    omega
  | succ m ih =>
    have hj' : j < chunkCount a n := by omega
    have htodo := hs.todo.2 hj'
    have hlt := chunkTodo_iff.1 htodo
    have hbase : s.base.toNat ≤ s.cur := by rw [hs.base, hs.cur]; exact le_chunkStart a j
    have hend : s.endp ≤ 8192 := by rw [hs.endp]; exact hin
    obtain ⟨rest, hc1, hc2⟩ := hc
    obtain ⟨s1, g1, g2, g3, g4, g5⟩ := rawAttempts_device 10 (encodeChunk_deviceFrame ho hr hd)
      (by simpa using hst) (by simpa using hbase) (by simpa [State.endp] using hlt) (by simpa [State.endp] using hend)
      (by simpa using hc1)
    have e1 : (encodeChunk s).chunkData = s.chunkData := by simp
    have e2 : (encodeChunk s).cur = s.cur := by simp
    have e3 : (encodeChunk s).transport = s.transport := by simp
    rw [e1, e2, e3] at g3
    have hk : ChunkKeeps s (advance s1) :=
      ⟨by simp [g2.params], by simp [g2.hwAddr], by simp [g2.op], by simp [g2.base], by simp [g2.len],
        by simp [g2.cmds], by simp [g2.data], by simp [g2.slot], by simp [g2.rsp], by simp [g2.result], by simp,
        by simp [g2.reply]⟩
    have hat : AtChunk (advance s1) a n (j + 1) := AtChunk.advance
      ⟨by rw [g2.base]; simpa using hs.base, by rw [g2.len]; simpa using hs.len, by rw [g2.cur]; simpa using hs.cur⟩
    have hmem : (advance s1).transport.device.mem = s.transport.device.mem.writeBytes s.cur s.chunkData := g3
    have hcb : CycleBounded 10 m (advance s1).transport.device := by
      simpa [CycleBounded, g4, g5] using hc2
    obtain ⟨t, i1, i2, i3, i4, i5, i6, i7, i8, i9⟩ := ih hat (by omega) hk.fsm (hk.op.trans ho) hk.reply
      (by simp [g2.responder, hd]) (by rw [hk.hwAddr, ← hst]; simp [g2.strap])
      (by rw [hmem]; exact Memory.writeBytes_wf hw _ _) hcb
    have hpos := chunkPos_succ hj'
    have hcur : s.cur = a + chunkPos a n j := by
      rw [hs.cur, ← chunkPos_of_lt hj']
      have := le_chunkStart a j
      omega
    have hklen : s.chunkData.length = chunkLength a n j := by rw [chunkData_length, hs.klen]
    refine ⟨t, ?_, hk.trans i2, i3, i4, by rw [i5]; simp [g2.strap], by rw [i6]; simp [g2.buf], i7, ?_, ?_⟩
    · rw [show m + 1 + fuel = m + fuel + 1 by omega, chunkLoop_ok _ htodo g1, i1]
    · intro i h1 h2
      by_cases h3 : chunkPos a n (j + 1) ≤ i
      · rw [i8 i h3 h2, hk.dataAt]
      · rw [i9 _ (by omega), hmem]
        have hi : i - chunkPos a n j < s.chunkData.length := by omega
        have := Memory.read_writeBytes_inside hw s.cur s.chunkData (i - chunkPos a n j) hi
        rw [hcur, show a + chunkPos a n j + (i - chunkPos a n j) = a + i by omega, ← hcur] at this
        rw [this, chunkData_getElem, hs.rel, chunkPos_of_lt hj']
        congr 1
        omega
    · intro x hx
      have := chunkPos_le a n (j + 1)
      rw [i9 x (by omega), hmem]
      exact Memory.read_writeBytes_outside _ _ _ (by omega)

/-- Chunks `j, j + 1, ..., N - 1` of a READ from an idle reference device. -/
theorem readLoop_device {a n : Nat} (m fuel : Nat) {s : State} {j : Nat} (hs : AtChunk s a n j)
    (hj : j + m = chunkCount a n) (hin : a + n ≤ 8192) (hf : s.fsm = .chunk) (ho : s.op = .read)
    (hr : s.reply = none) (hd : s.transport.responder = .device) (hst : s.transport.device.strap = s.hwAddr)
    (hb : s.transport.device.busy = false) :
    ∃ t, chunkLoop rawRead (m + fuel) s = chunkLoop rawRead fuel t ∧ ChunkKeeps s t ∧ t.chunkTodo = false ∧
      t.transport.device.mem = s.transport.device.mem ∧
      (∀ i, chunkPos a n j ≤ i → i < n → t.bufAt i = s.transport.device.mem.read (a + i)) ∧
      (∀ i, i < chunkPos a n j → t.bufAt i = s.bufAt i) := by
  induction m generalizing s j with
  | zero =>
    have hdone : s.chunkTodo = false := by
      have := hs.todo
      rw [show j = chunkCount a n by omega] at this
      simpa using this
    refine ⟨s, by simp, ChunkKeeps.refl hf hr, hdone, rfl, ?_, fun _ _ => rfl⟩
    intro i h1 h2
    rw [show j = chunkCount a n by omega, chunkPos_count] at h1
    omega
  | succ m ih =>
    have hj' : j < chunkCount a n := by omega
    have htodo := hs.todo.2 hj'
    have hlt := chunkTodo_iff.1 htodo
    have hbase : s.base.toNat ≤ s.cur := by rw [hs.base, hs.cur]; exact le_chunkStart a j
    have hend : s.endp ≤ 8192 := by rw [hs.endp]; exact hin
    have e3 : (encodeChunk s).transport = s.transport := by simp
    have e4 : (encodeChunk s).hwAddr = s.hwAddr := by simp
    have e5 : (encodeChunk s).cur = s.cur := by simp
    have e6 : (encodeChunk s).klen = s.klen := by simp
    have e7 : (encodeChunk s).curAddr = s.curAddr := by simp
    have hq := serve_readRequest (s := encodeChunk s) (by simpa using hd) (by rw [encodeChunk_header, e7])
      (by simpa using hbase) (by simpa [State.endp] using hlt) (by simpa [State.endp] using hend)
    have hnb : s.transport.device.tick.busy = false := by rw [tick_busy]; simp [hb]
    rw [e3, e4, if_neg (by simpa using hst), if_neg (by simp [hnb]), e5, e6] at hq
    have hlen : (s.transport.device.mem.readBytes s.cur s.klen).length = chunkLength a n j := by
      simp [Memory.readBytes, hs.klen]
    obtain ⟨s1, h1, hk, htr⟩ := rawRead_answered hs hj' ho hr hlen hq
    have hmem : (advance s1).transport.device.mem = s.transport.device.mem := by rw [htr]; exact tick_mem _
    obtain ⟨t, i1, i2, i3, i4, i5, i6⟩ := ih hk.atChunk (by omega) hk.fsm (hk.op.trans ho) hk.reply
      (by rw [htr]; exact hd) (by rw [htr, hk.hwAddr]; exact (tick_strap _).trans hst) (by rw [htr]; exact hnb)
    have hpos := chunkPos_succ hj'
    have hcur : s.cur = a + chunkPos a n j := by
      rw [hs.cur, ← chunkPos_of_lt hj']
      have := le_chunkStart a j
      omega
    refine ⟨t, ?_, hk.toChunkKeeps.trans i2, i3, i4.trans hmem, ?_, ?_⟩
    · rw [show m + 1 + fuel = m + fuel + 1 by omega, chunkLoop_ok _ htodo h1, i1]
    · intro i h2 h3
      by_cases h4 : chunkPos a n (j + 1) ≤ i
      · rw [i5 i h4 h3, hmem]
      · rw [i6 i (by omega)]
        have hi : i - chunkPos a n j < ((advance s1).bufSlice (chunkPos a n j) (chunkLength a n j)).length := by
          simp
          omega
        have hg := getElem_bufSlice (advance s1) (chunkPos a n j) (chunkLength a n j) (i - chunkPos a n j) hi
        rw [show chunkPos a n j + (i - chunkPos a n j) = i by omega] at hg
        rw [← hg]
        simp only [hk.inside]
        simp only [Memory.readBytes, List.getElem_map, List.getElem_range, hcur]
        congr 1
        omega
    · intro i h2
      rw [i6 i (by omega)]
      exact hk.outside i (Or.inl h2)

/-- No device answers at the block's bus address: every write attempt and every read attempt fails. -/
theorem serve_absent_write {s : State} (hd : s.transport.responder = .device)
    (hst : s.transport.device.strap ≠ s.hwAddr) :
    s.transport.serve (writeRequest s) = .answered (.err s.transport.device.eAbsent)
      { s.transport with device := s.transport.device.tick } := by
  have h : s.transport.device.serve (writeRequest s) =
      .answered (.err s.transport.device.tick.eAbsent) s.transport.device.tick := by
    simp only [writeRequest, Device.serve, Device.write]
    rw [if_pos ((dev_strap_iff s).2 hst)]
  rw [serve_device hd h, tick_eAbsent]

theorem serve_absent_read {s : State} (hd : s.transport.responder = .device)
    (hst : s.transport.device.strap ≠ s.hwAddr) :
    s.transport.serve (readRequest s) = .answered (.err s.transport.device.eAbsent)
      { s.transport with device := s.transport.device.tick } := by
  have h : s.transport.device.serve (readRequest s) =
      .answered (.err s.transport.device.tick.eAbsent) s.transport.device.tick := by
    simp only [readRequest, Device.serve, Device.writeRead]
    rw [if_pos ((dev_strap_iff s).2 hst)]
  rw [serve_device hd h, tick_eAbsent]

/-- A write attempt to an absent device. -/
theorem attemptReply_absent {s : State} (ho : s.op = .write) (hr : s.reply = none)
    (hd : s.transport.responder = .device) (hst : s.transport.device.strap ≠ s.hwAddr) :
    ∃ s1, attemptReply s = .replied (.err (portErr s.params s.transport.device.eAbsent)) s1 ∧ RawSame s s1 ∧
      s1.trace = s.trace ++
        [.write s.dev (s.scratchTo (2 + s.klen)) (.err (portErr s.params s.transport.device.eAbsent))] ∧
      s1.transport.device.mem = s.transport.device.mem ∧
      s1.transport.device.eAbsent = s.transport.device.eAbsent := by
  have ha := attemptReply_answered hr (by rw [attemptRequest_write ho]; exact serve_absent_write hd hst)
  refine ⟨_, ha, RawSame.of_attempt ho ha, ?_, ?_, ?_⟩
  · rw [afterAnswer_write ho]
    rfl
  · simp [tick_mem]
  · simp [tick_eAbsent]

/-- A raw write to an absent device: every attempt left fails (70_reset_and_hazards.md R221). -/
theorem rawAttempts_absent (left : Nat) {s : State} (ho : s.op = .write) (hr : s.reply = none)
    (hd : s.transport.responder = .device) (hst : s.transport.device.strap ≠ s.hwAddr) :
    ∃ s1, rawAttempts left s = .returned (.err (portErr s.params s.transport.device.eAbsent)) s1 ∧
      s1.trace = s.trace ++ failedAttempts s.dev (s.scratchTo (2 + s.klen))
          (List.replicate left (portErr s.params s.transport.device.eAbsent)) ++
        [.write s.dev (s.scratchTo (2 + s.klen)) (.err (portErr s.params s.transport.device.eAbsent))] ∧
      s1.transport.device.mem = s.transport.device.mem := by
  induction left generalizing s with
  | zero =>
    obtain ⟨s1, h1, h2, h3, h4, h5⟩ := attemptReply_absent ho hr hd hst
    exact ⟨_, rawAttempts_zero_err h1, by simpa [failedAttempts] using h3, h4⟩
  | succ n ih =>
    obtain ⟨s1, h1, h2, h3, h4, h5⟩ := attemptReply_absent ho hr hd hst
    generalize he : portErr s.params s.transport.device.eAbsent = e at *
    have hz := sleepReply_device (s := toDelay e s1) h2.reply (h2.responder.trans hd)
    have hsm := ((h2.trans (RawSame.toDelay h2.reply e)).trans (RawSame.of_sleep hz))
    generalize hs2 : ({ toDelay e s1 with
      transport := { (toDelay e s1).transport with device := (toDelay e s1).transport.device.tick }
      trace := (toDelay e s1).trace ++ [.sleep 1] } : State) = s2 at hz hsm
    have hsm3 := hsm.trans (RawSame.afterDelay hsm.reply)
    have hstep : rawAttempts (n + 1) s = rawAttempts n (afterDelay s2) := by
      rw [rawAttempts, h1]
      show (match sleepReply (toDelay e s1) with
        | .withheld => RawEnd.waiting (toDelay e s1)
        | .noMeaning => .noMeaning
        | .replied _ s2 => rawAttempts n (afterDelay s2)) = _
      rw [hz]
    have hab : (afterDelay s2).transport.device.eAbsent = s.transport.device.eAbsent := by
      rw [← hs2]
      show s1.transport.device.tick.eAbsent = _
      rw [tick_eAbsent, h5]
    have hmem : (afterDelay s2).transport.device.mem = s.transport.device.mem := by
      rw [← hs2]
      show s1.transport.device.tick.mem = _
      rw [tick_mem, h4]
    have htr : (afterDelay s2).trace = s.trace ++
        [.write s.dev (s.scratchTo (2 + s.klen)) (.err e), .sleep 1] := by
      rw [← hs2]
      show s1.trace ++ [.sleep 1] = _
      rw [h3]
      simp
    obtain ⟨s3, g1, g2, g3⟩ := ih (hsm3.op.trans ho) hsm3.reply (hsm3.responder.trans hd)
      (by rw [hsm3.strap, hsm3.hwAddr]; exact hst)
    rw [hab, hsm3.params, he] at g1 g2
    refine ⟨s3, hstep.trans g1, ?_, g3.trans hmem⟩
    rw [g2, htr, hsm3.dev, hsm3.klen, hsm3.scratchTo]
    simp [failedAttempts, List.replicate_succ]

end Sys2Proof.Machine
end

