-- ==== Sys2Proof/Laws/Run.lean ====
section
/-! SUPPORT. Runs of the machine: one step at a time, and a raw operation as a run of the sequencer
(spec/43_paginated_write.md R164). -/

namespace Sys2Proof.Machine

theorem run_succ_next {M : Host.Core} {k : Nat} {s t : M.State} (h : M.step s = .next t) : M.run (k + 1) s = M.run k t := by
  simp [Host.Core.run, h]

theorem run_succ_refused {M : Host.Core} {k : Nat} {s : M.State} {r : M.Refusal} (h : M.step s = .refused r) :
    M.run (k + 1) s = .refused r := by
  simp [Host.Core.run, h]

/-- A run of this machine. -/
abbrev runs (k : Nat) (s : State) : Outcome := Host.Core.run core k s

theorem runs_zero (s : State) : runs 0 s = .next s := rfl

theorem runs_step {k : Nat} {s t : State} (h : step s = .next t) : runs (k + 1) s = runs k t :=
  run_succ_next (M := core) h

theorem runs_refused {k : Nat} {s : State} {r : Refusal} (h : step s = .refused r) : runs (k + 1) s = .refused r :=
  run_succ_refused (M := core) h

/-- Two runs one after the other. -/
theorem runs_trans {k m : Nat} {s t : State} (h : runs k s = .next t) : runs (k + m) s = runs m t := by
  induction k generalizing s with
  | zero =>
    simp only [runs_zero, Host.Outcome.next.injEq] at h
    rw [h, Nat.zero_add]
  | succ k ih =>
    cases hs : step s with
    | next u =>
      rw [runs_step hs] at h
      rw [show k + 1 + m = k + m + 1 by omega, runs_step hs, ih h]
    | fault f => simp [runs, Host.Core.run, show core.step s = .fault f from hs] at h
    | refused r => rw [runs_refused hs] at h; simp at h

/-- A state that steps to itself stays there for ever. -/
theorem runs_stay {s : State} (h : step s = .next s) (k : Nat) : runs k s = .next s := by
  induction k with
  | zero => rfl
  | succ k ih => rw [runs_step h, ih]

/-- What a raw operation comes to when the sequencer takes its result. -/
def RawEnd.outcome : RawEnd → Outcome
  | .waiting s => .next s
  | .noMeaning => .refused .deviceNoMeaning
  | .returned .ok s => .next (advance s)
  | .returned (.err e) s => .next (raiseTransportError e s)

theorem raise_setErr (e : Nat) (s : State) : raiseTransportError e { s with err := e } = raiseTransportError e s := rfl

/-- The retry loop, taken up in `ATTEMPT` with `left` retries left, is a run of the sequencer. -/
theorem rawAttempts_runs (left : Nat) {s : State} (hs : s.slot = none) (hf : s.fsm = .attempt)
    (hl : (s.op = .write ∧ s.retries.toNat + left = 10) ∨ (s.op = .read ∧ left = 0)) :
    ∃ k, runs k s = (rawAttempts left s).outcome := by
  induction left generalizing s with
  | zero =>
    unfold rawAttempts
    cases h : attemptReply s with
    | withheld => exact ⟨0, rfl⟩
    | noMeaning => exact ⟨1, runs_refused (step_attempt_noMeaning hs hf h)⟩
    | replied r s1 =>
      cases r with
      | ok => exact ⟨1, runs_step (step_attempt_ok hs hf h)⟩
      | err e =>
        have hm : s.mustFail = true := by
          rcases hl with ⟨ho, hr⟩ | ⟨ho, _⟩
          · simp [State.mustFail, Config.maxRetries, show s.retries.toNat = 10 by omega]
          · simp [State.mustFail, ho]
        exact ⟨1, by rw [runs_step (step_attempt_fail hs hf h hm), runs_zero, ← raise_setErr]; rfl⟩
  | succ n ih =>
    unfold rawAttempts
    cases h : attemptReply s with
    | withheld => exact ⟨0, rfl⟩
    | noMeaning => exact ⟨1, runs_refused (step_attempt_noMeaning hs hf h)⟩
    | replied r s1 =>
      cases r with
      | ok => exact ⟨1, runs_step (step_attempt_ok hs hf h)⟩
      | err e =>
        obtain ⟨ho, hr⟩ : s.op = .write ∧ s.retries.toNat + (n + 1) = 10 := by
          rcases hl with hl | ⟨_, hl⟩
          · exact hl
          · omega
        have hm : s.mayRetry = true := by simp [State.mayRetry, ho, Config.maxRetries]; omega
        have hsm := attemptReply_same h
        have h1 := step_attempt_retry hs hf h hm
        have hs1 : (toDelay e s1).slot = none := by simp [hsm.slot, hs]
        have ho1 : (toDelay e s1).op = .write := by simp [hsm.op, ho]
        simp only
        rcases sleepReply_cases (toDelay e s1) with ⟨r, _, h2⟩ | ⟨_, _, h2⟩ | ⟨a, t, _, _, h2⟩
        · rw [h2]
          have hz := sleepReply_same h2
          obtain ⟨k, hk⟩ := @ih (afterDelay { toDelay e s1 with reply := none }) hs1 rfl (Or.inl ⟨ho1, by
            simp [hsm.retries, BitVec.toNat_add]
            omega⟩)
          exact ⟨k + 1 + 1, by rw [runs_step h1, runs_step (step_delay hs1 rfl ho1 h2), hk]⟩
        · rw [h2]
          exact ⟨1, runs_step h1⟩
        · have hz := sleepReply_same h2
          rw [h2]
          obtain ⟨k, hk⟩ := ih (s := afterDelay { toDelay e s1 with
            transport := t
            trace := (toDelay e s1).trace ++ [.sleep 1] }) hs1 rfl (Or.inl ⟨ho1, by
            simp [hsm.retries, BitVec.toNat_add]
            omega⟩)
          exact ⟨k + 1 + 1, by rw [runs_step h1, runs_step (step_delay hs1 rfl ho1 h2), hk]⟩

/-- ENCODE builds the same state from `CHUNK` as from `ENCODE`: it sets `fsm` itself. -/
theorem encodeChunk_fsm_irrelevant (s : State) (f : Fsm) : encodeChunk { s with fsm := f } = encodeChunk s := by
  have h1 : ({ s with fsm := f } : State).chunkData = s.chunkData := rfl
  have h2 : ({ s with fsm := f } : State).curAddr = s.curAddr := rfl
  have h3 : ({ s with fsm := f } : State).rel = s.rel := rfl
  unfold encodeChunk
  rw [show ({ s with fsm := f } : State).op = s.op from rfl]
  split
  · rw [h1, h2, loadPayload, loadPayload, encHdr, encHdr]; rfl
  · rw [h2, encHdr, encHdr]

end Sys2Proof.Machine
end

