-- ==== Sys2Proof/Tests/Slice0.lean ====
section
/-! SUPPORT. Tests: ill-formed operands are refused; every constructor's word, written out from the spec's encodings, decodes
to it; one step of each operation against spec/95_test_vectors.md; and, for every statement with hypotheses, a witness
that meets them. -/

namespace Sys2Proof.Tests

open Sys2Proof.Machine

/-! ## Well-formedness: one ill-formed operation for each check -/

theorem test_wf_write_length_of_17_bits : Instr.wf 16 (.write 0 65536) = false := by decide

theorem test_wf_write_longest : Instr.wf 16 (.write 0xFFFF 65535) = true := by decide

theorem test_wf_read_length_of_17_bits : Instr.wf 16 (.read 0 65536) = false := by decide

theorem test_wf_payload_empty : Instr.wf 16 (.loadPayload []) = false := by decide

theorem test_wf_payload_of_33_bytes : Instr.wf 16 (.loadPayload (List.replicate 33 0)) = false := by decide

theorem test_wf_frame_empty : Instr.wf 16 (.wframe 0 []) = false := by decide

theorem test_wf_frame_crosses_page : Instr.wf 16 (.wframe 31 [1, 2]) = false := by decide

theorem test_wf_frame_to_the_boundary : Instr.wf 16 (.wframe 30 [1, 2]) = true := by decide

theorem test_wf_raw_write_in_chunk : Instr.wf 16 (.rawWrite .chunk) = false := by decide

theorem test_wf_raw_read_in_delay : Instr.wf 16 (.rawRead .delay) = false := by decide

/-! ## Decoding: words written out from the encodings of spec/30_encoding.md and spec/opcode_table.json -/

/-- V-CW1: `1 0000000000011110 0000000000000101`, 33 bits in five bytes (R84). -/
theorem test_decode_write : decode (.command 16) [0b00000001, 0b00000000, 0b00011110, 0b00000000, 0b00000101] =
    .ok (.write 30 5) := by decide

/-- V-CW2: `0 0000000000010000 0000000000101000` (R84). -/
theorem test_decode_read : decode (.command 16) [0b00000000, 0b00000000, 0b00010000, 0b00000000, 0b00101000] =
    .ok (.read 16 40) := by decide

theorem test_decode_nextChunk : decode .cursor [0b00011110] = .ok (.nextChunk 30) := by rfl

/-- V-EH6: high byte first (R81). -/
theorem test_decode_encHdr : decode .header [0x12, 0x34] = .ok (.encHdr 0x1234) := by rfl

theorem test_decode_loadPayload : decode .payload [0xA1, 0xA2] = .ok (.loadPayload [0xA1, 0xA2]) := by rfl

/-- V-DA3: `1010011` (R85). -/
theorem test_decode_devAddr : decode .devAddr [0b01010011] = .ok (.devAddr 3) := by rfl

/-- `{fsm, op} = {ENCODE, 1} = 010 1` (R89). -/
theorem test_decode_rawWrite : decode .raw [0b0101] = .ok (.rawWrite .encode) := by rfl

/-- `{ATTEMPT, 0} = 011 0` (R89). -/
theorem test_decode_rawRead : decode .raw [0b0110] = .ok (.rawRead .attempt) := by rfl

theorem test_decode_trWrite : decode .trKind [0b01] = .ok .trWrite := by rfl

theorem test_decode_trWriteRead : decode .trKind [0b10] = .ok .trWriteRead := by rfl

theorem test_decode_trSleep : decode .trKind [0b11] = .ok .trSleep := by rfl

/-- The frame of V-W4 (R82). -/
theorem test_decode_wframe : decode .writeFrame [0x1F, 0xFF, 0xEE] = .ok (.wframe 8191 [0xEE]) := by rfl

/-- The bytes sent in V-RD4 (R83). -/
theorem test_decode_rframe : decode .readFrame [0x1F, 0xFE] = .ok (.rframe 8190) := by rfl

/-- `000 o`, step T1 (R89). -/
theorem test_decode_accept : decode .seq [0b0001, 1] = .ok (.accept .write) := by rfl

theorem test_decode_chunkDone : decode .seq [0b0010, 2] = .ok (.chunkDone .read) := by rfl

theorem test_decode_chunkNext : decode .seq [0b0011, 3] = .ok (.chunkNext .write) := by rfl

theorem test_decode_encode : decode .seq [0b0101, 4] = .ok (.encode .write) := by rfl

theorem test_decode_attemptOk : decode .seq [0b0110, 5] = .ok (.attemptOk .read) := by rfl

theorem test_decode_attemptRetry : decode .seq [0b0111, 6] = .ok .attemptRetry := by rfl

theorem test_decode_attemptFail : decode .seq [0b0111, 7] = .ok (.attemptFail .write) := by rfl

theorem test_decode_delay : decode .seq [0b1001, 8] = .ok .delay := by rfl

/-- `DELAY` with `op = READ` selects nothing (R90 (d)). -/
theorem test_decode_delay_of_read : decode .seq [0b1000, 8] = .error .noRow := by rfl

/-- Codes 5, 6 and 7 are no state (10_state.md R23). -/
theorem test_decode_state_five : decode .seq [0b1010, 0] = .error .noRow := by rfl

theorem test_decode_no_request : decode .trKind [0b00] = .error .noRequest := by rfl

theorem test_decode_other_base_address : decode .devAddr [0b01100011] = .error .notDeviceAddress := by rfl

theorem test_decode_frame_over_page : decode .writeFrame [0x00, 0x1F, 1, 2] = .error .pageCrossing := by rfl

theorem test_decode_frame_without_data : decode .writeFrame [0x00, 0x1F] = .error .payloadLength := by rfl

theorem test_table_write : decodeTableWord 40 0x1001E0005 = some (.write 30 5) := by decide

theorem test_table_delay : decodeTableWord 8 0b1001 = some .delay := by decide

/-! ## States -/

/-- The outcome is a next state that meets `p`. -/
def goesTo (o : Outcome) (p : State → Bool) : Bool :=
  match o with
  | .next t => p t
  | .fault _ => false
  | .refused _ => false

/-- `WRITE 30, [A1 A2 A3 A4 A5]` of program P1, in state `f` with the cursor at `c`. -/
def p1 (f : Fsm) (c : Nat) : State :=
  { State.reset with
    fsm := f
    op := .write
    base := 30
    len := 5
    cur := c
    data := [0xA1, 0xA2, 0xA3, 0xA4, 0xA5] }

/-- `READ 16, 40` of program P3, in state `f` with the cursor at `c`. -/
def p3 (f : Fsm) (c : Nat) : State := { State.reset with fsm := f, op := .read, base := 16, len := 40, cur := c }

/-- `s` with a transport that gives these answers. -/
def answering (s : State) (l : List Answer) : State := { s with transport := { s.transport with answers := l } }

/-- `scratch[0 .. |bs|)` replaced. -/
def framed (s : State) (bs : List Byte) : State := { s with scratch := putScratch s.scratch 0 bs }

/-- Chunk 0 of P1, its frame built. -/
def p1Attempt : State := framed (p1 .attempt 30) [0x00, 0x1E, 0xA1, 0xA2]

/-- Chunk 0 of P1, waiting for its first retry. -/
def p1Delay : State := framed (p1 .delay 30) [0x00, 0x1E, 0xA1, 0xA2]

/-- Chunk 0 of P3, its header built. -/
def p3Attempt : State := framed (p3 .attempt 16) [0x00, 0x10]

/-! ## One step of each operation -/

/-- P1, step 1. -/
theorem test_accept : goesTo (step { State.reset with
    cmds := [{ op := .write, addr := 30, len := 5, slice := [0xA1, 0xA2, 0xA3, 0xA4, 0xA5] }] })
    (fun t => decide (t.op = .write ∧ t.base = 30 ∧ t.len = 5 ∧ t.cur = 30 ∧ t.fsm = .chunk)) = true := by decide

/-- P1, step 8: `64 >= 35`. -/
theorem test_chunkDone : goesTo (step (p1 .chunk 64))
    (fun t => decide (t.fsm = .idle ∧ t.trace = [.rsp .ok])) = true := by decide

/-- S8: the cursor lands exactly on the end. -/
theorem test_chunkDone_at_the_end : goesTo (step { p1 .chunk 35 with cur := 35 })
    (fun t => decide (t.fsm = .idle ∧ t.rsp = some .ok)) = true := by decide

/-- P1, step 5: `32 < 35`; `rel = 2`, `klen = 3`. -/
theorem test_chunkNext : goesTo (step (p1 .chunk 32))
    (fun t => decide (t.fsm = .encode ∧ t.rel = 2 ∧ t.klen = 3)) = true := by decide

/-- P1, step 6. -/
theorem test_encode_write : goesTo (step (p1 .encode 32))
    (fun t => decide (t.scratch.toList.take 5 = [0x00, 0x20, 0xA3, 0xA4, 0xA5] ∧ t.retries = 0 ∧ t.fsm = .attempt)) =
      true := by decide

/-- P3, step 3: of a read only the header. -/
theorem test_encode_read : goesTo (step (framed (p3 .encode 16) [9, 9, 7]))
    (fun t => decide (t.scratch.toList.take 3 = [0x00, 0x10, 7] ∧ t.wdataReqs = [])) = true := by decide

/-- P1, step 4: `cur = 32`. -/
theorem test_attemptOk_write : goesTo (step (answering p1Attempt [.ok []]))
    (fun t => decide (t.cur = 32 ∧ t.fsm = .chunk ∧ t.trace = [.write 0x50 [0x00, 0x1E, 0xA1, 0xA2] .ok])) = true := by
  decide

/-- V-RD5: the byte of a one-byte burst goes to `buf[0]`. -/
theorem test_attemptOk_read :
    goesTo (step (answering (framed { p3 .attempt 31 with base := 31, len := 2 } [0x00, 0x1F]) [.ok [0xC7]]))
      (fun t => decide (t.buf = [0xC7] ∧ t.trace = [.writeRead 0x50 [0x00, 0x1F] 1 (.ok [0xC7])])) = true := by decide

/-- V-RW2: the first error is absorbed. -/
theorem test_attemptRetry : goesTo (step (answering p1Attempt [.err 7]))
    (fun t => decide (t.err = 7 ∧ t.fsm = .delay ∧ t.rsp = none ∧ t.cur = 30)) = true := by decide

/-- V-RW5: the error of the 11th attempt is surfaced. -/
theorem test_attemptFail_write : goesTo (step (answering { p1Attempt with retries := 10 } [.err 11]))
    (fun t => decide (t.err = 11 ∧ t.fsm = .idle ∧ t.rsp = some (.err 11) ∧ t.cur = 30)) = true := by decide

/-- V-RD2: a read surfaces its first error. -/
theorem test_attemptFail_read : goesTo (step (answering p3Attempt [.err 3]))
    (fun t => decide (t.fsm = .idle ∧ t.rsp = some (.err 3) ∧ t.retries = 0)) = true := by decide

/-- V-RW3: the second sleep. -/
theorem test_delay : goesTo (step (answering { p1Delay with retries := 1 } [.ok []]))
    (fun t => decide (t.retries = 2 ∧ t.fsm = .attempt ∧ t.trace = [.sleep 1])) = true := by decide

/-- V-NC6: the last byte of a page. -/
theorem test_nextChunk_last_byte : goesTo (exec (.nextChunk 31) { p1 .chunk 31 with base := 31, len := 1 })
    (fun t => decide (t.result = some (.chunkLen 1))) = true := by decide

/-- V-NC3: exactly a page. -/
theorem test_nextChunk_page : goesTo (exec (.nextChunk 0) { p1 .chunk 0 with base := 0, len := 32 })
    (fun t => decide (t.result = some (.chunkLen 32))) = true := by decide

/-- V-EH5: carry into the high byte. -/
theorem test_encHdr : goesTo (exec (.encHdr 256) State.reset)
    (fun t => decide (t.scratch.toList.take 2 = [0x01, 0x00])) = true := by decide

theorem test_loadPayload : goesTo (exec (.loadPayload [0xA3, 0xA4, 0xA5]) (p1 .encode 32))
    (fun t => decide (t.scratch.toList.take 6 = [0, 0, 0xA3, 0xA4, 0xA5, 0] ∧ t.wdataReqs = [2, 3, 4])) = true := by
  decide

/-- V-DA7. -/
theorem test_devAddr : goesTo (exec (.devAddr 7) State.reset)
    (fun t => decide (t.result = some (.busAddr 0x57))) = true := by decide

theorem test_wframe : goesTo (exec (.wframe 30 [0xA1, 0xA2]) State.reset)
    (fun t => decide (t.result = some (.writeFrame [0x00, 0x1E, 0xA1, 0xA2]))) = true := by decide

/-- V-RD1: 16 bytes follow the first header. -/
theorem test_rframe : goesTo (exec (.rframe 16) (p3 .chunk 16))
    (fun t => decide (t.result = some (.readFrame [0x00, 0x10] 16))) = true := by decide

/-- R83, `(A mod 32) + k <= 32`, for the last address of a page with the cursor elsewhere (log 16). -/
theorem test_rframe_away_from_the_cursor : goesTo (exec (.rframe 31) (p3 .chunk 16))
    (fun t => decide (t.result = some (.readFrame [0x00, 0x1F] 1))) = true := by decide

theorem test_trWrite : goesTo (exec .trWrite (answering p1Attempt [.ok []]))
    (fun t => decide (t.reply = some .ok ∧ t.trace = [.write 0x50 [0x00, 0x1E, 0xA1, 0xA2] .ok])) = true := by decide

theorem test_trWriteRead : goesTo (exec .trWriteRead (answering p3Attempt [.err 9]))
    (fun t => decide (t.reply = some (.err 9) ∧ t.trace = [.writeRead 0x50 [0x00, 0x10] 16 (.err 9)])) = true := by
  decide

theorem test_trSleep : goesTo (exec .trSleep (answering p1Delay [.err 1]))
    (fun t => decide (t.reply = some .ok ∧ t.trace = [.sleep 1])) = true := by decide

/-- R90 (e): no frame without data (log 18). -/
theorem test_trWrite_empty_chunk : exec .trWrite { p1Attempt with cur := 35 } = .refused .emptyChunk := by rfl

/-- R86: in `ATTEMPT` the block presents no sleep (log 18). -/
theorem test_trSleep_in_attempt : exec .trSleep p1Attempt = .refused .guardNotMet := by rfl

/-- V-RW2 on the chunk of P1. -/
theorem test_rawWrite : goesTo (exec (.rawWrite .encode) (answering (p1 .encode 30) [.err 1, .ok [], .ok []]))
    (fun t => decide (t.reply = some .ok ∧ t.retries = 1 ∧ t.trace =
      [.write 0x50 [0x00, 0x1E, 0xA1, 0xA2] (.err 1), .sleep 1, .write 0x50 [0x00, 0x1E, 0xA1, 0xA2] .ok])) = true := by
  decide

/-- V-RD2: one transaction, no sleep. -/
theorem test_rawRead : goesTo (exec (.rawRead .encode) (answering (p3 .encode 16) [.err 3, .ok []]))
    (fun t => decide (t.reply = some (.err 3) ∧ t.trace = [.writeRead 0x50 [0x00, 0x10] 16 (.err 3)])) = true := by
  decide

/-- P1 whole. -/
theorem test_write : goesTo (exec (.write 30 5) (answering { State.reset with
    data := [0xA1, 0xA2, 0xA3, 0xA4, 0xA5] } [.ok [], .ok []]))
    (fun t => decide (t.cur = 64 ∧ t.trace = [.write 0x50 [0x00, 0x1E, 0xA1, 0xA2] .ok,
      .write 0x50 [0x00, 0x20, 0xA3, 0xA4, 0xA5] .ok, .rsp .ok])) = true := by decide

/-- V-W0c: a zero-length write anywhere. -/
theorem test_write_zero_length : goesTo (exec (.write 0xFFFF 0) State.reset)
    (fun t => decide (t.trace = [.rsp .ok])) = true := by decide

/-- V-RD5 whole. -/
theorem test_read : goesTo (exec (.read 31 2) (answering State.reset [.ok [0xC7], .ok [0xD8]]))
    (fun t => decide (t.buf = [0xC7, 0xD8] ∧ t.trace = [.writeRead 0x50 [0x00, 0x1F] 1 (.ok [0xC7]),
      .writeRead 0x50 [0x00, 0x20] 1 (.ok [0xD8]), .rsp .ok])) = true := by decide

/-- V-RD0. -/
theorem test_read_zero_length : goesTo (exec (.read 16 0) State.reset)
    (fun t => decide (t.trace = [.rsp .ok] ∧ t.buf = [])) = true := by decide

/-- A word of the table placed in the reset state is what the next step runs: the bus address of V-DA3. -/
theorem test_withFetchWord : goesTo (step (State.reset.withFetchWord 8 0b1010011))
    (fun t => decide (t.result = some (.busAddr 0x53))) = true := by decide

/-! ## Witnesses: states and operands that meet the hypotheses of the statements, at the ends of their ranges -/

/-- P1 in `ATTEMPT` meets every invariant. -/
theorem inv_p1Attempt : BlockInv p1Attempt :=
  ⟨by decide, fun _ => by decide, by decide, fun _ => by decide, fun _ _ => by decide, fun h => absurd rfl h,
    (fun h => nomatch h), by decide, ⟨by decide, (fun _ h => nomatch h)⟩, by decide, by decide, rfl⟩

/-- P1 in `DELAY`. -/
theorem inv_p1Delay : BlockInv p1Delay :=
  ⟨by decide, fun _ => by decide, by decide, fun _ => by decide, fun _ _ => by decide, fun h => absurd rfl h,
    fun _ => by decide, by decide, ⟨by decide, (fun _ h => nomatch h)⟩, by decide, by decide, rfl⟩

/-- P3 in `ATTEMPT`. -/
theorem inv_p3Attempt : BlockInv p3Attempt :=
  ⟨by decide, fun _ => by decide, by decide, fun _ => by decide, (fun _ h => nomatch h), fun h => absurd rfl h,
    (fun h => nomatch h), by decide, ⟨by decide, (fun _ h => nomatch h)⟩, by decide, by decide, rfl⟩

/-- The reset state meets every invariant. -/
theorem inv_reset : BlockInv State.reset :=
  ⟨by decide, (fun h => by rcases h with h | h | h <;> cases h), by decide, (fun h => by rcases h with h | h <;> cases h),
    (fun h => by rcases h with h | h <;> cases h), fun h => absurd rfl h, (fun h => nomatch h), by decide,
    ⟨by decide, (fun _ h => nomatch h)⟩, by decide, by decide, rfl⟩

/-- P1 in `ATTEMPT` with the reference device idle. -/
def p1Device : State :=
  { p1Attempt with transport := { p1Attempt.transport with responder := .device } }

theorem inv_p1Device : BlockInv p1Device :=
  ⟨by decide, fun _ => by decide, by decide, fun _ => by decide, fun _ _ => by decide, fun h => absurd rfl h,
    (fun h => nomatch h), by decide, ⟨by decide, (fun _ h => nomatch h)⟩, by decide, by decide, rfl⟩

/-- Between commands, with the reference device idle; the first write cycle ends just before the 11th attempt of the chunk
after it, which is event 22. -/
def deviceReady : State :=
  { State.reset with
    data := [0xA1, 0xA2, 0xA3, 0xA4, 0xA5]
    transport := { State.reset.transport with
      responder := .device
      device := { Device.fresh with finish := List.replicate 21 false ++ [true] } } }

theorem ready_reset : Ready State.reset := ⟨rfl, rfl, rfl⟩

theorem ready_deviceReady : Ready deviceReady := ⟨rfl, rfl, rfl⟩

theorem strapped_deviceReady : Strapped deviceReady := ⟨rfl, rfl⟩

/-- R71's premise at its limit: two chunks, `B = 10`. -/
theorem cycleBounded_deviceReady : CycleBounded 10 2 deviceReady.transport.device :=
  ⟨List.replicate 20 false ++ [true], rfl, [], rfl, trivial⟩

theorem witness_DecodeOfEncode :
    Instr.wf 16 (.write 0xFFFF 65535) = true ∧ Instr.wf 1 (.read 0 1) = true ∧ Instr.wf 16 (.wframe 31 [1]) = true ∧
      Instr.wf 16 (.loadPayload (List.replicate 32 0)) = true ∧ Instr.wf 16 (.rawWrite .delay) = true := by decide

theorem witness_DecoderAcceptsOnlyEncodings :
    decode .raw [0b1001] = .ok (.rawWrite .delay) ∧ decode .seq [0b0111, 0] = .ok .attemptRetry ∧
    decode .seq [0b0001, 1] = .ok (.accept .write) ∧ (1#8 ≠ 0) ∧ decode .seq [0b1001, 8] = .ok .delay ∧ (8#8 ≠ 0) :=
  ⟨rfl, rfl, rfl, by decide, rfl, by decide⟩

theorem witness_EveryCommandWordIsACommand : 2 ^ 33 - 1 < 2 ^ (17 + 16) := by decide

theorem witness_TransportPortFields :
    (BlockInv State.reset ∧ ¬ State.reset.requesting) ∧
    (BlockInv p1Attempt ∧ p1Attempt.fsm = .attempt ∧ p1Attempt.op = .write) ∧
    (BlockInv p3Attempt ∧ p3Attempt.fsm = .attempt ∧ p3Attempt.op = .read) ∧
    (BlockInv p1Delay ∧ p1Delay.fsm = .delay) :=
  ⟨⟨inv_reset, (fun h => by rcases h with h | h <;> cases h)⟩, ⟨inv_p1Attempt, rfl, rfl⟩, ⟨inv_p3Attempt, rfl, rfl⟩,
    ⟨inv_p1Delay, rfl⟩⟩

theorem afterReset_reset : AfterReset 0 State.reset := ⟨rfl, rfl, rfl, rfl, rfl⟩

theorem witness_ConstructionMeetsInvariants :
    (Transport.fresh.device.mem.wf = true ∧ Transport.fresh.device.mem.bounded = true) ∧
    AfterReset 0 State.reset ∧
    (State.reset.cmds = [] ∧ (State.reset.offer ⟨.write, 30, 5, []⟩).cmds = [⟨.write, 30, 5, []⟩] ∧
      AfterReset 0 (State.reset.offer ⟨.write, 30, 5, []⟩)) :=
  ⟨by decide, afterReset_reset, rfl, rfl, ⟨rfl, rfl, rfl, rfl, rfl⟩⟩

theorem witness_ResetContentsNeverObserved :
    AfterReset 0 State.reset ∧
    SameButUnspecified State.reset { State.reset with scratch := Vector.replicate 34 0xFF, cur := 99, retries := 10 } ∧
    Host.Core.run core 1 State.reset = .next State.reset := ⟨afterReset_reset, rfl, rfl⟩

theorem witness_BlockWaitsForItsEnvironment :
    (State.reset.slot = none ∧ State.reset.fsm = .idle ∧ State.reset.cmds = []) ∧
    (p1Attempt.slot = none ∧ p1Attempt.fsm = .attempt ∧ attemptReply p1Attempt = .withheld) ∧
    (p1Delay.slot = none ∧ p1Delay.fsm = .delay ∧ p1Delay.op = .write ∧ sleepReply p1Delay = .withheld) :=
  ⟨⟨rfl, rfl, rfl⟩, ⟨rfl, rfl, rfl⟩, ⟨rfl, rfl, rfl, rfl⟩⟩

theorem witness_StepRunsTheSlot :
    (decode .devAddr [0x53] = .ok (.devAddr 3) ∧
      blocks (.devAddr 3) { State.reset with slot := some (.devAddr, [0x53]) } = false) ∧
    (decode .trKind [1] = .ok .trWrite ∧
      blocks .trWrite { p1Attempt with slot := some (.trKind, [1]) } = true) ∧
    step State.reset = .next State.reset := ⟨⟨rfl, rfl⟩, ⟨rfl, rfl⟩, rfl⟩

theorem witness_StepRunsTheSequencer :
    (State.reset.offer ⟨.read, 0, 0, []⟩).cmds ≠ [] ∧
    ((p1 .chunk 35).fsm = .chunk ∧ (p1 .chunk 35).endp ≤ (p1 .chunk 35).cur) ∧
    (p1 .chunk 34).cur < (p1 .chunk 34).endp ∧ (p1 .encode 30).fsm = .encode ∧
    (∃ s1, attemptReply (answering p1Attempt [.ok []]) = .replied .ok s1) ∧
    (∃ s1, attemptReply (answering { p1Attempt with retries := 9 } [.err 1]) = .replied (.err 1) s1) ∧
    (∃ s1, attemptReply (answering { p1Attempt with retries := 10 } [.err 1]) = .replied (.err 1) s1) ∧
    (∃ s1, attemptReply (answering p3Attempt [.err 1]) = .replied (.err 1) s1) ∧
    ∃ s1, sleepReply (answering p1Delay [.ok []]) = .replied .ok s1 :=
  ⟨by decide, by decide, by decide, rfl, ⟨_, rfl⟩, ⟨_, rfl⟩, ⟨_, rfl⟩, ⟨_, rfl⟩, ⟨_, rfl⟩⟩

theorem witness_SequencerGuardsExclude :
    formatOf 0 (.encode .write) = .seq ∧ ∃ t, exec (.encode .write) (p1 .encode 30) = .next t := ⟨rfl, _, rfl⟩

theorem witness_StepKeepsInvariants : BlockInv p1Attempt ∧ ∃ t, step p1Attempt = .next t := ⟨inv_p1Attempt, _, rfl⟩

theorem witness_InvariantsBoundTheChunk : BlockInv p1Attempt ∧ p1Attempt.inChunk := ⟨inv_p1Attempt, Or.inr (Or.inl rfl)⟩

theorem witness_InvariantStatesAlwaysStep : BlockInv p1Device ∧ InRange p1Device.base.toNat p1Device.len :=
  ⟨inv_p1Device, (by unfold InRange; decide)⟩

theorem witness_DeviceMemoryStaysCanonical :
    (p1Device.transport.device.mem.wf = true ∧ p1Device.transport.device.mem.bounded = true) ∧
    ∃ t, exec .trWrite p1Device = .next t := ⟨by decide, _, rfl⟩

theorem witness_HardwareAddressNeverWritten : ∃ t, exec (.write 0xFFFF 0) State.reset = .next t := ⟨_, rfl⟩

theorem witness_ScratchWriters :
    (∃ t, exec (.devAddr 0) State.reset = .next t ∧ writesScratch (.devAddr 0) = false) ∧
    (∃ t, exec (.encHdr 256) State.reset = .next t) ∧
    (∃ t, exec (.rawRead .encode) (answering (p3 .encode 16) [.err 3]) = .next t) ∧
    ∃ t, exec (.read 16 40) (answering State.reset [.err 3]) = .next t :=
  ⟨⟨_, rfl, rfl⟩, ⟨_, rfl⟩, ⟨_, rfl⟩, ⟨_, rfl⟩⟩

theorem witness_OperandsConstantDuringCommand :
    ((p1 .encode 30).slot = none ∧ (p1 .encode 30).fsm ≠ .idle ∧ ∃ t, step (p1 .encode 30) = .next t) ∧
    (let history := [p1 .chunk 30, p1 .encode 30, (p1 .encode 30).offer ⟨.read, 0, 1, []⟩]
     Exclusive history ∧ ∀ s ∈ history, s.slot = none) := by
  refine ⟨⟨rfl, by decide, _, rfl⟩, ⟨Or.inl rfl, Or.inr (Or.inl ⟨_, rfl⟩), trivial⟩, fun s h => ?_⟩
  rcases List.mem_cons.1 h with rfl | h
  · rfl
  · rcases List.mem_cons.1 h with rfl | h
    · rfl
    · rw [List.mem_singleton.1 h]
      rfl

theorem witness_OneResponseEndsTheCommand :
    (p1 .chunk 35).slot = none ∧ ∃ t, step (p1 .chunk 35) = .next t := ⟨rfl, _, rfl⟩

theorem witness_LoadPayloadCopiesData :
    (p1 .encode 34).cur < (p1 .encode 34).endp ∧ (1 ≤ [0xA1#8].length ∧ [0xA1#8].length ≤ 32) ∧
    (1 ≤ (List.replicate 32 0#8).length ∧ (List.replicate 32 0#8).length ≤ 32) ∧
    (List.length ([] : List Byte) = 0) ∧ 32 < (List.replicate 33 0#8).length := by decide

theorem witness_DevAddrIsBaseOrHwAddr : p1Attempt.fsm = .attempt ∧ p3Attempt.fsm = .attempt := ⟨rfl, rfl⟩

theorem witness_NextChunkLength :
    (p1 .chunk 34).toGo = 1 ∧ (31#5).toNat = (p1 .chunk 31).cur % 32 ∧ (p1 .chunk 35).toGo = 0 := by decide

theorem witness_WireFrames :
    ((31#16).toNat % 32 + [1#8].length ≤ 32) ∧ ((0#16).toNat % 32 + (List.replicate 32 0#8).length ≤ 32) ∧
    (32 < (31#16).toNat % 32 + [1#8, 2#8].length) ∧ 32 < (List.replicate 33 0#8).length ∧
    1 ≤ (p3 .chunk 55).toGo ∧ 16#16 = (p3 .chunk 16).curAddr ∧ (p3 .chunk 56).toGo = 0 := by decide

theorem witness_AttemptSendsTheChunksFrame :
    (BlockInv p1Attempt ∧ p1Attempt.fsm = .attempt ∧ p1Attempt.op = .write) ∧
    (BlockInv p3Attempt ∧ p3Attempt.fsm = .attempt ∧ p3Attempt.op = .read) :=
  ⟨⟨inv_p1Attempt, rfl, rfl⟩, ⟨inv_p3Attempt, rfl, rfl⟩⟩

theorem witness_AcceptLatchesCommand :
    (State.reset.offer ⟨.write, 30, 5, []⟩).fsm = .idle ∧
    (State.reset.offer ⟨.write, 30, 5, []⟩).cmds = [⟨.write, 30, 5, []⟩] := ⟨rfl, rfl⟩

theorem witness_ChunkLoopTest :
    (p1 .chunk 35).fsm = .chunk ∧ (p1 .chunk 35).base.toNat + (p1 .chunk 35).len ≤ (p1 .chunk 35).cur ∧
    (p1 .chunk 34).cur < (p1 .chunk 34).base.toNat + (p1 .chunk 34).len := by decide

theorem witness_EncodeBuildsTheFrame :
    ((p1 .encode 30).fsm = .encode ∧ (p1 .encode 30).op = .write) ∧
    ((p3 .encode 16).fsm = .encode ∧ (p3 .encode 16).op = .read) := by decide

theorem witness_AttemptOkOfWriteAdvances :
    p1Attempt.fsm = .attempt ∧ p1Attempt.op = .write ∧ p1Attempt.reply = none ∧
    ∃ tr, (answering p1Attempt [.ok []]).transport.serve (writeRequest (answering p1Attempt [.ok []])) =
      .answered (.ok []) tr := ⟨rfl, rfl, rfl, _, rfl⟩

theorem witness_AttemptOkOfReadFillsTheBuffer :
    p3Attempt.fsm = .attempt ∧ p3Attempt.op = .read ∧ p3Attempt.reply = none ∧
    p3Attempt.klen ≤ (List.replicate 16 7#8).length ∧
    ∃ tr, (answering p3Attempt [.ok (List.replicate 16 7)]).transport.serve
      (readRequest (answering p3Attempt [.ok (List.replicate 16 7)])) = .answered (.ok (List.replicate 16 7)) tr :=
  ⟨rfl, rfl, rfl, by decide, _, rfl⟩

theorem witness_AttemptRetryAbsorbsTheError :
    ({ p1Attempt with retries := 9 } : State).retries.toNat < 10 ∧ 255 < 2 ^ p1Attempt.params.errW ∧
    ∃ tr, (answering { p1Attempt with retries := 9 } [.err 255]).transport.serve
      (writeRequest (answering { p1Attempt with retries := 9 } [.err 255])) = .answered (.err 255) tr :=
  ⟨by decide, by decide, _, rfl⟩

theorem witness_AttemptFailSurfacesTheError :
    (({ p1Attempt with retries := 10 } : State).retries.toNat = 10 ∧ 255 < 2 ^ p1Attempt.params.errW ∧
      ∃ tr, (answering { p1Attempt with retries := 10 } [.err 255]).transport.serve
        (writeRequest (answering { p1Attempt with retries := 10 } [.err 255])) = .answered (.err 255) tr) ∧
    (p3Attempt.op = .read ∧ ∃ tr, (answering p3Attempt [.err 0]).transport.serve
      (readRequest (answering p3Attempt [.err 0])) = .answered (.err 0) tr) :=
  ⟨⟨by decide, by decide, _, rfl⟩, rfl, _, rfl⟩

theorem witness_DelayCountsTheSleep :
    p1Delay.fsm = .delay ∧ p1Delay.op = .write ∧ p1Delay.reply = none ∧
    ∃ tr, (answering p1Delay [.ok []]).transport.serve (.sleep 1) = .answered (.ok []) tr := ⟨rfl, rfl, rfl, _, rfl⟩

theorem witness_TrWriteTransmits :
    (p1Attempt.fsm = .attempt ∧ p1Attempt.op = .write ∧ 0 < p1Attempt.klen ∧ p1Attempt.reply = none ∧
      p1Attempt.transport.serve (writeRequest p1Attempt) = .withheld ∧
      (∃ tr, (answering p1Attempt [.ok []]).transport.serve (writeRequest (answering p1Attempt [.ok []])) =
        .answered (.ok []) tr) ∧
      ∃ tr, 255 < 2 ^ p1Attempt.params.errW ∧
        (answering p1Attempt [.err 255]).transport.serve (writeRequest (answering p1Attempt [.err 255])) =
          .answered (.err 255) tr) ∧
    (p1Delay.fsm ≠ .attempt ∧ p3Attempt.op ≠ .write) ∧ ({ p1Attempt with cur := 35 } : State).klen = 0 ∧
    ({ p1Attempt with reply := some .ok } : State).reply ≠ none :=
  ⟨⟨rfl, rfl, by decide, rfl, rfl, ⟨_, rfl⟩, _, by decide, rfl⟩, by decide, by decide, by decide⟩

theorem witness_TrWriteReadReceives :
    (p3Attempt.fsm = .attempt ∧ p3Attempt.op = .read ∧ 0 < p3Attempt.klen ∧ p3Attempt.reply = none ∧
      p3Attempt.transport.serve (readRequest p3Attempt) = .withheld ∧
      ((List.replicate 16 7#8).length = p3Attempt.klen ∧
        ∃ tr, (answering p3Attempt [.ok (List.replicate 16 7)]).transport.serve
          (readRequest (answering p3Attempt [.ok (List.replicate 16 7)])) = .answered (.ok (List.replicate 16 7)) tr) ∧
      ∃ tr, 255 < 2 ^ p3Attempt.params.errW ∧
        (answering p3Attempt [.err 255]).transport.serve (readRequest (answering p3Attempt [.err 255])) =
          .answered (.err 255) tr) ∧
    (p1Delay.fsm ≠ .attempt ∧ p1Attempt.op ≠ .read) ∧ ({ p3Attempt with cur := 56 } : State).klen = 0 ∧
    ({ p3Attempt with reply := some .ok } : State).reply ≠ none :=
  ⟨⟨rfl, rfl, by decide, rfl, rfl, ⟨by decide, _, rfl⟩, _, by decide, rfl⟩, by decide, by decide, by decide⟩

theorem witness_TrSleepCannotFail :
    (p1Delay.fsm = .delay ∧ p1Delay.reply = none ∧ p1Delay.transport.serve (.sleep 1) = .withheld ∧
      ∃ tr, (answering p1Delay [.err 9]).transport.serve (.sleep 1) = .answered (.err 9) tr) ∧
    p1Attempt.fsm ≠ .delay ∧ ({ p1Delay with reply := some .ok } : State).reply ≠ none :=
  ⟨⟨rfl, rfl, rfl, _, rfl⟩, by decide, by decide⟩

theorem witness_PrimitiveThenStepIsStep :
    (∃ s1, exec .trWrite (answering p1Attempt [.ok []]) = .next s1 ∧ s1.reply ≠ none) ∧
    (∃ s1, exec .trWriteRead (answering p3Attempt [.err 3]) = .next s1 ∧ s1.reply ≠ none) ∧
    ∃ s1, exec .trSleep (answering p1Delay [.ok []]) = .next s1 ∧ s1.reply ≠ none :=
  ⟨⟨_, rfl, by decide⟩, ⟨_, rfl, by decide⟩, ⟨_, rfl, by decide⟩⟩

theorem few_errors (n : Nat) (h : n ≤ 10) : FewErrors State.reset.params (List.replicate n 255) :=
  ⟨by simpa [Config.maxRetries] using h, fun e he => by rw [List.eq_of_mem_replicate he]; decide⟩

/-- The first attempt succeeds, and the eleventh. -/
theorem witness_RawWriteSucceedsOnAttemptK :
    ((p1 .encode 30).fsm = .encode ∧ (p1 .encode 30).op = .write ∧ (p1 .encode 30).reply = none ∧
      (p1 .encode 30).cur < (p1 .encode 30).endp) ∧
    (FewErrors (p1 .encode 30).params [] ∧
      AnswersFrom (answering (p1 .encode 30) (acceptAfter [])) (acceptAfter [] ++ [])) ∧
    (FewErrors (p1 .encode 30).params (List.replicate 10 255) ∧
      AnswersFrom (answering (p1 .encode 30) (acceptAfter (List.replicate 10 255)))
        (acceptAfter (List.replicate 10 255) ++ [])) :=
  ⟨by decide, ⟨few_errors 0 (by decide), rfl, rfl⟩, ⟨few_errors 10 (by decide), rfl, rfl⟩⟩

theorem witness_RawWriteExhausts :
    (List.replicate 10 255).length = 10 ∧ FewErrors (p1 .encode 30).params (List.replicate 10 255) ∧
    254 < 2 ^ (p1 .encode 30).params.errW ∧
    AnswersFrom (answering (p1 .encode 30) (failAnswers (List.replicate 10 255) ++ .err 254 :: []))
      (failAnswers (List.replicate 10 255) ++ .err 254 :: []) :=
  ⟨rfl, few_errors 10 (by decide), by decide, rfl, rfl⟩

/-- With no retry left in `ATTEMPT` and one in `DELAY`, accepted and exhausted; and with fresh retries, exhausted. -/
theorem witness_RawWriteTakenUpMidway :
    (p1Attempt.cur < p1Attempt.endp ∧ ({ p1Attempt with retries := 10 } : State).retries.toNat + 0 ≤ 10 ∧
      FewErrors p1Attempt.params [] ∧
      AnswersFrom (answering { p1Attempt with retries := 10 } (acceptAfter [])) (acceptAfter [] ++ [])) ∧
    (255 < 2 ^ p1Attempt.params.errW ∧ ({ p1Attempt with retries := 10 } : State).retries.toNat + 0 = 10 ∧
      AnswersFrom (answering { p1Attempt with retries := 10 } [.err 255]) (failAnswers [] ++ .err 255 :: []) ∧
      p1Attempt.retries.toNat + (List.replicate 10 255).length = 10) ∧
    (p1Delay.cur < p1Delay.endp ∧ ({ p1Delay with retries := 9 } : State).retries.toNat + 1 + 0 ≤ 10 ∧
      AnswersFrom (answering { p1Delay with retries := 9 } (.ok [] :: acceptAfter []))
        (.ok [] :: (acceptAfter [] ++ []))) ∧
    (({ p1Delay with retries := 9 } : State).retries.toNat + 1 + 0 = 10 ∧
      AnswersFrom (answering { p1Delay with retries := 9 } [.ok [], .err 255])
        (.ok [] :: (failAnswers [] ++ .err 255 :: [])) ∧
      p1Delay.retries.toNat + 1 + (List.replicate 9 255).length = 10) :=
  ⟨⟨by decide, by decide, few_errors 0 (by decide), rfl, rfl⟩, ⟨by decide, by decide, ⟨rfl, rfl⟩, rfl⟩,
    ⟨by decide, by decide, rfl, rfl⟩, by decide, ⟨rfl, rfl⟩, rfl⟩

theorem witness_RawWriteIsBounded :
    (∃ t, exec (.rawWrite .encode) (p1 .encode 30) = .next t) ∧ (∃ t, exec (.rawWrite .attempt) p1Attempt = .next t) ∧
    ∃ t, exec (.rawWrite .delay) (answering p1Delay [.ok []]) = .next t := ⟨⟨_, rfl⟩, ⟨_, rfl⟩, _, rfl⟩

theorem witness_RawReadIsOneTransaction :
    ((p3 .encode 16).fsm = .encode ∧ (p3 .encode 16).op = .read ∧ (p3 .encode 16).cur < (p3 .encode 16).endp ∧
      (List.replicate 16 7#8).length = (p3 .encode 16).klen ∧
      AnswersFrom (answering (p3 .encode 16) [.ok (List.replicate 16 7)]) [.ok (List.replicate 16 7)]) ∧
    (255 < 2 ^ (p3 .encode 16).params.errW ∧ AnswersFrom (answering (p3 .encode 16) [.err 255]) [.err 255]) ∧
    (p3Attempt.fsm = .attempt ∧ p3Attempt.op = .read ∧
      p3Attempt.cur < p3Attempt.endp ∧ (List.replicate 16 7#8).length = p3Attempt.klen ∧
      AnswersFrom (answering p3Attempt [.ok (List.replicate 16 7)]) [.ok (List.replicate 16 7)]) ∧
    (255 < 2 ^ p3Attempt.params.errW ∧ AnswersFrom (answering p3Attempt [.err 255]) [.err 255]) :=
  ⟨⟨rfl, rfl, by decide, by decide, rfl, rfl⟩, ⟨by decide, rfl, rfl⟩, ⟨rfl, rfl, by decide, by decide, rfl, rfl⟩,
    by decide, rfl, rfl⟩

theorem witness_RawWriteRefusesEmptyChunk :
    (p1 .encode 35).fsm = .encode ∧ (p1 .encode 35).op = .write ∧ (p1 .encode 35).klen = 0 := by decide

/-- At the last address of the address space, and the same command offered on CMD. -/
theorem witness_ZeroLengthCommands :
    State.reset.fsm = .idle ∧ (∃ t, exec (.write 0xFFFF 0) State.reset = .next t) ∧
    (State.reset.offer ⟨.write, 0xFFFF, 0, []⟩).fsm = .idle ∧ (State.reset.offer ⟨.write, 0xFFFF, 0, []⟩).slot = none ∧
    (State.reset.offer ⟨.write, 0xFFFF, 0, []⟩).cmds = [⟨.write, 0xFFFF, 0, []⟩] := ⟨rfl, ⟨_, rfl⟩, rfl, rfl, rfl⟩

theorem witness_BusyBlockHoldsCommandsOff : p1Attempt.fsm ≠ .idle := by decide

theorem witness_WriteTraceWhenAccepted :
    Ready State.reset ∧ 5 < 2 ^ State.reset.params.lenW ∧
    [[255], List.replicate 10 255].length = chunkCount (30#16).toNat 5 ∧
    (∀ es ∈ [[255], List.replicate 10 255], FewErrors State.reset.params es) ∧
    AnswersFrom (answering State.reset ([[255], List.replicate 10 255].flatMap acceptAfter))
      ([[255], List.replicate 10 255].flatMap acceptAfter ++ []) :=
  ⟨ready_reset, by decide, by decide, (fun es h => by
    rcases List.mem_cons.1 h with rfl | h
    · exact few_errors 1 (by decide)
    · rw [List.mem_singleton.1 h]
      exact few_errors 10 (by decide)), rfl, rfl⟩

/-- P4: the second chunk fails 11 times. -/
theorem witness_WriteTraceWhenExhausted :
    Ready State.reset ∧ 10 < 2 ^ State.reset.params.lenW ∧ [([] : List Nat)].length < chunkCount (60#16).toNat 10 ∧
    (∀ es ∈ [([] : List Nat)], FewErrors State.reset.params es) ∧ (List.replicate 10 255).length = 10 ∧
    FewErrors State.reset.params (List.replicate 10 255) ∧ 254 < 2 ^ State.reset.params.errW ∧
    AnswersFrom (answering State.reset ([[]].flatMap acceptAfter ++ (failAnswers (List.replicate 10 255) ++ [.err 254])))
      ([[]].flatMap acceptAfter ++ (failAnswers (List.replicate 10 255) ++ .err 254 :: [])) :=
  ⟨ready_reset, by decide, by decide, (fun es h => by
    rw [List.mem_singleton.1 h]
    exact few_errors 0 (by decide)), rfl, few_errors 10 (by decide), by decide, rfl, rfl⟩

/-- V-RD5. -/
theorem witness_ReadDeliversTheBursts :
    Ready State.reset ∧ 2 < 2 ^ State.reset.params.lenW ∧ [[0xC7#8], [0xD8#8]].length = chunkCount (31#16).toNat 2 ∧
    BurstsFit (31#16).toNat 2 0 [[0xC7], [0xD8]] ∧
    AnswersFrom (answering State.reset [.ok [0xC7], .ok [0xD8]]) ([[0xC7#8], [0xD8#8]].map .ok ++ []) :=
  ⟨ready_reset, by decide, by decide, ⟨by decide, by decide, trivial⟩, rfl, rfl⟩

/-- V-RD3 on the range of V-RD5. -/
theorem witness_ReadStopsAtTheFirstError :
    Ready State.reset ∧ 2 < 2 ^ State.reset.params.lenW ∧ [[0xC7#8]].length < chunkCount (31#16).toNat 2 ∧
    BurstsFit (31#16).toNat 2 0 [[0xC7]] ∧ 255 < 2 ^ State.reset.params.errW ∧
    AnswersFrom (answering State.reset [.ok [0xC7], .err 255]) ([[0xC7#8]].map .ok ++ .err 255 :: []) :=
  ⟨ready_reset, by decide, by decide, ⟨by decide, trivial⟩, by decide, rfl, rfl⟩

theorem witness_ReadHasNoRetryLayer :
    Ready State.reset ∧ 40 < 2 ^ State.reset.params.lenW ∧
    (∃ t, exec (.read 16 40) (answering State.reset [.err 3]) = .next t ∧ t.fsm = .idle) ∧
    (∃ t, exec (.read 16 40) State.reset = .next t ∧ t.fsm ≠ .idle) ∧
    TransportLive (chunkCount (16#16).toNat 40) (answering State.reset [.err 3, .ok []]) :=
  ⟨⟨rfl, rfl, rfl⟩, by decide, ⟨_, rfl, rfl⟩, ⟨_, rfl, by decide⟩, Or.inr (by decide)⟩

/-- A WRITE that ends, and one whose transport stops answering. -/
theorem witness_WriteIsBounded :
    Ready State.reset ∧ 5 < 2 ^ State.reset.params.lenW ∧
    (∃ t, exec (.write 30 5) (answering State.reset [.ok [], .ok []]) = .next t ∧ t.fsm = .idle) ∧
    (∃ t, exec (.write 30 5) (answering State.reset [.ok []]) = .next t ∧ t.fsm ≠ .idle) ∧
    TransportLive (21 * chunkCount (30#16).toNat 5) (answering State.reset (List.replicate 42 (.ok []))) :=
  ⟨ready_reset, by decide, ⟨_, rfl, rfl⟩, ⟨_, rfl, by decide⟩, Or.inr (by decide)⟩

theorem witness_SequencerAgreesWithPseudocode :
    Ready State.reset ∧ (State.reset.offer ⟨.write, 30, 5, [1]⟩).cmds = ⟨.write, 30, 5, [1]⟩ :: [] ∧
    (State.reset.offer ⟨.read, 30, 5, [1]⟩).cmds = ⟨.read, 30, 5, [1]⟩ :: [] := ⟨ready_reset, rfl, rfl⟩

/-- V-C14: first, full, last. -/
theorem witness_ChunksPartitionTheRange :
    chunkCount 31 34 = 3 ∧ 2 < chunkCount 31 34 ∧ 1 + 1 < chunkCount 31 34 ∧ 2 + 1 = chunkCount 31 34 := by decide

theorem witness_DeviceMemoryLaws :
    Memory.wf [(0, 0), (8191, 1)] = true ∧ Memory.bounded [(0, 0), (8191, 1)] = true ∧ 0 < [7#8].length ∧
    8191 + [7#8].length ≤ 8192 := by decide

theorem witness_AttemptReachesTheDevice :
    (BlockInv p1Device ∧ Strapped p1Device ∧ InRange p1Device.base.toNat p1Device.len ∧ p1Device.fsm = .attempt ∧
      p1Device.transport.device.tick.busy = false) ∧
    ({ p1Device with hwAddr := 1 } : State).transport.device.strap ≠ ({ p1Device with hwAddr := 1 } : State).hwAddr ∧
    ({ Device.fresh with busy := true } : Device).tick.busy = true ∧ p1Device.retries.toNat < 10 :=
  ⟨⟨inv_p1Device, ⟨rfl, rfl⟩, (by unfold InRange; decide), rfl, rfl⟩, by decide, rfl, by decide⟩

/-- The first cycle ends just before the 11th attempt of the second chunk; and a zero-length WRITE. -/
theorem witness_WriteReachesTheDevice :
    Ready deviceReady ∧ Strapped deviceReady ∧ InRange (30#16).toNat 5 ∧ 5 < 2 ^ deviceReady.params.lenW ∧
    deviceReady.transport.device.mem.wf = true ∧ 10 ≤ 10 ∧
    CycleBounded 10 (chunkCount (30#16).toNat 5) deviceReady.transport.device ∧
    CycleBounded 0 (chunkCount (30#16).toNat 0) deviceReady.transport.device :=
  ⟨ready_deviceReady, strapped_deviceReady, (by unfold InRange; decide), by decide, rfl, by decide,
    cycleBounded_deviceReady, trivial⟩

/-- The last byte of the device. -/
theorem witness_ReadReturnsTheDevice :
    Ready deviceReady ∧ Strapped deviceReady ∧ InRange (8191#16).toNat 1 ∧ 1 < 2 ^ deviceReady.params.lenW ∧
    DeviceIdle deviceReady :=
  ⟨ready_deviceReady, strapped_deviceReady, (by unfold InRange; decide), by decide, rfl⟩

theorem witness_RoundTrip :
    Ready deviceReady ∧ Strapped deviceReady ∧ InRange (8160#16).toNat 32 ∧ 32 < 2 ^ deviceReady.params.lenW ∧
    deviceReady.transport.device.mem.wf = true ∧ 0 ≤ 10 ∧
    CycleBounded 0 (chunkCount (8160#16).toNat 32) deviceReady.transport.device :=
  ⟨ready_deviceReady, strapped_deviceReady, (by unfold InRange; decide), by decide, rfl, by decide,
    ⟨List.replicate 20 false ++ [true], rfl, trivial⟩⟩

/-- P6. -/
theorem witness_AbsentDevice :
    Ready { deviceReady with hwAddr := 1 } ∧ ({ deviceReady with hwAddr := 1 } : State).transport.responder = .device ∧
    ({ deviceReady with hwAddr := 1 } : State).transport.device.strap ≠ 1 ∧ 4 < 2 ^ deviceReady.params.lenW ∧
    0 < 4 ∧ 0 < 2 ^ deviceReady.params.lenW := ⟨⟨rfl, rfl, rfl⟩, rfl, by decide, by decide, by decide, by decide⟩

theorem witness_ResetOnlyAsInitialState :
    p1Attempt.fsm ≠ .idle ∧ State.reset.fsm = .idle ∧ (∃ t, step (p1 .encode 30) = .next t) ∧
    EnvMove State.reset (State.reset.offer ⟨.read, 0, 1, []⟩) := ⟨by decide, rfl, ⟨_, rfl⟩, Or.inl ⟨_, rfl⟩⟩

end Sys2Proof.Tests
end

section
/-! Proofs of the statements about the state of the block (spec/10_state.md): the invariants of R34 are kept by every step,
what they say of a chunk, and what no operation changes. -/

namespace Sys2Proof.Machine

/-! ## The invariants outside a chunk, and across a reply -/

theorem requesting_inChunk {s : State} (h : s.requesting) : s.inChunk := Or.inr h

/-- Outside a chunk with no reply pending, R34 (c), (e), (h) and (i) say nothing. -/
theorem BlockInv.of_outside {s : State} (hf : ¬ s.inChunk) (hr : s.reply = none)
    (retries : s.retries.toNat ≤ Config.maxRetries)
    (aligned : s.cur = s.base.toNat ∨ (s.cur % 32 = 0 ∧ s.base.toNat < s.cur))
    (lenWidth : s.len < 2 ^ s.params.lenW) (errWidth : s.err < 2 ^ s.params.errW)
    (curWidth : s.cur < 2 ^ s.params.curW)
    (memory : s.transport.device.mem.wf = true ∧ s.transport.device.mem.bounded = true)
    (slotEmpty : s.slot = none) : BlockInv s where
  retries := retries
  insideChunk h := absurd h hf
  aligned := aligned
  header h := absurd (requesting_inChunk h) hf
  payload h := absurd (requesting_inChunk h) hf
  replyPlace h := absurd hr h
  delayWrite h := absurd (Or.inr (Or.inr h)) hf
  lenWidth := lenWidth
  errWidth := ⟨errWidth, by simp [hr]⟩
  curWidth := curWidth
  memory := memory
  slotEmpty := slotEmpty

/-- The next state of a block that leaves its chunk with its operands and the transport as they were. -/
theorem BlockInv.leave {s t : State} (h : BlockInv s) (hf : ¬ t.inChunk) (hr : t.reply = none)
    (hp : t.params = s.params) (hretries : t.retries = s.retries) (hlen : t.len = s.len)
    (ht : t.transport = s.transport) (hslot : t.slot = s.slot)
    (aligned : t.cur = t.base.toNat ∨ (t.cur % 32 = 0 ∧ t.base.toNat < t.cur))
    (errWidth : t.err < 2 ^ s.params.errW) (curWidth : t.cur < 2 ^ s.params.curW) : BlockInv t :=
  .of_outside hf hr (hretries ▸ h.retries) aligned (hp ▸ hlen ▸ h.lenWidth) (hp ▸ errWidth) (hp ▸ curWidth)
    (ht ▸ h.memory) (hslot.trans h.slotEmpty)

/-- Outside `ATTEMPT` and `DELAY` no reply is pending (R34 (h)). -/
theorem BlockInv.reply_none {s : State} (h : BlockInv s) (hf : ¬ s.requesting) : s.reply = none := by
  by_contra hr
  exact hf (h.replyPlace hr)

/-- A reply taken, from an attempt or a sleep, keeps the invariants. -/
theorem BlockInv.of_reply {s s1 : State} (h : BlockInv s) (hs : SameRegisters s s1) (hk : Keeps s s1) : BlockInv s1 where
  retries := hs.retries ▸ h.retries
  insideChunk := by simpa only [State.inChunk, hs.fsm, hs.base, hs.cur, hs.endp] using h.insideChunk
  aligned := by simpa only [hs.base, hs.cur] using h.aligned
  header := by simpa only [State.requesting, hs.fsm, hs.scratchTo, hs.curAddr] using h.header
  payload := by
    simpa only [State.requesting, hs.fsm, hs.op, hs.scratchTo, hs.klen, hs.curAddr, hs.chunkData] using h.payload
  replyPlace hr := absurd hs.reply hr
  delayWrite := by simpa only [hs.fsm, hs.op, hs.retries] using h.delayWrite
  lenWidth := by simpa only [hs.len, hs.params] using h.lenWidth
  errWidth := ⟨by simpa only [hs.err, hs.params] using h.errWidth.1, by simp [hs.reply]⟩
  curWidth := by simpa only [hs.cur, hs.params] using h.curWidth
  memory := hk.memory h.memory
  slotEmpty := hs.slot.trans h.slotEmpty

theorem BlockInv.of_attemptReply {s s1 : State} {r : Reply} (h : BlockInv s) (hr : attemptReply s = .replied r s1) :
    BlockInv s1 := h.of_reply (attemptReply_same hr) (attemptReply_keeps hr)

theorem BlockInv.of_sleepReply {s s1 : State} {r : Reply} (h : BlockInv s) (hr : sleepReply s = .replied r s1) :
    BlockInv s1 := h.of_reply (sleepReply_same hr) (sleepReply_keeps hr)

/-- The error value an attempt replies with is `ERR_W` bits wide (R28), be it pending or given now. -/
theorem attemptReply_err_lt {s s1 : State} {e : Nat} (h : BlockInv s) (hr : attemptReply s = .replied (.err e) s1) :
    e < 2 ^ s.params.errW := by
  rcases attemptReply_cases s with ⟨r, hp, h'⟩ | ⟨_, _, h'⟩ | ⟨_, _, h'⟩ | ⟨a, t, _, _, h'⟩ <;>
    rw [h'] at hr <;> simp only [Performed.replied.injEq, reduceCtorEq] at hr
  · exact h.errWidth.2 e (hr.1 ▸ hp)
  · cases a with
    | ok bytes => simp [replyOf] at hr
    | err v =>
      obtain ⟨he, _⟩ := hr
      cases he
      exact portErr_lt s.params v

/-! ## The cursor -/

theorem BlockInv.base_le_cur {s : State} (h : BlockInv s) : s.base.toNat ≤ s.cur := by
  have := h.aligned
  omega

/-- A latched address fits the cursor's register (R25). -/
theorem addr_lt_curW (a : Addr) (p : Params) : a.toNat < 2 ^ p.curW :=
  lt_of_lt_of_le a.isLt (Nat.pow_le_pow_right (by decide) (by unfold Params.curW; omega))

/-- `CUR_W` bits hold the cursor of the next chunk: nothing wraps (R25, 43_paginated_write.md R152). -/
theorem next_cur_lt {s : State} (hc : s.cur < s.endp) (hl : s.len < 2 ^ s.params.lenW) :
    s.cur + s.rem < 2 ^ s.params.curW := by
  have hb : s.base.toNat < 65536 := s.base.isLt
  have hr := rem_le s
  have h16 : 65536 ≤ 2 ^ max 16 s.params.lenW := Nat.pow_le_pow_right (n := 2) (by decide) (le_max_left 16 _)
  have hlen : 2 ^ s.params.lenW ≤ 2 ^ max 16 s.params.lenW := Nat.pow_le_pow_right (by decide) (le_max_right 16 _)
  rw [Params.curW, pow_add]
  unfold State.endp at hc
  omega

/-! ## Each transition keeps the invariants -/

theorem BlockInv.accept {s : State} {c : Command} {rest : List Command} (h : BlockInv s) (hf : s.fsm = .idle) :
    BlockInv (lendSlice c (latchCommand c.op c.addr c.len { s with cmds := rest })) := by
  have hr : s.reply = none := h.reply_none (by simp [State.requesting, hf])
  refine .of_outside ?_ ?_ ?_ (Or.inl ?_) ?_ ?_ ?_ ?_ ?_
  · simp [State.inChunk]
  · simpa using hr
  · simpa using h.retries
  · simp
  · simpa using portLen_lt s.params c.len
  · simpa using h.errWidth.1
  · simpa using addr_lt_curW c.addr s.params
  · simpa using h.memory
  · simpa using h.slotEmpty

theorem BlockInv.chunkDone {s : State} (h : BlockInv s) (hf : s.fsm = .chunk) : BlockInv (respond .ok s) :=
  h.leave (by simp [State.inChunk]) (h.reply_none (by simp [State.requesting, hf])) rfl rfl rfl rfl rfl h.aligned
    h.errWidth.1 h.curWidth

theorem BlockInv.chunkNext {s : State} (h : BlockInv s) (hf : s.fsm = .chunk) (ht : s.chunkTodo = true) :
    BlockInv { s with fsm := .encode } where
  retries := h.retries
  insideChunk _ := ⟨h.base_le_cur, chunkTodo_iff.1 ht⟩
  aligned := h.aligned
  header hq := by simp [State.requesting] at hq
  payload hq := by simp [State.requesting] at hq
  replyPlace hr := absurd (h.reply_none (by simp [State.requesting, hf])) hr
  delayWrite hd := by simp at hd
  lenWidth := h.lenWidth
  errWidth := h.errWidth
  curWidth := h.curWidth
  memory := h.memory
  slotEmpty := h.slotEmpty

theorem BlockInv.encode {s : State} (h : BlockInv s) (hf : s.fsm = .encode) : BlockInv (encodeChunk s) where
  retries := by simp
  insideChunk _ := by simpa using h.insideChunk (Or.inl hf)
  aligned := by simpa using h.aligned
  header _ := by simpa using encodeChunk_header s
  payload _ ho := by simpa using encodeChunk_frame (s := s) (by simpa using ho)
  replyPlace _ := Or.inl (encodeChunk_fsm s)
  delayWrite hd := by simp at hd
  lenWidth := by simpa using h.lenWidth
  errWidth := by simpa using h.errWidth
  curWidth := by simpa using h.curWidth
  memory := by simpa using h.memory
  slotEmpty := by simpa using h.slotEmpty

/-- The next cursor is a page boundary above `base` (R34 (d)) and fits `CUR_W` bits. -/
theorem BlockInv.advance {s : State} (h : BlockInv s) (hf : s.fsm = .attempt) (hr : s.reply = none) :
    BlockInv (advance s) := by
  obtain ⟨hbase, hend⟩ := h.insideChunk (Or.inr (Or.inl hf))
  refine h.leave (by simp [State.inChunk]) hr rfl rfl rfl rfl rfl (Or.inr ?_) h.errWidth.1
    (next_cur_lt hend h.lenWidth)
  rw [advance_cur_eq, advance_base]
  omega

theorem BlockInv.toDelay {s : State} {e : Nat} (h : BlockInv s) (hf : s.fsm = .attempt) (hr : s.reply = none)
    (he : e < 2 ^ s.params.errW) (hm : s.mayRetry = true) : BlockInv (toDelay e s) where
  retries := h.retries
  insideChunk _ := h.insideChunk (Or.inr (Or.inl hf))
  aligned := h.aligned
  header _ := h.header (Or.inl hf)
  payload _ ho := by simpa using h.payload (Or.inl hf) ho
  replyPlace hp := absurd hr hp
  delayWrite _ := by simpa [State.mayRetry] using hm
  lenWidth := h.lenWidth
  errWidth := ⟨he, h.errWidth.2⟩
  curWidth := h.curWidth
  memory := h.memory
  slotEmpty := h.slotEmpty

theorem BlockInv.raise {s : State} {e : Nat} (h : BlockInv s) (hr : s.reply = none) (he : e < 2 ^ s.params.errW) :
    BlockInv (raiseTransportError e s) :=
  h.leave (by simp [State.inChunk]) (by simpa using hr) (by simp) (by simp) (by simp) (by simp) (by simp)
    (by simpa using h.aligned) (by simpa using he) (by simpa using h.curWidth)

/-- `DELAY` is entered with a retry left, so that the count of it stays within the 10 of R34 (b). -/
theorem BlockInv.afterDelay {s : State} (h : BlockInv s) (hf : s.fsm = .delay) (hr : s.reply = none) :
    BlockInv (afterDelay s) where
  retries := by
    have hlt := (h.delayWrite hf).2
    rw [afterDelay_retries, BitVec.toNat_add]
    exact le_trans (Nat.mod_le _ _) hlt
  insideChunk _ := h.insideChunk (Or.inr (Or.inr hf))
  aligned := h.aligned
  header _ := h.header (Or.inr hf)
  payload _ ho := by simpa using h.payload (Or.inr hf) ho
  replyPlace hp := absurd hr hp
  delayWrite hd := by simp at hd
  lenWidth := h.lenWidth
  errWidth := h.errWidth
  curWidth := h.curWidth
  memory := h.memory
  slotEmpty := h.slotEmpty

theorem BlockInv.transition {s t : State} (h : BlockInv s) (ht : Transition s (.next t)) : BlockInv t := by
  cases ht with
  | idleWaits | attemptWaits | delayWaits => exact h
  | accept c rest hf hc => exact h.accept hf
  | chunkDone hf => exact h.chunkDone hf
  | chunkNext hf ht => exact h.chunkNext hf ht
  | encode hf => exact h.encode hf
  | attemptOk s1 hf hr =>
    have hs := attemptReply_same hr
    exact (h.of_attemptReply hr).advance (hs.fsm.trans hf) hs.reply
  | attemptRetry e s1 hf hr hm =>
    have hs := attemptReply_same hr
    exact (h.of_attemptReply hr).toDelay (hs.fsm.trans hf) hs.reply (hs.params ▸ attemptReply_err_lt h hr)
      (by simpa only [State.mayRetry, hs.op, hs.retries] using hm)
  | attemptFail e s1 hf hr hm =>
    have hs := attemptReply_same hr
    exact (h.of_attemptReply hr).raise hs.reply (hs.params ▸ attemptReply_err_lt h hr)
  | delay r s1 hf ho hr =>
    have hs := sleepReply_same hr
    exact (h.of_sleepReply hr).afterDelay (hs.fsm.trans hf) hs.reply

/-- Settles O12: each transition of the sequencer's table keeps the invariants. -/
theorem stepKeepsInvariants : Obligations.StepKeepsInvariants := by
  intro s t h hstep
  exact h.transition (hstep ▸ step_transition h.slotEmpty)

/-! ## What the invariants say of a chunk -/

/-- A request stands on TR exactly in `ATTEMPT` and `DELAY` (R34 (h)). -/
theorem request_ne_none_iff (s : State) : s.request ≠ none ↔ s.requesting := by
  unfold State.request State.requesting
  cases s.fsm <;> cases s.op <;> simp

/-- Settles O13, from the chunk arithmetic of NEXT_CHUNK. -/
theorem invariantsBoundTheChunk : Obligations.InvariantsBoundTheChunk := by
  intro s h
  refine ⟨fun hc => ?_, request_ne_none_iff s⟩
  obtain ⟨hbase, hend⟩ := h.insideChunk hc
  obtain ⟨hcend, hmin⟩ := klen_eq_cend_sub_rel hbase hend
  have hk := klen_le_rem s
  have hrem := rem_le s
  have hoff : s.off + s.rem = 32 := by
    unfold State.rem State.off Config.pageSize
    omega
  have hrel : s.rel < s.len := by
    unfold State.rel
    unfold State.endp at hend
    omega
  exact ⟨by omega, hrel, klen_pos hend, hk, hrem, by omega, by omega, hcend, hmin⟩

/-! ## Progress -/

theorem mayRetry_or_mustFail {s : State} (h : s.retries.toNat ≤ Config.maxRetries) :
    s.mayRetry = true ∨ s.mustFail = true := by
  simp only [State.mayRetry, State.mustFail, decide_eq_true_eq]
  cases s.op with
  | read => exact Or.inr (Or.inl rfl)
  | write =>
    rcases lt_or_eq_of_le h with hlt | heq
    · exact Or.inl ⟨rfl, hlt⟩
    · exact Or.inr (Or.inr heq)

theorem attemptReply_noMeaning {s : State} (h : attemptReply s = .noMeaning) :
    s.transport.serve (attemptRequest s) = .noMeaning := by
  rcases attemptReply_cases s with ⟨_, _, h'⟩ | ⟨_, _, h'⟩ | ⟨_, hq, _⟩ | ⟨_, _, _, _, h'⟩
  · simp [h'] at h
  · simp [h'] at h
  · exact hq
  · simp [h'] at h

/-- Only the reference device leaves a request without a meaning (20_memory.md R59, R70). -/
theorem responder_of_noMeaning {t : Transport} {q : Request} (h : t.serve q = .noMeaning) : t.responder = .device := by
  cases hr : t.responder with
  | answers => exact absurd h (serve_answers_meaning hr q)
  | device => rfl

/-- The frame of a chunk inside the device has a meaning for the reference device. -/
theorem BlockInv.attempt_meaning {s : State} (h : BlockInv s) (hf : s.fsm = .attempt)
    (hd : s.transport.responder = .device) (hr : InRange s.base.toNat s.len) :
    s.transport.serve (attemptRequest s) ≠ .noMeaning := by
  obtain ⟨hbase, hend⟩ := h.insideChunk (Or.inr (Or.inl hf))
  cases ho : s.op with
  | write =>
    rw [attemptRequest_write ho, serve_writeRequest hd (h.payload (Or.inl hf) ho) hbase hend hr]
    split_ifs <;> simp
  | read =>
    rw [attemptRequest_read ho, serve_readRequest hd (h.header (Or.inl hf)) hbase hend hr]
    split_ifs <;> simp

/-- From a state of the invariants a step goes on, or an attempt's request is one the reference device gives no meaning. -/
theorem BlockInv.progress {s : State} (h : BlockInv s) :
    (∃ t, step s = .next t) ∨
      (step s = .refused .deviceNoMeaning ∧ s.fsm = .attempt ∧
        s.transport.serve (attemptRequest s) = .noMeaning) := by
  have ht := step_transition h.slotEmpty
  cases hs : step s with
  | next t => exact Or.inl ⟨t, rfl⟩
  | refused r =>
    rw [hs] at ht
    cases ht with
    | deviceRefuses hf hn => exact Or.inr ⟨rfl, hf, attemptReply_noMeaning hn⟩
  | fault r =>
    rw [hs] at ht
    cases ht with
    | attemptStuck e s1 hf hr hm hn =>
      have := mayRetry_or_mustFail h.retries
      simp [hm, hn] at this
    | delayStuck hf ho => simp [(h.delayWrite hf).1] at ho

/-- Settles O14: a refusal comes from the reference device, which gives the block's frames a meaning inside `InRange`. -/
theorem invariantStatesAlwaysStep : Obligations.InvariantStatesAlwaysStep := by
  intro s h
  rcases h.progress with hnext | ⟨hstep, hf, hq⟩
  · exact ⟨Or.inl hnext, fun _ => hnext⟩
  · have hd := responder_of_noMeaning hq
    exact ⟨Or.inr ⟨hstep, hd⟩, fun hr => absurd hq (h.attempt_meaning hf hd hr)⟩

/-! ## What no operation changes -/

/-- Settles O16: `hw_addr` and the widths are among what every operation keeps. -/
theorem hardwareAddressNeverWritten : Obligations.HardwareAddressNeverWritten := fun _ _ _ h =>
  ⟨(exec_keeps h).hwAddr, (exec_keeps h).params⟩

/-! ## What a sequencer step does where it has an effect -/

theorem execAccept_next {o : Op} {s t : State} (h : execAccept o s = .next t) :
    ∃ c rest, s.fsm = .idle ∧ s.op = o ∧ s.cmds = c :: rest ∧
      t = lendSlice c (latchCommand c.op c.addr c.len { s with cmds := rest }) := by
  unfold execAccept at h
  split at h
  · rename_i hg
    split at h <;> simp only [Host.Outcome.next.injEq, reduceCtorEq] at h
    exact ⟨_, _, hg.1, hg.2, by assumption, h.symm⟩
  · simp at h

theorem execChunkDone_next {o : Op} {s t : State} (h : execChunkDone o s = .next t) :
    s.fsm = .chunk ∧ s.op = o ∧ s.chunkTodo = false ∧ t = respond .ok s := by
  unfold execChunkDone at h
  split at h <;> simp only [Host.Outcome.next.injEq, reduceCtorEq] at h
  rename_i hg
  exact ⟨hg.1, hg.2.1, hg.2.2, h.symm⟩

theorem execChunkNext_next {o : Op} {s t : State} (h : execChunkNext o s = .next t) :
    s.fsm = .chunk ∧ s.op = o ∧ s.chunkTodo = true ∧ t = { s with fsm := .encode } := by
  unfold execChunkNext at h
  split at h <;> simp only [Host.Outcome.next.injEq, reduceCtorEq] at h
  rename_i hg
  exact ⟨hg.1, hg.2.1, hg.2.2, h.symm⟩

theorem execAttemptOk_next {o : Op} {s t : State} (h : execAttemptOk o s = .next t) :
    ∃ s1, s.fsm = .attempt ∧ s.op = o ∧ attemptReply s = .replied .ok s1 ∧ t = advance s1 := by
  unfold execAttemptOk at h
  split at h
  · rename_i hg
    split at h <;> simp only [Host.Outcome.next.injEq, reduceCtorEq] at h
    exact ⟨_, hg.1, hg.2, by assumption, h.symm⟩
  · simp at h

theorem execAttemptRetry_next {s t : State} (h : execAttemptRetry s = .next t) :
    ∃ e s1, s.fsm = .attempt ∧ s.mayRetry = true ∧ attemptReply s = .replied (.err e) s1 ∧ t = toDelay e s1 := by
  unfold execAttemptRetry at h
  split at h
  · rename_i hg
    split at h <;> simp only [Host.Outcome.next.injEq, reduceCtorEq] at h
    exact ⟨_, _, hg.1, hg.2, by assumption, h.symm⟩
  · simp at h

theorem execAttemptFail_next {o : Op} {s t : State} (h : execAttemptFail o s = .next t) :
    ∃ e s1, s.fsm = .attempt ∧ s.op = o ∧ s.mustFail = true ∧ attemptReply s = .replied (.err e) s1 ∧
      t = raiseTransportError e s1 := by
  unfold execAttemptFail at h
  split at h
  · rename_i hg
    split at h <;> simp only [Host.Outcome.next.injEq, reduceCtorEq] at h
    exact ⟨_, _, hg.1, hg.2.1, hg.2.2, by assumption, h.symm⟩
  · simp at h

theorem execDelay_next {s t : State} (h : execDelay s = .next t) :
    ∃ r s1, s.fsm = .delay ∧ s.op = .write ∧ sleepReply s = .replied r s1 ∧ t = afterDelay s1 := by
  unfold execDelay at h
  split at h
  · rename_i hg
    split at h <;> simp only [Host.Outcome.next.injEq, reduceCtorEq] at h
    exact ⟨_, _, hg.1, hg.2, by assumption, h.symm⟩
  · simp at h

/-! ## The scratch buffer -/

theorem performWrite_scratch {s s1 : State} {r : Reply} (h : performWrite s = .replied r s1) :
    s1.scratch = s.scratch := by
  rcases performWrite_cases s with ⟨_, h'⟩ | ⟨_, h'⟩ | ⟨a, t, hq⟩
  · simp [h'] at h
  · simp [h'] at h
  · rw [performWrite_answered hq] at h
    cases h
    rfl

theorem performWriteRead_scratch {s s1 : State} {r : Reply} (h : performWriteRead s = .replied r s1) :
    s1.scratch = s.scratch := by
  rcases performWriteRead_cases s with ⟨_, h'⟩ | ⟨_, h'⟩ | ⟨a, t, hq⟩
  · simp [h'] at h
  · simp [h'] at h
  · rw [performWriteRead_answered hq] at h
    cases h
    rfl

theorem performSleep_scratch {s s1 : State} {r : Reply} (h : performSleep s = .replied r s1) :
    s1.scratch = s.scratch := by
  rcases performSleep_cases s with ⟨_, h'⟩ | ⟨a, t, hq⟩
  · simp [h'] at h
  · rw [performSleep_answered hq] at h
    cases h
    rfl

theorem finishPrimitive_scratch {kind : BitVec 2} {s t : State} {p : Performed}
    (hp : ∀ r s1, p = .replied r s1 → s1.scratch = s.scratch) (h : finishPrimitive kind s p = .next t) :
    t.scratch = s.scratch := by
  obtain ⟨_, ⟨_, rfl⟩ | ⟨r, s1, hr, rfl⟩⟩ := finishPrimitive_next h
  · rfl
  · exact hp r s1 hr

/-- R22: an operation that is not built from ENC_HDR or LOAD_PAYLOAD leaves all of scratch. -/
theorem exec_scratch_of_not_writer {i : Instr} {s t : State} (h : exec i s = .next t) (hw : writesScratch i = false) :
    t.scratch = s.scratch := by
  cases i with
  | encHdr | loadPayload | encode | rawWrite | rawRead | write | read => simp [writesScratch] at hw
  | nextChunk | devAddr | rframe => cases h; rfl
  | wframe a ds =>
    simp only [exec, execWframe] at h
    split at h <;> cases h
    rfl
  | trWrite => exact finishPrimitive_scratch (fun _ _ => performWrite_scratch) h
  | trWriteRead => exact finishPrimitive_scratch (fun _ _ => performWriteRead_scratch) h
  | trSleep => exact finishPrimitive_scratch (fun _ _ => performSleep_scratch) h
  | accept o =>
    obtain ⟨c, rest, _, _, _, rfl⟩ := execAccept_next h
    simp
  | chunkDone o =>
    obtain ⟨_, _, _, rfl⟩ := execChunkDone_next h
    simp
  | chunkNext o =>
    obtain ⟨_, _, _, rfl⟩ := execChunkNext_next h
    rfl
  | attemptOk o =>
    obtain ⟨s1, _, _, hr, rfl⟩ := execAttemptOk_next h
    simpa using (attemptReply_same hr).scratch
  | attemptRetry =>
    obtain ⟨e, s1, _, _, hr, rfl⟩ := execAttemptRetry_next h
    simpa using (attemptReply_same hr).scratch
  | attemptFail o =>
    obtain ⟨e, s1, _, _, _, hr, rfl⟩ := execAttemptFail_next h
    simpa using (attemptReply_same hr).scratch
  | delay =>
    obtain ⟨r, s1, _, _, hr, rfl⟩ := execDelay_next h
    simpa using (sleepReply_same hr).scratch

/-- All that RAW_READ can do (42_raw_read.md R140): in `ENCODE` the whole of it, in `ATTEMPT` its one transaction. -/
theorem execRawRead_next {f : Fsm} {s t : State} (h : execRawRead f s = .next t) :
    s.op = .read ∧ s.fsm = f ∧
      ((f = .encode ∧ finishRaw (rawRead s) = .next t) ∨ (f = .attempt ∧ finishRaw (rawAttempts 0 s) = .next t)) := by
  unfold execRawRead at h
  split at h
  · rename_i hg
    split at h
    · simp at h
    · split at h
      · exact ⟨hg.2, hg.1, Or.inl ⟨rfl, h⟩⟩
      · exact ⟨hg.2, hg.1, Or.inr ⟨rfl, h⟩⟩
      all_goals simp at h
  · simp at h

/-- RAW_READ writes no more of scratch than the header (42_raw_read.md R144). -/
theorem execRawRead_payload {f : Fsm} {s t : State} (h : execRawRead f s = .next t) {k : Nat} (hk : k < 34)
    (h2 : 2 ≤ k) : t.scratch[k] = s.scratch[k] := by
  have hfinish := @finishRaw_keeps HeaderOnly (fun _ _ => .of_eq rfl rfl) headerOnly.trans
  obtain ⟨ho, _, ⟨_, hr⟩ | ⟨_, hr⟩⟩ := execRawRead_next h
  · exact (hfinish (rawRead_keeps headerOnly s) hr ho).2 k hk h2
  · exact (hfinish (rawAttempts_keeps headerOnly.toRawKeeps 0 s) hr ho).2 k hk h2

/-- READ, chunk after chunk, writes no more of scratch than the header (44_paginated_read.md R176). -/
theorem execRead_payload {a : Addr} {n : Nat} {s t : State} (h : execRead a n s = .next t) {k : Nat} (hk : k < 34)
    (h2 : 2 ≤ k) : t.scratch[k] = s.scratch[k] := by
  unfold execRead at h
  split at h
  · simpa using (chunkLoop_keeps headerOnly (rawRead_keeps headerOnly) h (latchCommand_op ..)).2 k hk h2
  · cases h
    rfl

/-- ENC_HDR writes no more of scratch than the header (40_address_encoder.md R110). -/
theorem encHdr_payload (a : Addr) (s : State) {k : Nat} (hk : k < 34) (h2 : 2 ≤ k) :
    (encHdr a s).scratch[k] = s.scratch[k] := by
  simp only [encHdr_scratch]
  exact putScratch_outside hk (Or.inr (by simpa using h2))

/-- Settles O17. -/
theorem scratchWriters : Obligations.ScratchWriters := by
  intro i s t h
  refine ⟨exec_scratch_of_not_writer h, ?_⟩
  rintro (⟨a, rfl⟩ | ⟨f, rfl⟩ | ⟨a, n, rfl⟩) k hk h2
  · cases h
    exact encHdr_payload a s hk h2
  · exact execRawRead_payload h hk h2
  · exact execRead_payload h hk h2

/-! ## The operands during a command -/

/-- What a command in progress leaves alone until its response. -/
structure SameOperands (s t : State) : Prop where
  op : t.op = s.op
  base : t.base = s.base
  len : t.len = s.len
  data : t.data = s.data
  cmds : t.cmds = s.cmds

theorem SameRegisters.operands {s s1 : State} (h : SameRegisters s s1) : SameOperands s s1 :=
  ⟨h.op, h.base, h.len, h.data, h.cmds⟩

theorem Transition.operands {s t : State} (h : Transition s (.next t)) (hi : s.fsm ≠ .idle) : SameOperands s t := by
  cases h with
  | idleWaits hf | accept _ _ hf => exact absurd hf hi
  | attemptWaits | delayWaits | chunkDone | chunkNext => exact ⟨rfl, rfl, rfl, rfl, rfl⟩
  | encode => exact ⟨by simp, by simp, by simp, by simp, by simp⟩
  | attemptOk s1 _ hr | attemptRetry e s1 _ hr | attemptFail e s1 _ hr =>
    obtain ⟨hop, hbase, hlen, hdata, hcmds⟩ := (attemptReply_same hr).operands
    exact ⟨hop, hbase, hlen, hdata, hcmds⟩
  | delay r s1 _ _ hr =>
    obtain ⟨hop, hbase, hlen, hdata, hcmds⟩ := (sleepReply_same hr).operands
    exact ⟨hop, hbase, hlen, hdata, hcmds⟩

theorem step_operands {s t : State} (hs : s.slot = none) (hi : s.fsm ≠ .idle) (h : step s = .next t) :
    SameOperands s t := (h ▸ step_transition hs : Transition s (.next t)).operands hi

/-- No move of the environment writes the host's data (log 22). -/
theorem EnvMove.data {s t : State} (h : EnvMove s t) : t.data = s.data := by
  rcases h with ⟨c, rfl⟩ | rfl | ⟨a, rfl⟩ | rfl <;> rfl

/-- A relation between neighbours follows from another one that implies it in states of `P`. -/
theorem Consecutive.imp {R Q : State → State → Prop} {P : State → Prop} (h : ∀ s t, P s → R s t → Q s t) :
    ∀ {history : List State}, Consecutive R history → (∀ s ∈ history, P s) → Consecutive Q history
  | [], _, _ => trivial
  | [_], _, _ => trivial
  | s :: t :: rest, ⟨hst, hrest⟩, hP =>
    ⟨h s t (hP s (by simp)) hst, Consecutive.imp h hrest fun u hu => hP u (List.mem_cons_of_mem s hu)⟩

/-- Settles O18: neither a step during a command nor the environment writes the host's data. -/
theorem operandsConstantDuringCommand : Obligations.OperandsConstantDuringCommand := by
  refine ⟨fun s t hs hi hstep => ?_, fun history hex hslots => ?_⟩
  · obtain ⟨hop, hbase, hlen, hdata, hcmds⟩ := step_operands hs hi hstep
    exact ⟨hop, hbase, hlen, hdata, hcmds⟩
  · refine Consecutive.imp (fun s t hs hst hi i => ?_) hex hslots
    have hdata : t.data = s.data := hst.elim (fun h => (step_operands hs hi h).data) EnvMove.data
    simp only [State.dataAt, hdata]

/-! ## Construction -/

theorem construct_inv (p : Params) (cfg : BitVec 3) {t : Transport}
    (h : t.device.mem.wf = true ∧ t.device.mem.bounded = true) : BlockInv (State.construct p cfg t) :=
  .of_outside (by simp [State.construct, State.inChunk]) rfl (by simp [State.construct]) (Or.inl rfl)
    (Nat.two_pow_pos _) (Nat.two_pow_pos _) (Nat.two_pow_pos _) h rfl

theorem construct_afterReset (p : Params) (cfg : BitVec 3) (t : Transport) :
    AfterReset cfg (State.construct p cfg t) := ⟨rfl, rfl, rfl, rfl, rfl⟩

/-- Settles O6: the invariants at construction, and the one transition of a state after reset. -/
theorem constructionMeetsInvariants : Obligations.ConstructionMeetsInvariants := by
  refine ⟨construct_inv _ _ ⟨rfl, rfl⟩, fun p cfg t ht => ⟨construct_inv p cfg ht, construct_afterReset p cfg t⟩, ?_⟩
  intro cfg s h
  refine ⟨by simp [State.request, h.fsm], h.noResponse, step_idle_waiting h.slotEmpty h.fsm, fun c rest hc => ?_⟩
  refine ⟨_, (step_idle h.slotEmpty h.fsm (by simp [hc])).trans (execAccept_eq h.fsm hc), ?_⟩
  simp [h.hwAddr]

end Sys2Proof.Machine
end

section
/-! Proofs of the statements about the device's memory and the transport primitives (spec/20_memory.md): what a
primitive performed on its own does and that the sequencer takes up its reply, the laws of the device's memory, and the
round trip through the reference device of R70. -/

namespace Sys2Proof.Machine

/-! ## The device's memory -/

/-- Settles O15: the canonical form is among what every operation keeps. -/
theorem deviceMemoryStaysCanonical : Obligations.DeviceMemoryStaysCanonical := by
  rintro s t hw (hstep | ⟨i, hexec⟩)
  · rcases step_keeps hstep with rfl | ⟨i, hexec⟩
    · exact hw
    · exact (exec_keeps hexec).memory hw
  · exact (exec_keeps hexec).memory hw

/-- Settles O54: the laws of a single byte's write, chained along the sequence. -/
theorem deviceMemoryLaws : Obligations.DeviceMemoryLaws := fun _ hwf =>
  ⟨fun a bs => ⟨Memory.writeBytes_wf hwf a bs, Memory.read_writeBytes_inside hwf a bs,
    Memory.read_writeBytes_outside a bs, fun ha hb => Memory.writeBytes_bounded a bs hb ha⟩,
  fun _ hwf' hread => Memory.ext_of_wf hwf' hwf hread⟩

/-! ## The transport primitives on their own (log 18) -/

theorem primitiveStop_write_runs {s : State} (hf : s.fsm = .attempt) (ho : s.op = .write) (hk : 0 < s.klen)
    (hr : s.reply = none) : primitiveStop 0b01 s = none := by
  rw [primitiveStop_write hf ho, if_neg hk.ne', if_pos hr]

theorem primitiveStop_read_runs {s : State} (hf : s.fsm = .attempt) (ho : s.op = .read) (hk : 0 < s.klen)
    (hr : s.reply = none) : primitiveStop 0b10 s = none := by
  rw [primitiveStop_read hf ho, if_neg hk.ne', if_pos hr]

theorem primitiveStop_sleep_runs {s : State} (hf : s.fsm = .delay) (hr : s.reply = none) :
    primitiveStop 0b11 s = none := by
  rw [primitiveStop_sleep hf, if_pos hr]

theorem performWrite_withheld {s : State} (h : s.transport.serve (writeRequest s) = .withheld) :
    performWrite s = .withheld := by
  unfold performWrite
  rw [h]

theorem performWriteRead_withheld {s : State} (h : s.transport.serve (readRequest s) = .withheld) :
    performWriteRead s = .withheld := by
  unfold performWriteRead
  rw [h]

theorem performSleep_withheld {s : State} (h : s.transport.serve sleepRequest = .withheld) :
    performSleep s = .withheld := by
  unfold performSleep
  rw [h]

/-- Settles O34: the guards of TR_WRITE, and where it runs the transport's answer. -/
theorem trWriteTransmits : Obligations.TrWriteTransmits := by
  intro s
  refine ⟨fun hf ho hk hr => ?_, fun h => finishPrimitive_stop (primitiveStop_write_elsewhere h),
    fun hf ho hk => finishPrimitive_stop ?_, fun hf ho hk hr => finishPrimitive_stop ?_⟩
  · have hrun := primitiveStop_write_runs hf ho hk hr
    refine ⟨fun hq => finishPrimitive_withheld hrun (performWrite_withheld hq),
      fun tr => ⟨fun bs hq => ?_, fun e he hq => ?_⟩⟩
    · exact finishPrimitive_eq hrun (performWrite_answered hq)
    · have hp := performWrite_answered hq
      rw [replyOf_err he] at hp
      exact finishPrimitive_eq hrun hp
  · rw [primitiveStop_write hf ho, if_pos hk]
  · rw [primitiveStop_write hf ho, if_neg hk.ne', if_neg hr]

/-- TR_WRITE_READ where the block presents it, once the transport answers: the reply is left on TR (log 18). -/
theorem execTrWriteRead_answered {s : State} {a : Answer} {tr : Transport} (hrun : primitiveStop 0b10 s = none)
    (hq : s.transport.serve (readRequest s) = .answered a tr) :
    exec .trWriteRead s = .next { s with
      transport := tr
      buf := storeBuf s.buf s.rel (burst s a)
      draws := s.draws + s.klen
      trace := s.trace ++ [.writeRead s.dev (s.scratchTo 2) s.klen (recorded s a)]
      reply := some (replyOf s.params a) } :=
  finishPrimitive_eq hrun (performWriteRead_answered hq)

/-- The bytes a read burst puts into the buffer fill the chunk's part of it, whatever the answer. -/
theorem burst_length (s : State) (a : Answer) : (burst s a).length = s.klen := by
  cases a <;> exact received_length ..

/-- Settles O35: the guards of TR_WRITE_READ, and where it runs the burst that the answer puts into the buffer. -/
theorem trWriteReadReceives : Obligations.TrWriteReadReceives := by
  intro s
  refine ⟨fun hf ho hk hr => ?_, fun h => finishPrimitive_stop (primitiveStop_read_elsewhere h),
    fun hf ho hk => finishPrimitive_stop ?_, fun hf ho hk hr => finishPrimitive_stop ?_⟩
  · have hrun := primitiveStop_read_runs hf ho hk hr
    have houtside : ∀ (a : Answer) (t : State), t.buf = storeBuf s.buf s.rel (burst s a) →
        ∀ i, i < s.rel ∨ s.rel + s.klen ≤ i → t.bufAt i = s.bufAt i := fun a t ht i hi =>
      bufAt_storeBuf_outside ht (by rwa [burst_length])
    refine ⟨fun hq => finishPrimitive_withheld hrun (performWriteRead_withheld hq),
      fun tr => ⟨fun bs hbs hq => ?_, fun e he hq => ?_⟩⟩
    · have hburst : received s.draws s.klen bs = bs := by rw [← hbs, received_eq]
      refine ⟨_, execTrWriteRead_answered hrun hq, ?_, houtside (.ok bs) _ rfl, ?_⟩
      · rw [← hbs]
        exact bufSlice_storeBuf (congrArg (storeBuf s.buf s.rel) hburst)
      · simp only [recorded, hburst]
        rfl
    · refine ⟨_, execTrWriteRead_answered hrun hq, houtside (.err e) _ rfl, ?_⟩
      simp only [recorded, replyOf_err he, portErr, Nat.mod_eq_of_lt he]
      rfl
  · rw [primitiveStop_read hf ho, if_pos hk]
  · rw [primitiveStop_read hf ho, if_neg hk.ne', if_neg hr]

/-- Settles O36: the guards of TR_SLEEP, and where it runs the return of the sleep, whatever the answer. -/
theorem trSleepCannotFail : Obligations.TrSleepCannotFail := by
  intro s
  refine ⟨fun hf hr => ?_, fun h => finishPrimitive_stop (primitiveStop_sleep_elsewhere h),
    fun hf hr => finishPrimitive_stop ?_⟩
  · have hrun := primitiveStop_sleep_runs hf hr
    exact ⟨fun hq => finishPrimitive_withheld hrun (performSleep_withheld hq),
      fun a tr hq => finishPrimitive_eq hrun (performSleep_answered hq)⟩
  · rw [primitiveStop_sleep hf, if_neg hr]

/-! ## The sequencer takes up the reply a primitive left -/

/-- A primitive that leaves a reply was answered. -/
theorem finishPrimitive_replied {kind : BitVec 2} {s t : State} {p : Performed} (hs : s.reply = none)
    (ht : t.reply ≠ none) (h : finishPrimitive kind s p = .next t) :
    ∃ r s1, p = .replied r s1 ∧ t = { s1 with reply := some r } := by
  obtain ⟨_, ⟨_, rfl⟩ | hreplied⟩ := finishPrimitive_next h
  · exact absurd hs ht
  · exact hreplied

theorem reply_none_eta {s : State} (h : s.reply = none) : { s with reply := none } = s := by
  rw [← h]

/-- The reply that the attempt's primitive left on TR is the attempt's reply. -/
theorem attemptReply_takes {s s1 : State} {r : Reply} (h : attemptReply s = .replied r s1) :
    attemptReply { s1 with reply := some r } = attemptReply s := by
  rw [h]
  exact congrArg (Performed.replied r) (reply_none_eta (attemptReply_same h).reply)

/-- The reply that the sleep's primitive left on TR is the return of the sleep. -/
theorem sleepReply_takes {s s1 : State} {r : Reply} (h : sleepReply s = .replied r s1) :
    sleepReply { s1 with reply := some r } = sleepReply s := by
  rw [h]
  exact congrArg (Performed.replied r) (reply_none_eta (sleepReply_same h).reply)

/-- The three steps out of `ATTEMPT` see no more of a state than `fsm`, `op`, `retries` and the attempt's reply. -/
theorem attempt_steps_congr {s s1 : State} (hf : s1.fsm = s.fsm) (ho : s1.op = s.op) (hn : s1.retries = s.retries)
    (hr : attemptReply s1 = attemptReply s) (o : Op) :
    exec (.attemptOk o) s1 = exec (.attemptOk o) s ∧ exec .attemptRetry s1 = exec .attemptRetry s ∧
      exec (.attemptFail o) s1 = exec (.attemptFail o) s := by
  have hmay : s1.mayRetry = s.mayRetry := by rw [State.mayRetry, State.mayRetry, decide_eq_decide, ho, hn]
  have hmust : s1.mustFail = s.mustFail := by rw [State.mustFail, State.mustFail, decide_eq_decide, ho, hn]
  simp only [exec, execAttemptOk, execAttemptRetry, execAttemptFail, hf, ho, hmay, hmust, hr, and_self]

/-- Step T8 sees no more of a state than `fsm`, `op` and the return of the sleep. -/
theorem delay_step_congr {s s1 : State} (hf : s1.fsm = s.fsm) (ho : s1.op = s.op)
    (hr : sleepReply s1 = sleepReply s) : exec .delay s1 = exec .delay s := by
  simp only [exec, execDelay, hf, ho, hr]

/-- After the primitive of an attempt the three steps out of `ATTEMPT` answer what they answered before it. -/
theorem attempt_steps_after_primitive {kind : BitVec 2} {s s1 : State} (hs : s.reply = none) (h1 : s1.reply ≠ none)
    (h : finishPrimitive kind s (attemptReply s) = .next s1) (o : Op) :
    exec (.attemptOk o) s1 = exec (.attemptOk o) s ∧ exec .attemptRetry s1 = exec .attemptRetry s ∧
      exec (.attemptFail o) s1 = exec (.attemptFail o) s := by
  obtain ⟨r, s2, hr, rfl⟩ := finishPrimitive_replied hs h1 h
  have hsame := attemptReply_same hr
  exact attempt_steps_congr (s1 := { s2 with reply := some r }) hsame.fsm hsame.op hsame.retries
    (attemptReply_takes hr) o

theorem attemptReply_eq_performWrite {s : State} (hr : s.reply = none) (ho : s.op = .write) :
    attemptReply s = performWrite s := by
  simp only [attemptReply, hr, ho]

theorem attemptReply_eq_performWriteRead {s : State} (hr : s.reply = none) (ho : s.op = .read) :
    attemptReply s = performWriteRead s := by
  simp only [attemptReply, hr, ho]

theorem sleepReply_eq_performSleep {s : State} (hr : s.reply = none) : sleepReply s = performSleep s := by
  simp only [sleepReply, hr]

/-- Settles O37: each primitive performs the reply that the sequencer's step would have asked for. -/
theorem primitiveThenStepIsStep : Obligations.PrimitiveThenStepIsStep := by
  intro s s1 hs h1
  refine ⟨fun _ ho h => ?_, fun _ ho h => ?_, fun _ h => ?_⟩
  · rw [exec, execTrWrite, ← attemptReply_eq_performWrite hs ho] at h
    exact attempt_steps_after_primitive hs h1 h .write
  · rw [exec, execTrWriteRead, ← attemptReply_eq_performWriteRead hs ho] at h
    obtain ⟨hok, _, hfail⟩ := attempt_steps_after_primitive hs h1 h .read
    exact ⟨hok, hfail⟩
  · rw [exec, execTrSleep, ← sleepReply_eq_performSleep hs] at h
    obtain ⟨r, s2, hr, rfl⟩ := finishPrimitive_replied hs h1 h
    have hsame := sleepReply_same hr
    exact delay_step_congr (s1 := { s2 with reply := some r }) hsame.fsm hsame.op (sleepReply_takes hr)

/-! ## One attempt against the reference device -/

/-- A write attempt that the device refuses: it is strapped to another address, or in its write cycle. -/
theorem serve_write_refused {s : State} (hd : s.transport.responder = .device)
    (h : s.transport.device.strap ≠ s.hwAddr ∨ s.transport.device.tick.busy = true) :
    s.transport.serve (writeRequest s) = .answered
      (.err (if s.transport.device.strap = s.hwAddr then s.transport.device.eNack else s.transport.device.eAbsent))
      { s.transport with device := s.transport.device.tick } := by
  by_cases hst : s.transport.device.strap = s.hwAddr
  · have hbusy := h.resolve_left (not_not_intro hst)
    have hdev : s.transport.device.serve (writeRequest s) =
        .answered (.err s.transport.device.tick.eNack) s.transport.device.tick := by
      simp only [writeRequest, Device.serve, Device.write]
      rw [if_neg fun hne => (dev_strap_iff s).1 hne hst, if_pos hbusy]
    rw [if_pos hst, serve_device hd hdev, tick_eNack]
  · rw [if_neg hst, serve_absent_write hd hst]

/-- A write attempt that the idle strapped device accepts, of a chunk inside the device. -/
theorem BlockInv.serve_write_accepted {s : State} (h : BlockInv s) (hs : Strapped s)
    (hin : InRange s.base.toNat s.len) (hf : s.fsm = .attempt) (ho : s.op = .write)
    (hidle : s.transport.device.tick.busy = false) :
    s.transport.serve (writeRequest s) = .answered (.ok []) { s.transport with device :=
      { s.transport.device.tick with
        mem := s.transport.device.mem.writeBytes s.cur s.chunkData
        busy := true } } := by
  obtain ⟨hbase, hend⟩ := h.insideChunk (Or.inr (Or.inl hf))
  rw [serve_writeRequest hs.byDevice (h.payload (Or.inl hf) ho) hbase hend hin, if_neg (not_not_intro hs.strap),
    if_neg (by simp [hidle])]

/-- Settles O55: what the device answers to the attempt's frame decides the step and its memory. -/
theorem attemptReachesTheDevice : Obligations.AttemptReachesTheDevice := by
  refine ⟨fun s h hs hin hf ho hr hidle => ?_, fun s hd hf ho hr hlt href => ?_⟩
  · have hq := h.serve_write_accepted hs hin hf ho hidle
    rw [← attemptRequest_write ho] at hq
    refine ⟨_, execAttemptOk_eq hf ho (attemptReply_answered hr hq), ?_⟩
    simp only [advance_transport, afterAnswer_transport]
    refine ⟨fun i hi => ?_, fun x hx => ?_, trivial⟩
    · have hi' : i < s.chunkData.length := by rwa [chunkData_length]
      rw [Memory.read_writeBytes_inside h.memory.1 _ _ _ hi', chunkData_getElem]
    · exact Memory.read_writeBytes_outside _ _ _ (by rwa [chunkData_length])
  · have hq := serve_write_refused hd href
    rw [← attemptRequest_write ho] at hq
    have hm : s.mayRetry = true := by simp [State.mayRetry, ho, Config.maxRetries, hlt]
    refine ⟨_, execAttemptRetry_eq hf hm (attemptReply_answered hr hq), ?_, rfl⟩
    simp only [toDelay_transport, afterAnswer_transport, tick_mem]

/-! ## The round trip (R71) -/

/-- The fuel of a command's loop is enough for every chunk and for the loop's last test. -/
theorem command_fuel {a n : Nat} {p : Params} (hn : n < 2 ^ p.lenW) :
    portLen p n + 1 = chunkCount a n + (n - chunkCount a n + 1) := by
  have := chunkCount_le a n
  rw [portLen, Nat.mod_eq_of_lt hn]
  omega

/-- What a WRITE to the reference device leaves, under the premises of R71: the response, the data in the device's
memory, and a block that is ready for the next command. -/
structure WroteDevice (a : Addr) (n : Nat) (s t : State) : Prop where
  rsp : t.rsp = some .ok
  ready : Ready t
  strapped : Strapped t
  params : t.params = s.params
  inside : ∀ i, i < n → t.transport.device.mem.read (a.toNat + i) = s.dataAt i
  outside : ∀ x, x < a.toNat ∨ a.toNat + n ≤ x → t.transport.device.mem.read x = s.transport.device.mem.read x

/-- WRITE inside the device, every write cycle ending within the retry budget (43_paginated_write.md R150). -/
theorem execWrite_device {a : Addr} {n : Nat} {s : State} (hs : Ready s) (hd : Strapped s) (hin : InRange a.toNat n)
    (hn : n < 2 ^ s.params.lenW) (hw : s.transport.device.mem.wf = true)
    (hc : CycleBounded 10 (chunkCount a.toNat n) s.transport.device) :
    ∃ t, exec (.write a n) s = .next t ∧ WroteDevice a n s t := by
  obtain ⟨t, hloop, hk, htodo, hresp, hstrap, _, _, hinside, houtside⟩ :=
    writeLoop_device (chunkCount a.toNat n) (n - chunkCount a.toNat n + 1) (latchCommand_atChunk .write a s hn)
      (Nat.zero_add _) hin (latchCommand_fsm ..) (latchCommand_op ..) (by simpa using hs.noReply)
      (by simpa using hd.byDevice) (by simpa using hd.strap) (by simpa using hw) (by simpa using hc)
  rw [chunkLoop_done _ htodo, ← command_fuel hn] at hloop
  refine ⟨respond .ok t, by rw [exec, execWrite, if_pos hs.fsm, hloop], ?_⟩
  exact
    { rsp := respond_rsp ..
      ready := ⟨respond_fsm .., by simpa using hk.reply, by simpa using hk.slot.trans hs.slotEmpty⟩
      strapped := ⟨by simpa using hresp, by simpa [hstrap, hk.hwAddr] using hd.strap⟩
      params := by simpa using hk.params
      inside := by simpa [chunkPos_zero] using hinside
      outside := by simpa [chunkPos_zero] using houtside }

/-- READ inside the idle strapped device (44_paginated_read.md R173). -/
theorem execRead_device {a : Addr} {n : Nat} {s : State} (hs : Ready s) (hd : Strapped s) (hin : InRange a.toNat n)
    (hn : n < 2 ^ s.params.lenW) (hidle : DeviceIdle s) :
    ∃ t, exec (.read a n) s = .next t ∧ t.rsp = some .ok ∧ t.fsm = .idle ∧
      (∀ j, j < n → t.bufAt j = s.transport.device.mem.read (a.toNat + j)) ∧
      t.transport.device.mem = s.transport.device.mem := by
  obtain ⟨t, hloop, _, htodo, hmem, hbuf, _⟩ :=
    readLoop_device (chunkCount a.toNat n) (n - chunkCount a.toNat n + 1) (latchCommand_atChunk .read a s hn)
      (Nat.zero_add _) hin (latchCommand_fsm ..) (latchCommand_op ..) (by simpa using hs.noReply)
      (by simpa using hd.byDevice) (by simpa using hd.strap) (by simpa [DeviceIdle] using hidle)
  rw [chunkLoop_done _ htodo, ← command_fuel hn] at hloop
  refine ⟨respond .ok t, by rw [exec, execRead, if_pos hs.fsm, hloop], respond_rsp .., respond_fsm .., ?_, ?_⟩
  · simpa [chunkPos_zero] using hbuf
  · simpa using hmem

theorem Ready.finishCycle {s : State} (h : Ready s) : Ready s.finishCycle := ⟨h.fsm, h.noReply, h.slotEmpty⟩

theorem Strapped.finishCycle {s : State} (h : Strapped s) : Strapped s.finishCycle := ⟨h.byDevice, h.strap⟩

/-- Settles O58: the READ finds the block ready and the device idle, with the data in its memory. -/
theorem roundTrip : Obligations.RoundTrip := by
  intro a n b s hs hd hin hn hw hb hc
  obtain ⟨t, hwrite, ht⟩ := execWrite_device hs hd hin hn hw (cyclesEnd_mono hb hc)
  have hn' : n < 2 ^ t.finishCycle.params.lenW := by
    rw [show t.finishCycle.params = s.params from ht.params]
    exact hn
  obtain ⟨u, hread, hrsp, _, hbuf, hmem⟩ := execRead_device ht.ready.finishCycle ht.strapped.finishCycle hin hn' rfl
  have hstored : ∀ j, j < n → t.finishCycle.transport.device.mem.read (a.toNat + j) = s.dataAt j := ht.inside
  refine ⟨t, u, hwrite, ht.rsp, hread, hrsp, fun j hj => ⟨(hbuf j hj).trans (hstored j hj), ?_⟩⟩
  rw [hmem, hstored j hj]

end Sys2Proof.Machine
end

section
/-! Proofs of the statements about the encodings (spec/30_encoding.md): the decoder and the encoder are inverse to each
other, format by format, and what stands on the TR port and in the wire frames. -/

namespace Sys2Proof

/-! ## The command word (R84) -/

theorem beNat_command_word {lenW v : Nat} (h : v < 2 ^ (17 + lenW)) :
    beNat (beBytes (commandBytes lenW) v) = v := by
  rw [beNat_beBytes, Nat.mod_eq_of_lt (lt_of_lt_of_le h (two_pow_le_bytes lenW))]

/-- Settles O3: a number of the word's width spells bytes that the decoder reads back. -/
theorem everyCommandWordIsACommand : Obligations.EveryCommandWordIsACommand := by
  intro lenW v h
  simp only [decode, decodeCommand, beBytes_length, beNat_command_word h, ne_eq, not_true_eq_false, if_false,
    if_neg (not_le.2 h)]
  split <;> rfl

theorem decode_encodeCommand {lenW n : Nat} (o : Op) (a : Addr) (hn : n < 2 ^ lenW) :
    decode (.command lenW) (encodeCommand lenW o a n) = .ok (if o.bit = 1 then .write a n else .read a n) := by
  have hbit : o.bit < 2 := by cases o <;> decide
  obtain ⟨hv, htop, haddr, hlen⟩ := command_word_fields lenW o.bit a n hbit hn
  rw [encodeCommand, everyCommandWordIsACommand _ _ hv, htop, haddr, hlen]

/-- A command word is its three fields side by side. -/
theorem command_word_of_fields (lenW v : Nat) :
    v / 2 ^ (16 + lenW) * 2 ^ (16 + lenW) + (BitVec.ofNat 16 (v / 2 ^ lenW)).toNat * 2 ^ lenW +
      v % 2 ^ lenW % 2 ^ lenW = v := by
  have htop : v / 2 ^ (16 + lenW) = v / 2 ^ lenW / 2 ^ 16 := by
    rw [Nat.add_comm, Nat.pow_add, Nat.div_div_eq_div_mul]
  rw [htop, BitVec.toNat_ofNat, Nat.mod_mod, Nat.pow_add, ← Nat.mul_assoc, ← Nat.add_mul, Nat.div_add_mod',
    Nat.div_add_mod']

theorem command_top_bit {lenW v : Nat} (h : v < 2 ^ (17 + lenW)) :
    v / 2 ^ (16 + lenW) = 0 ∨ v / 2 ^ (16 + lenW) = 1 := by
  have hlt : v / 2 ^ (16 + lenW) < 2 := Nat.div_lt_of_lt_mul (by rwa [← Nat.pow_succ, ← Nat.succ_add])
  exact Nat.le_one_iff_eq_zero_or_eq_one.1 (Nat.lt_succ_iff.1 hlt)

/-! ## Bus addresses and selectors (R85, R89) -/

theorem devAddrOf_toNat (h : BitVec 3) : (devAddrOf h).toNat = 80 + h.toNat := by
  revert h
  decide

theorem Fsm.code_of_ofCode {c : Nat} {f : Fsm} (h : Fsm.ofCode c = some f) : f.code = c := by
  unfold Fsm.ofCode at h
  split at h <;> cases h <;> rfl

theorem Op.bit_ofBit (b : Nat) : (Op.ofBit b).bit = b % 2 := by
  unfold Op.ofBit
  split
  · next h => exact h.symm
  · next h => exact (Nat.mod_two_ne_one.1 h).symm

/-- A selector is determined by its two fields. -/
theorem selectorByte_of_fields {b : Byte} {f : Fsm} {o : Op} (hf : Fsm.ofCode (b.toNat / 2) = some f)
    (ho : Op.ofBit b.toNat = o) : selectorByte f o = b := by
  rw [selectorByte, Fsm.code_of_ofCode hf, ← ho, Op.bit_ofBit, Nat.div_add_mod', BitVec.ofNat_toNat,
    BitVec.setWidth_eq]

theorem decode_raw_write {f : Fsm} (h : rawWritePhase f = true) :
    decode .raw [selectorByte f .write] = .ok (.rawWrite f) := by
  cases f with
  | idle | chunk => cases h
  | encode | attempt | delay => rfl

theorem decode_raw_read {f : Fsm} (h : rawReadPhase f = true) :
    decode .raw [selectorByte f .read] = .ok (.rawRead f) := by
  cases f with
  | idle | chunk | delay => cases h
  | encode | attempt => rfl

/-! ## Decoding an encoding -/

theorem decode_cursor (c : BitVec 5) : decode .cursor [c.setWidth 8] = .ok (.nextChunk c) := by
  have hlt := c.isLt
  have hfits : ¬ 32 ≤ (c.setWidth 8).toNat := by
    rw [BitVec.toNat_setWidth]
    omega
  rw [decode, decodeCursor, if_neg hfits, BitVec.setWidth_setWidth_of_le _ (by decide), BitVec.setWidth_eq]

theorem decode_devAddr (h : BitVec 3) : decode .devAddr [(devAddrOf h).setWidth 8] = .ok (.devAddr h) := by
  revert h
  decide

theorem decode_header (a : Addr) : decode .header (headerBytes a) = .ok (.encHdr a) := by
  rw [headerBytes, decode, decodeHeader, headerAddr_header]

theorem decode_readFrame (a : Addr) : decode .readFrame (headerBytes a) = .ok (.rframe a) := by
  rw [headerBytes, decode, decodeReadFrame, headerAddr_header]

theorem decode_writeFrame {a : Addr} {ds : List Byte} (hlen : payloadLenOk ds = true)
    (hpage : insidePage a ds.length = true) : decode .writeFrame (headerBytes a ++ ds) = .ok (.wframe a ds) := by
  simp [headerBytes, decode, decodeWriteFrame, headerAddr_header, hlen, hpage]

/-- Settles O1: the fields of the command word, the header's address, and the selector's row. -/
theorem decodeOfEncode : Obligations.DecodeOfEncode := by
  intro lenW i h
  cases i with
  | write a n => exact decode_encodeCommand .write a (of_decide_eq_true h)
  | read a n => exact decode_encodeCommand .read a (of_decide_eq_true h)
  | nextChunk c => exact decode_cursor c
  | encHdr a => exact decode_header a
  | loadPayload ds => exact if_pos h
  | devAddr hw => exact decode_devAddr hw
  | rawWrite f => exact decode_raw_write h
  | rawRead f => exact decode_raw_read h
  | trWrite | trWriteRead | trSleep => rfl
  | wframe a ds =>
    obtain ⟨hlen, hpage⟩ := Bool.and_eq_true_iff.1 h
    exact decode_writeFrame hlen hpage
  | rframe a => exact decode_readFrame a
  | accept o | chunkDone o | chunkNext o | encode o | attemptOk o | attemptFail o =>
    cases o <;> exact Machine.decode_encodeSeq _ _ _ (by decide)
  | attemptRetry | delay => exact Machine.decode_encodeSeq _ _ _ (by decide)

/-! ## What the decoder accepts -/

/-- `bs` in format `f` is the encoder's word of the well-formed operation `i`. -/
structure IsEncoding (lenW : Nat) (i : Instr) (f : Format) (bs : List Byte) : Prop where
  wf : i.wf lenW = true
  format : formatOf lenW i = f
  bytes : encode lenW i = bs

theorem encodeCommand_of_fields {lenW : Nat} {bs : List Byte} (o : Op) (hlen : bs.length = commandBytes lenW)
    (htop : beNat bs / 2 ^ (16 + lenW) = o.bit) :
    encodeCommand lenW o (BitVec.ofNat 16 (beNat bs / 2 ^ lenW)) (beNat bs % 2 ^ lenW) = bs := by
  rw [encodeCommand, ← htop, command_word_of_fields, ← hlen, beBytes_beNat]

theorem decodeCommand_accepts {lenW : Nat} {i : Instr} {bs : List Byte} (h : decodeCommand lenW bs = .ok i) :
    IsEncoding lenW i (.command lenW) bs := by
  have hmod : beNat bs % 2 ^ lenW < 2 ^ lenW := Nat.mod_lt _ (Nat.two_pow_pos _)
  unfold decodeCommand at h
  split at h
  · cases h
  · next hlen =>
    split at h
    · cases h
    · next hbound =>
      split at h <;> cases h
      · next h1 => exact ⟨decide_eq_true hmod, rfl, encodeCommand_of_fields .write (not_not.1 hlen) h1⟩
      · next h1 =>
        have h0 := (command_top_bit (not_le.1 hbound)).resolve_right h1
        exact ⟨decide_eq_true hmod, rfl, encodeCommand_of_fields .read (not_not.1 hlen) h0⟩

theorem decodeCursor_accepts {lenW : Nat} {i : Instr} {bs : List Byte} (h : decodeCursor bs = .ok i) :
    IsEncoding lenW i .cursor bs := by
  unfold decodeCursor at h
  split at h
  · next b =>
    split at h <;> cases h
    next hb =>
      have hbyte : (b.setWidth 5).setWidth 8 = b := by
        apply BitVec.eq_of_toNat_eq
        simp only [BitVec.toNat_setWidth]
        omega
      exact ⟨rfl, rfl, congrArg ([·]) hbyte⟩
  · cases h

theorem decodeHeader_accepts {lenW : Nat} {i : Instr} {bs : List Byte} (h : decodeHeader bs = .ok i) :
    IsEncoding lenW i .header bs := by
  unfold decodeHeader at h
  split at h <;> cases h
  exact ⟨rfl, rfl, headerBytes_headerAddr _ _⟩

theorem decodePayload_accepts {lenW : Nat} {i : Instr} {bs : List Byte} (h : decodePayload bs = .ok i) :
    IsEncoding lenW i .payload bs := by
  unfold decodePayload at h
  split at h <;> cases h
  next hlen => exact ⟨hlen, rfl, rfl⟩

theorem decodeDevAddr_accepts {lenW : Nat} {i : Instr} {bs : List Byte} (h : decodeDevAddr bs = .ok i) :
    IsEncoding lenW i .devAddr bs := by
  unfold decodeDevAddr at h
  split at h
  · next b =>
    split at h
    · cases h
    · split at h <;> cases h
      next hb =>
        have hbyte : (devAddrOf (b.setWidth 3)).setWidth 8 = b := by
          apply BitVec.eq_of_toNat_eq
          simp only [BitVec.toNat_setWidth, devAddrOf_toNat]
          omega
        exact ⟨rfl, rfl, congrArg ([·]) hbyte⟩
  · cases h

theorem decodeRaw_accepts {lenW : Nat} {i : Instr} {bs : List Byte} (h : decodeRaw bs = .ok i) :
    IsEncoding lenW i .raw bs := by
  unfold decodeRaw at h
  split at h
  · next b =>
    split at h
    · cases h
    · split at h
      · next f hf ho =>
        split at h <;> cases h
        next hphase => exact ⟨hphase, rfl, congrArg ([·]) (selectorByte_of_fields hf ho)⟩
      · next f hf ho =>
        split at h <;> cases h
        next hphase => exact ⟨hphase, rfl, congrArg ([·]) (selectorByte_of_fields hf ho)⟩
      · cases h
  · cases h

theorem decodeTrKind_accepts {lenW : Nat} {i : Instr} {bs : List Byte} (h : decodeTrKind bs = .ok i) :
    IsEncoding lenW i .trKind bs := by
  unfold decodeTrKind at h
  split at h
  · next b =>
    split at h <;> cases h
    all_goals
      next hb => exact ⟨rfl, rfl, congrArg ([·]) (BitVec.eq_of_toNat_eq hb.symm)⟩
  · cases h

theorem decodeWriteFrame_accepts {lenW : Nat} {i : Instr} {bs : List Byte} (h : decodeWriteFrame bs = .ok i) :
    IsEncoding lenW i .writeFrame bs := by
  unfold decodeWriteFrame at h
  split at h
  · next hi lo ds =>
    split at h
    · cases h
    · next hlen =>
      split at h <;> cases h
      next hpage =>
        have hbytes : headerBytes (headerAddr hi lo) ++ ds = hi :: lo :: ds := by
          rw [headerBytes_headerAddr, List.cons_append, List.cons_append, List.nil_append]
        exact ⟨by simpa [Instr.wf, hpage] using hlen, rfl, hbytes⟩
  · cases h

theorem decodeReadFrame_accepts {lenW : Nat} {i : Instr} {bs : List Byte} (h : decodeReadFrame bs = .ok i) :
    IsEncoding lenW i .readFrame bs := by
  unfold decodeReadFrame at h
  split at h <;> cases h
  exact ⟨rfl, rfl, headerBytes_headerAddr _ _⟩

theorem stepRow_wf {f : Fsm} {o : Op} {t lenW : Nat} {i : Instr} (h : stepRow f o t = .ok i) : i.wf lenW = true := by
  unfold stepRow at h
  split at h <;> cases h <;> rfl

/-- A row found by its step number is the row of that number; step number 0 names none (log 3). -/
theorem stepRow_encode {f : Fsm} {o : Op} {t lenW : Nat} {i : Instr} (h : stepRow f o t = .ok i) :
    t = 0 ∨ (formatOf lenW i = .seq ∧ encode lenW i = encodeSeq f o t) := by
  unfold stepRow at h
  split at h <;> cases h <;> simp [formatOf, encode]

theorem decodeSeq_accepts {lenW : Nat} {i : Instr} {bs : List Byte} (h : decodeSeq bs = .ok i) :
    i.wf lenW = true ∧ ((∃ b t, bs = [b, t] ∧ t ≠ 0) → formatOf lenW i = .seq ∧ encode lenW i = bs) := by
  unfold decodeSeq at h
  split at h
  · next b t =>
    split at h
    · cases h
    · split at h
      · next f hf =>
        refine ⟨stepRow_wf h, ?_⟩
        rintro ⟨b', t', hbs, ht⟩
        cases hbs
        obtain h0 | ⟨hformat, hbytes⟩ := stepRow_encode (lenW := lenW) h
        · exact absurd (BitVec.eq_of_toNat_eq h0) ht
        · rw [encodeSeq, selectorByte_of_fields hf rfl, BitVec.ofNat_toNat, BitVec.setWidth_eq] at hbytes
          exact ⟨hformat, hbytes⟩
      · cases h
  · cases h

/-- In every format but the selector's the decoder accepts encodings only. -/
theorem decode_accepts {lenW : Nat} {f : Format} {i : Instr} {bs : List Byte} (h : decode f bs = .ok i)
    (hwidth : ∀ w, f = .command w → w = lenW) (hseq : f ≠ .seq) : IsEncoding lenW i f bs := by
  cases f with
  | command w =>
    obtain rfl := hwidth w rfl
    exact decodeCommand_accepts h
  | cursor => exact decodeCursor_accepts h
  | header => exact decodeHeader_accepts h
  | payload => exact decodePayload_accepts h
  | devAddr => exact decodeDevAddr_accepts h
  | raw => exact decodeRaw_accepts h
  | trKind => exact decodeTrKind_accepts h
  | writeFrame => exact decodeWriteFrame_accepts h
  | readFrame => exact decodeReadFrame_accepts h
  | seq => exact absurd rfl hseq

/-- Settles O2: each format's decoder inverts its encoder, in the selector format away from step number 0. -/
theorem decoderAcceptsOnlyEncodings : Obligations.DecoderAcceptsOnlyEncodings := by
  intro lenW f bs i h hwidth
  by_cases hf : f = .seq
  · subst hf
    obtain ⟨hwf, hencoding⟩ := decodeSeq_accepts (lenW := lenW) h
    exact ⟨hwf, fun hstep => hencoding (hstep rfl)⟩
  · obtain ⟨hwf, hformat, hbytes⟩ := decode_accepts h hwidth hf
    exact ⟨hwf, fun _ => ⟨hformat, hbytes⟩⟩

end Sys2Proof

namespace Sys2Proof.Machine

/-! ## The TR port (R86) -/

theorem request_outside {s : State} (h : ¬ s.requesting) : s.request = none :=
  not_not.1 fun hr => h ((request_ne_none_iff s).1 hr)

theorem request_attempt_write {s : State} (hf : s.fsm = .attempt) (ho : s.op = .write) :
    s.request = some (writeRequest s) := by
  rw [State.request, hf, ho]

theorem request_attempt_read {s : State} (hf : s.fsm = .attempt) (ho : s.op = .read) :
    s.request = some (readRequest s) := by
  rw [State.request, hf, ho]

theorem request_delay {s : State} (hf : s.fsm = .delay) : s.request = some sleepRequest := by
  rw [State.request, hf]

/-- A 6-bit field holds the length of any part of the scratch buffer that is sent. -/
theorem wlen_scratchTo (s : State) {n : Nat} (h : n ≤ 34) : (BitVec.ofNat 6 (s.scratchTo n).length).toNat = n := by
  rw [scratchTo_length s n h, BitVec.toNat_ofNat]
  omega

/-- Settles O5: the request of each state, and the lengths of a chunk that the invariants bound. -/
theorem transportPortFields : Obligations.TransportPortFields := by
  intro s h
  have hle := klen_le s
  have hpos : s.fsm = .attempt → 1 ≤ s.klen := fun hf => klen_pos (h.insideChunk (Or.inr (Or.inl hf))).2
  refine ⟨fun hq => ?_, fun hf ho => ?_, fun hf ho => ?_, fun hf => ?_⟩
  · rw [State.trPort, request_outside hq]
    exact ⟨rfl, rfl⟩
  · have hk := hpos hf
    have hlen := wlen_scratchTo s (n := 2 + s.klen) (by omega)
    rw [State.trPort, request_attempt_write hf ho]
    exact ⟨rfl, rfl, ⟨_, rfl, hlen, hlen.symm ▸ by omega, hlen.symm ▸ by omega⟩, rfl⟩
  · have hk := hpos hf
    have hrlen : (BitVec.ofNat 6 s.klen).toNat = s.klen := by
      rw [BitVec.toNat_ofNat]
      omega
    have hwlen : BitVec.ofNat 6 (s.scratchTo 2).length = 2 := BitVec.eq_of_toNat_eq (wlen_scratchTo s (by decide))
    rw [State.trPort, request_attempt_read hf ho]
    exact ⟨rfl, rfl, congrArg some hwlen, rfl, ⟨_, rfl, hrlen, hrlen.symm ▸ hk, hrlen.symm ▸ hle⟩, rfl⟩
  · rw [State.trPort, request_delay hf]
    exact ⟨rfl, rfl⟩

/-! ## The wire frames (R82, R83) -/

theorem exec_wframe_next {a : Addr} {ds : List Byte} (s : State) (h1 : 1 ≤ ds.length) (h32 : ds.length ≤ 32)
    (hpage : a.toNat % 32 + ds.length ≤ 32) :
    exec (.wframe a ds) s = .next { s with result := some (.writeFrame (headerBytes a ++ ds)) } := by
  simp [exec, execWframe, payloadLenOk, insidePage, h1, h32, hpage]

theorem exec_wframe_refused {a : Addr} {ds : List Byte} (s : State)
    (h : ds.length = 0 ∨ 32 < ds.length ∨ 32 < a.toNat % 32 + ds.length) :
    exec (.wframe a ds) s = .refused .illFormedFrame := by
  refine if_neg fun hok => ?_
  simp only [payloadLenOk, insidePage, Bool.and_eq_true, decide_eq_true_eq] at hok
  omega

theorem nextChunkValue_of_pos {m : Nat} (c draws : Nat) (h : 1 ≤ m) : nextChunkValue c m draws = nextChunkLen c m :=
  if_neg (Nat.ne_of_gt h)

theorem exec_rframe_next (a : Addr) {s : State} (h : 1 ≤ s.toGo) :
    exec (.rframe a) s =
      .next { s with result := some (.readFrame (headerBytes a) (nextChunkLen a.toNat s.toGo)) } := by
  have hdraws : nextChunkDraws s.toGo = 0 := if_neg (Nat.ne_of_gt h)
  simp only [exec, execRframe, nextChunkValue_of_pos _ _ h, hdraws, Nat.add_zero]

/-- The position in the page is among the 16 bits of the cursor that go on the wire (R88). -/
theorem curAddr_mod_page (s : State) : s.curAddr.toNat % 32 = s.cur % 32 := by
  rw [State.curAddr, BitVec.toNat_ofNat]
  omega

/-- NEXT_CHUNK uses only the position in the page (43_paginated_write.md R153). -/
theorem nextChunkLen_curAddr (s : State) : nextChunkLen s.curAddr.toNat s.toGo = s.klen := by
  rw [State.klen, nextChunkLen, nextChunkLen, Config.pageSize, curAddr_mod_page]

/-- Settles O24: the header of the address, and NEXT_CHUNK at it. -/
theorem wireFrames : Obligations.WireFrames := by
  refine ⟨fun a ds s h1 h32 hpage => ?_, fun a ds s h => exec_wframe_refused s h, fun a s h => ?_, fun a s h => ?_⟩
  · refine ⟨_, exec_wframe_next s h1 h32 hpage, congrArg (· ++ ds) (headerBytes_addr a), ?_, ?_⟩ <;>
      rw [List.length_append, headerBytes_length] <;> omega
  · have hrem := nextChunkLen_le_rem a.toNat s.toGo
    rw [← headerBytes_addr]
    refine ⟨_, exec_rframe_next a h, rfl, nextChunkLen_pos h, by omega, by omega, ?_⟩
    rintro rfl
    exact nextChunkLen_curAddr s
  · refine ⟨nextChunkValue a.toNat s.toGo s.draws, ?_⟩
    have hdraws : nextChunkDraws s.toGo = 1 := if_pos h
    simp only [exec, execRframe, headerBytes_addr, hdraws]

/-- Settles O25: the frame that R34 (e) puts in the scratch buffer is the one WFRAME builds. -/
theorem attemptSendsTheChunksFrame : Obligations.AttemptSendsTheChunksFrame := by
  intro s h hf
  have hq : s.requesting := Or.inl hf
  refine ⟨fun ho => ?_, fun ho => ?_⟩
  · have hpos : 1 ≤ s.klen := klen_pos (h.insideChunk (Or.inr (Or.inl hf))).2
    have hpage : s.curAddr.toNat % 32 + s.klen ≤ 32 := by
      have hrem := klen_le_rem s
      rw [rem_eq] at hrem
      rw [curAddr_mod_page]
      omega
    have hexec := exec_wframe_next (a := s.curAddr) (ds := s.chunkData) s (by simpa using hpos)
      (by simpa using klen_le s) (by simpa using hpage)
    have hframe := congrArg (· ++ s.chunkData) (headerBytes_cur s.cur)
    refine ⟨headerBytes s.curAddr ++ s.chunkData, ?_, hframe, hexec, hpage⟩
    rw [request_attempt_write hf ho]
    exact congrArg (fun f => some (Request.write s.dev f)) (h.payload hq ho)
  · rw [request_attempt_read hf ho]
    exact congrArg (fun f => some (Request.writeRead s.dev f s.klen s.rel))
      ((h.header hq).trans (headerBytes_cur s.cur))

end Sys2Proof.Machine
end

section
/-! Proofs of the statements about the address encoder (spec/40_address_encoder.md): the header, the payload, the bus
address and ENCODE, which builds the frame from them; and that what the registers hold after reset is never observed. -/

namespace Sys2Proof.Machine

/-! ## The header (R110) -/

/-- `scratch[0 .. 2)` read byte by byte. -/
theorem scratch_header_of_scratchTo {s : State} {hi lo : Byte} (h : s.scratchTo 2 = [hi, lo]) :
    s.scratch[0] = hi ∧ s.scratch[1] = lo := by
  have h0 := scratchTo_getElem s 2 0 (by simp [h])
  have h1 := scratchTo_getElem s 2 1 (by simp [h])
  simp only [h] at h0 h1
  exact ⟨h0.symm, h1.symm⟩

theorem encHdr_scratchTo_header (a : Addr) (s : State) : (encHdr a s).scratchTo 2 = headerBytes a := by
  rw [State.scratchTo, encHdr_scratch]
  exact take_putScratch_header s.scratch a

/-- Settles O20: the header bytes of the low 16 bits, and the rest of scratch as R22 has it. -/
theorem encHdrWritesHeader : Obligations.EncHdrWritesHeader := by
  intro c s
  obtain ⟨hhi, hlo⟩ := scratch_header_of_scratchTo ((encHdr_scratchTo_header _ s).trans (headerBytes_cur c))
  exact ⟨encHdr (BitVec.ofNat 16 c) s, rfl, hhi, hlo, fun i hi h2 => encHdr_payload _ s hi h2, rfl⟩

/-! ## The payload (R111) -/

theorem exec_loadPayload_next {ds : List Byte} (s : State) (h1 : 1 ≤ ds.length) (h32 : ds.length ≤ 32) :
    exec (.loadPayload ds) s = .next (loadPayload ds s) :=
  if_pos (decide_eq_true ⟨h1, h32⟩)

theorem exec_loadPayload_refused {ds : List Byte} (s : State) (h : ds.length = 0 ∨ 32 < ds.length) :
    exec (.loadPayload ds) s = .refused .illFormedFrame := by
  refine if_neg fun hok => ?_
  have := of_decide_eq_true hok
  omega

theorem loadPayload_inside {ds : List Byte} (s : State) {i : Nat} (h : 2 + i < 34) (hi : i < ds.length) :
    (loadPayload ds s).scratch[2 + i] = ds[i] := putScratch_inside hi h

theorem loadPayload_outside {ds : List Byte} (s : State) {i : Nat} (h : i < 34) (hi : i < 2 ∨ 2 + ds.length ≤ i) :
    (loadPayload ds s).scratch[i] = s.scratch[i] := putScratch_outside h hi

/-- The payload of a chunk is `data[rel .. rel + klen)`. -/
theorem loadPayload_chunkData_inside (s t : State) {i : Nat} (h : 2 + i < 34) (hi : i < s.klen) :
    (loadPayload s.chunkData t).scratch[2 + i] = s.dataAt (s.rel + i) := by
  have hlen : i < s.chunkData.length := by simpa using hi
  rw [loadPayload_inside t h hlen, chunkData_getElem]

theorem loadPayload_chunkData_outside (s t : State) {i : Nat} (h : i < 34) (hi : i < 2 ∨ 2 + s.klen ≤ i) :
    (loadPayload s.chunkData t).scratch[i] = t.scratch[i] :=
  loadPayload_outside t h (by rwa [chunkData_length])

/-- Settles O21: a chunk to go has `klen` bytes, from 1 to 32 of them. -/
theorem loadPayloadCopiesData : Obligations.LoadPayloadCopiesData := by
  refine ⟨fun s hgo => ?_, fun ds s h1 h32 => ?_, fun ds s h => exec_loadPayload_refused s h⟩
  · have hlen := chunkData_length s
    refine ⟨loadPayload s.chunkData s, exec_loadPayload_next s (hlen ▸ klen_pos hgo) (hlen ▸ klen_le s),
      fun i h hi => loadPayload_chunkData_inside s s h hi, fun i h hi => loadPayload_chunkData_outside s s h hi,
      ?_, rfl⟩
    rw [loadPayload_wdataReqs, hlen]
  · exact ⟨loadPayload ds s, exec_loadPayload_next s h1 h32, fun i h hi => loadPayload_inside s h hi,
      fun i h hi => loadPayload_outside s h hi, rfl⟩

/-! ## The bus address (R112) -/

theorem trPort_dev_attempt {s : State} (hf : s.fsm = .attempt) : s.trPort.dev = some s.dev := by
  cases ho : s.op with
  | write => rw [State.trPort, request_attempt_write hf ho]; rfl
  | read => rw [State.trPort, request_attempt_read hf ho]; rfl

/-- Settles O22: the bus address of the operand, which a request of either kind carries. -/
theorem devAddrIsBaseOrHwAddr : Obligations.DevAddrIsBaseOrHwAddr :=
  ⟨fun h _ => ⟨rfl, devAddrOf_toNat h⟩, fun _ hf => trPort_dev_attempt hf⟩

/-! ## ENCODE (R113) -/

/-- ENCODE writes `scratch`, `wdataReqs`, `retries` and `fsm`, and nothing else. -/
theorem encodeChunk_writes (s : State) :
    encodeChunk s =
      { s with
        scratch := (encodeChunk s).scratch
        wdataReqs := (encodeChunk s).wdataReqs
        retries := 0
        fsm := .attempt } := by
  apply State.ext <;> simp

theorem encodeChunk_scratch_eq_loadPayload {s : State} (ho : s.op = .write) :
    (encodeChunk s).scratch = (loadPayload s.chunkData (encHdr s.curAddr s)).scratch := by
  simp [encodeChunk, ho]

theorem encodeChunk_scratch_eq_encHdr {s : State} (ho : s.op = .read) :
    (encodeChunk s).scratch = (encHdr s.curAddr s).scratch := by
  simp [encodeChunk, ho]

/-- Settles O28: ENCODE is ENC_HDR and, for a write, LOAD_PAYLOAD. -/
theorem encodeBuildsTheFrame : Obligations.EncodeBuildsTheFrame := by
  intro s hf
  obtain ⟨hhi, hlo⟩ := scratch_header_of_scratchTo ((encodeChunk_header s).trans (headerBytes_cur s.cur))
  refine ⟨encodeChunk s, if_pos ⟨hf, rfl⟩, encodeChunk_retries s, encodeChunk_fsm s, hhi, hlo,
    fun ho => ⟨?_, ?_, ?_⟩, fun ho => ⟨?_, encodeChunk_wdataReqs_read ho⟩, encodeChunk_writes s⟩
  · intro i h hi
    simp only [encodeChunk_scratch_eq_loadPayload ho]
    exact loadPayload_chunkData_inside s _ h hi
  · intro i h hi
    simp only [encodeChunk_scratch_eq_loadPayload ho]
    exact (loadPayload_chunkData_outside s _ h (Or.inr hi)).trans (encHdr_payload _ s h (by omega))
  · exact encodeChunk_wdataReqs_write ho
  · intro i h hi
    simp only [encodeChunk_scratch_eq_encHdr ho]
    exact encHdr_payload _ s h hi

/-! ## What the registers hold after reset is never observed (R114)

Two runs that start after reset from different register contents agree, step by step, on all but a few registers: between
commands on all but those of R33, from ACCEPT to ENCODE on all but `scratch`, `retries` and `err`, and from ENCODE to the
response on all but `err` and the bytes of `scratch` that are not transmitted. -/

/-- `s` with other bytes in the scratch buffer and another error value. -/
def State.refill (v : Vector Byte 34) (e : Nat) (s : State) : State := { s with scratch := v, err := e }

/-- The bytes of scratch that an attempt transmits (30_encoding.md R86). -/
def State.transmitted (s : State) : List Byte :=
  match s.op with
  | .write => s.scratchTo (2 + s.klen)
  | .read => s.scratchTo 2

theorem transmitted_write {s : State} (ho : s.op = .write) : s.transmitted = s.scratchTo (2 + s.klen) := by
  rw [State.transmitted, ho]

theorem transmitted_read {s : State} (ho : s.op = .read) : s.transmitted = s.scratchTo 2 := by
  rw [State.transmitted, ho]

theorem SameRegisters.transmitted {s s1 : State} (h : SameRegisters s s1) : s1.transmitted = s.transmitted := by
  simp only [State.transmitted, h.op, h.scratchTo, h.klen]

/-- After ENCODE the bytes to transmit are those of the cursor and the host's data, whatever scratch held (R113). -/
theorem encodeChunk_transmitted (s : State) :
    (encodeChunk s).transmitted = headerBytes s.curAddr ++ (if s.op = .write then s.chunkData else []) := by
  cases ho : s.op with
  | read =>
    rw [transmitted_read (by simpa using ho), encodeChunk_header]
    simp
  | write =>
    rw [transmitted_write (by simpa using ho), encodeChunk_klen, encodeChunk_frame ho]
    simp

/-! ### Replies -/

theorem attemptReply_withheld_iff (s : State) :
    attemptReply s = .withheld ↔ s.reply = none ∧ s.transport.serve (attemptRequest s) = .withheld := by
  rcases attemptReply_cases s with ⟨r, hr, h⟩ | ⟨hr, hq, h⟩ | ⟨hr, hq, h⟩ | ⟨a, t, hr, hq, h⟩
  · simp [h, hr]
  all_goals simp [h, hr, hq]

theorem sleepReply_withheld_iff (s : State) :
    sleepReply s = .withheld ↔ s.reply = none ∧ s.transport.serve sleepRequest = .withheld := by
  rcases sleepReply_cases s with ⟨r, hr, h⟩ | ⟨hr, hq, h⟩ | ⟨a, t, hr, hq, h⟩
  · simp [h, hr]
  all_goals simp [h, hr, hq]

theorem attemptReply_pending {s : State} {r : Reply} (h : s.reply = some r) :
    attemptReply s = .replied r { s with reply := none } := by
  rw [attemptReply, h]

theorem sleepReply_pending {s : State} {r : Reply} (h : s.reply = some r) :
    sleepReply s = .replied r { s with reply := none } := by
  rw [sleepReply, h]

section
variable {v : Vector Byte 34} {e : Nat} {s s1 : State} {r : Reply}

/-- The same bytes transmitted make the same request, and the same of its answer. -/
theorem attempt_refill (h : (s.refill v e).transmitted = s.transmitted) :
    attemptRequest (s.refill v e) = attemptRequest s ∧
      ∀ a t, afterAnswer (s.refill v e) a t = (afterAnswer s a t).refill v e := by
  cases ho : s.op with
  | write =>
    have ho' : (s.refill v e).op = .write := ho
    rw [transmitted_write ho, transmitted_write ho'] at h
    rw [attemptRequest_write ho, attemptRequest_write ho']
    refine ⟨congrArg (Request.write s.dev) h, fun a t => ?_⟩
    rw [afterAnswer_write ho, afterAnswer_write ho', h]
    rfl
  | read =>
    have ho' : (s.refill v e).op = .read := ho
    rw [transmitted_read ho, transmitted_read ho'] at h
    rw [attemptRequest_read ho, attemptRequest_read ho']
    refine ⟨congrArg (Request.writeRead s.dev · s.klen s.rel) h, fun a t => ?_⟩
    rw [afterAnswer_read ho, afterAnswer_read ho', h]
    rfl

theorem serve_attempt_refill (h : (s.refill v e).transmitted = s.transmitted) :
    (s.refill v e).transport.serve (attemptRequest (s.refill v e)) = s.transport.serve (attemptRequest s) :=
  congrArg s.transport.serve (attempt_refill h).1

theorem attemptReply_refill_withheld (h : (s.refill v e).transmitted = s.transmitted)
    (hw : attemptReply s = .withheld) : attemptReply (s.refill v e) = .withheld := by
  obtain ⟨hr, hq⟩ := (attemptReply_withheld_iff s).1 hw
  exact (attemptReply_withheld_iff _).2 ⟨hr, (serve_attempt_refill h).trans hq⟩

/-- A reply is the same with a refilled scratch, and after it the same bytes stand there to be transmitted again. -/
theorem attemptReply_refill_replied (h : (s.refill v e).transmitted = s.transmitted)
    (hr : attemptReply s = .replied r s1) :
    attemptReply (s.refill v e) = .replied r (s1.refill v e) ∧ (s1.refill v e).transmitted = s1.transmitted := by
  have hreply : attemptReply (s.refill v e) = .replied r (s1.refill v e) := by
    rcases attemptReply_cases s with ⟨r', hp, h'⟩ | ⟨_, _, h'⟩ | ⟨_, _, h'⟩ | ⟨a, t, hn, hq, h'⟩ <;>
      rw [h'] at hr <;> cases hr
    · exact attemptReply_pending (s := s.refill v e) hp
    · rw [attemptReply_answered (s := s.refill v e) hn ((serve_attempt_refill h).trans hq), (attempt_refill h).2]
      rfl
  exact ⟨hreply, (attemptReply_same hreply).transmitted.trans (h.trans (attemptReply_same hr).transmitted.symm)⟩

theorem sleepReply_refill_withheld (v : Vector Byte 34) (e : Nat) (hw : sleepReply s = .withheld) :
    sleepReply (s.refill v e) = .withheld :=
  (sleepReply_withheld_iff (s.refill v e)).2 ((sleepReply_withheld_iff s).1 hw)

theorem sleepReply_refill_replied (h : (s.refill v e).transmitted = s.transmitted)
    (hr : sleepReply s = .replied r s1) :
    sleepReply (s.refill v e) = .replied r (s1.refill v e) ∧ (s1.refill v e).transmitted = s1.transmitted := by
  have hreply : sleepReply (s.refill v e) = .replied r (s1.refill v e) := by
    rcases sleepReply_cases s with ⟨r', hp, h'⟩ | ⟨_, _, h'⟩ | ⟨a, t, hn, hq, h'⟩ <;> rw [h'] at hr <;> cases hr
    · exact sleepReply_pending (s := s.refill v e) hp
    · exact (sleepReply_eq_performSleep (s := s.refill v e) hn).trans (performSleep_answered (s := s.refill v e) hq)
  exact ⟨hreply, (sleepReply_same hreply).transmitted.trans (h.trans (sleepReply_same hr).transmitted.symm)⟩

end

/-! ### The runs, step by step -/

/-- Two states that two runs from other contents after reset can be in at the same time. -/
def RunsAlike (s s' : State) : Prop :=
  match s.fsm with
  | .idle => SameButUnspecified s s'
  | .chunk | .encode => ∃ v r e, s' = { s with scratch := v, retries := r, err := e }
  | .attempt | .delay => ∃ v e, s' = s.refill v e ∧ (s.refill v e).transmitted = s.transmitted

section
variable {s s' : State}

theorem runsAlike_idle (hf : s.fsm = .idle) : RunsAlike s s' ↔ SameButUnspecified s s' := by
  rw [RunsAlike, hf]

theorem runsAlike_looping (hf : s.fsm = .chunk ∨ s.fsm = .encode) :
    RunsAlike s s' ↔ ∃ v r e, s' = { s with scratch := v, retries := r, err := e } := by
  rcases hf with hf | hf <;> rw [RunsAlike, hf]

theorem runsAlike_requesting (hf : s.requesting) :
    RunsAlike s s' ↔ ∃ v e, s' = s.refill v e ∧ (s.refill v e).transmitted = s.transmitted := by
  rcases hf with hf | hf <;> rw [RunsAlike, hf]

theorem RunsAlike.same (h : RunsAlike s s') : SameButUnspecified s s' := by
  cases hf : s.fsm with
  | idle => exact (runsAlike_idle hf).1 h
  | chunk | encode =>
    obtain ⟨v, r, e, rfl⟩ := (runsAlike_looping (by simp [hf])).1 h
    rfl
  | attempt | delay =>
    obtain ⟨v, e, rfl, _⟩ := (runsAlike_requesting (by simp [State.requesting, hf])).1 h
    rfl

theorem SameButUnspecified.slot (h : SameButUnspecified s s') : s'.slot = s.slot := by
  rw [h]

theorem SameButUnspecified.fsm (h : SameButUnspecified s s') : s'.fsm = s.fsm := by
  rw [h]

theorem SameButUnspecified.cmds (h : SameButUnspecified s s') : s'.cmds = s.cmds := by
  rw [h]

theorem SameButUnspecified.observation (h : SameButUnspecified s s') : SameObservation s s' := by
  rw [h]
  exact ⟨rfl, rfl, rfl, rfl⟩

/-- ACCEPT overwrites the operands and the cursor (43_paginated_write.md R161). -/
theorem SameButUnspecified.accept (h : SameButUnspecified s s') (c : Command) (rest : List Command) :
    RunsAlike (lendSlice c (latchCommand c.op c.addr c.len { s with cmds := rest }))
      (lendSlice c (latchCommand c.op c.addr c.len { s' with cmds := rest })) := by
  refine (runsAlike_looping (Or.inl (by simp))).2 ⟨s'.scratch, s'.retries, s'.err, ?_⟩
  rw [h]
  unfold lendSlice
  split <;> rfl

/-- ENCODE overwrites `retries` and the bytes of scratch to be transmitted (R113). -/
theorem encodeChunk_alike (v : Vector Byte 34) (r : BitVec 4) (e : Nat) :
    RunsAlike (encodeChunk s) (encodeChunk { s with scratch := v, retries := r, err := e }) := by
  have hreqs : (encodeChunk { s with scratch := v, retries := r, err := e }).wdataReqs = (encodeChunk s).wdataReqs := by
    cases ho : s.op with
    | write => exact (encodeChunk_wdataReqs_write rfl).trans (encodeChunk_wdataReqs_write ho).symm
    | read => exact (encodeChunk_wdataReqs_read rfl).trans (encodeChunk_wdataReqs_read ho).symm
  have heq : encodeChunk { s with scratch := v, retries := r, err := e } =
      (encodeChunk s).refill (encodeChunk { s with scratch := v, retries := r, err := e }).scratch e := by
    apply State.ext <;> simp [State.refill, hreqs]
  refine (runsAlike_requesting (Or.inl (encodeChunk_fsm s))).2 ⟨_, e, heq, ?_⟩
  rw [← heq, encodeChunk_transmitted, encodeChunk_transmitted]
  rfl

theorem step_slot_none {t : State} (hs : s.slot = none) (h : step s = .next t) : t.slot = none := by
  rcases step_keeps h with rfl | ⟨i, hi⟩
  · exact hs
  · exact (exec_keeps hi).slot

/-- A step of one run is matched by a step of the other. -/
theorem RunsAlike.next {t : State} (h : RunsAlike s s') (hs : s.slot = none) (ht : Transition s (.next t)) :
    ∃ t', step s' = .next t' ∧ RunsAlike t t' := by
  have hs' : s'.slot = none := h.same.slot.trans hs
  have hfsm : s'.fsm = s.fsm := h.same.fsm
  have hcmds : s'.cmds = s.cmds := h.same.cmds
  cases ht with
  | idleWaits hf hc => exact ⟨s', step_idle_waiting hs' (hfsm.trans hf) (hcmds.trans hc), h⟩
  | accept c rest hf hc =>
    have hc' := hcmds.trans hc
    have hf' := hfsm.trans hf
    exact ⟨_, (step_idle hs' hf' (by simp [hc'])).trans (execAccept_eq hf' hc'), h.same.accept c rest⟩
  | chunkDone hf hdone =>
    obtain ⟨v, r, e, rfl⟩ := (runsAlike_looping (Or.inl hf)).1 h
    exact ⟨_, step_chunk_done hs' hf hdone, (runsAlike_idle (by simp)).2 rfl⟩
  | chunkNext hf hgo =>
    obtain ⟨v, r, e, rfl⟩ := (runsAlike_looping (Or.inl hf)).1 h
    exact ⟨_, step_chunk_next hs' hf hgo, (runsAlike_looping (Or.inr rfl)).2 ⟨v, r, e, rfl⟩⟩
  | encode hf =>
    obtain ⟨v, r, e, rfl⟩ := (runsAlike_looping (Or.inr hf)).1 h
    exact ⟨_, step_encode hs' hf, encodeChunk_alike v r e⟩
  | attemptWaits hf hw =>
    obtain ⟨v, e, rfl, hsent⟩ := (runsAlike_requesting (Or.inl hf)).1 h
    exact ⟨_, step_attempt_withheld hs' hf (attemptReply_refill_withheld hsent hw), h⟩
  | attemptOk s1 hf hr =>
    obtain ⟨v, e, rfl, hsent⟩ := (runsAlike_requesting (Or.inl hf)).1 h
    have hr' := (attemptReply_refill_replied hsent hr).1
    exact ⟨_, step_attempt_ok hs' hf hr', (runsAlike_looping (Or.inl rfl)).2 ⟨v, s1.retries, e, rfl⟩⟩
  | attemptRetry e1 s1 hf hr hm =>
    obtain ⟨v, e, rfl, hsent⟩ := (runsAlike_requesting (Or.inl hf)).1 h
    obtain ⟨hr', hsent'⟩ := attemptReply_refill_replied hsent hr
    exact ⟨_, step_attempt_retry hs' hf hr' hm, (runsAlike_requesting (Or.inr rfl)).2 ⟨v, e1, rfl, hsent'⟩⟩
  | attemptFail e1 s1 hf hr hm =>
    obtain ⟨v, e, rfl, hsent⟩ := (runsAlike_requesting (Or.inl hf)).1 h
    have hr' := (attemptReply_refill_replied hsent hr).1
    exact ⟨_, step_attempt_fail hs' hf hr' hm, (runsAlike_idle (by simp)).2 rfl⟩
  | delayWaits hf ho hw =>
    obtain ⟨v, e, rfl, _⟩ := (runsAlike_requesting (Or.inr hf)).1 h
    exact ⟨_, step_delay_withheld hs' hf ho (sleepReply_refill_withheld v e hw), h⟩
  | delay r s1 hf ho hr =>
    obtain ⟨v, e, rfl, hsent⟩ := (runsAlike_requesting (Or.inr hf)).1 h
    obtain ⟨hr', hsent'⟩ := sleepReply_refill_replied hsent hr
    exact ⟨_, step_delay hs' hf ho hr', (runsAlike_requesting (Or.inl rfl)).2 ⟨v, e, rfl, hsent'⟩⟩

theorem RunsAlike.after {k : Nat} {t : State} (h : RunsAlike s s') (hs : s.slot = none)
    (hk : runs k s = .next t) : ∃ t', runs k s' = .next t' ∧ RunsAlike t t' := by
  induction k generalizing s s' with
  | zero =>
    cases hk
    exact ⟨s', rfl, h⟩
  | succ k ih =>
    cases hstep : step s with
    | next u =>
      obtain ⟨u', hstep', hu⟩ := h.next hs (hstep ▸ step_transition hs)
      rw [runs_step hstep] at hk
      rw [runs_step hstep']
      exact ih hu (step_slot_none hs hstep) hk
    | fault f => simp [runs, Host.Core.run, show core.step s = .fault f from hstep] at hk
    | refused r => simp [runs_refused hstep] at hk

end

/-- Settles O7: two runs that are alike at reset stay alike, and states that are alike show the same observation. -/
theorem resetContentsNeverObserved : Obligations.ResetContentsNeverObserved := by
  intro cfg s s' hreset hsame k t hk
  obtain ⟨t', hk', ht⟩ := ((runsAlike_idle hreset.fsm).2 hsame).after hreset.slotEmpty hk
  exact ⟨t', hk', ht.same.observation⟩

end Sys2Proof.Machine

namespace Sys2Proof

/-- Settles O4: each word is closed, and the decoder is run on it. -/
theorem specWordsDecode : Obligations.SpecWordsDecode := by
  refine ⟨?_, ?_, ?_, ?_, ?_, ?_, ?_, ?_, ?_, ?_⟩ <;> decide

end Sys2Proof
end

section
/-! Proofs of the statements about the raw write with its retries (spec/41_raw_write_retry.md): the sequencer's steps out
of `ATTEMPT` and `DELAY`, and RAW_WRITE on its own, which is one retry loop wherever it is taken up. -/

namespace Sys2Proof.Machine

/-! ## The steps out of ATTEMPT and DELAY (R124 to R127) -/

/-- The reply to a write attempt that the transport answers now. -/
theorem attemptReply_write_answered {s : State} {a : Answer} {tr : Transport} (ho : s.op = .write)
    (hr : s.reply = none) (hq : s.transport.serve (writeRequest s) = .answered a tr) :
    attemptReply s = .replied (replyOf s.params a)
      { s with
        transport := tr
        trace := s.trace ++ [.write s.dev (s.scratchTo (2 + s.klen)) (replyOf s.params a)] } :=
  (attemptReply_eq_performWrite hr ho).trans (performWrite_answered hq)

/-- The reply to a read attempt that the transport answers now, with its burst in the host's buffer. -/
theorem attemptReply_read_answered {s : State} {a : Answer} {tr : Transport} (ho : s.op = .read)
    (hr : s.reply = none) (hq : s.transport.serve (readRequest s) = .answered a tr) :
    attemptReply s = .replied (replyOf s.params a)
      { s with
        transport := tr
        buf := storeBuf s.buf s.rel (burst s a)
        draws := s.draws + s.klen
        trace := s.trace ++ [.writeRead s.dev (s.scratchTo 2) s.klen (recorded s a)] } :=
  (attemptReply_eq_performWriteRead hr ho).trans (performWriteRead_answered hq)

/-- A burst stored at the chunk's place leaves every other position of the buffer. -/
theorem bufAt_outside_burst {s t : State} {a : Answer} (h : t.buf = storeBuf s.buf s.rel (burst s a)) {i : Nat}
    (hi : i < s.rel ∨ s.rel + s.klen ≤ i) : t.bufAt i = s.bufAt i :=
  bufAt_storeBuf_outside h (by rwa [burst_length])

/-- A burst stored at the chunk's place is what the buffer holds there. -/
theorem bufSlice_burst {s t : State} {a : Answer} (h : t.buf = storeBuf s.buf s.rel (burst s a)) :
    t.bufSlice s.rel s.klen = burst s a := by
  simpa only [burst_length] using bufSlice_storeBuf h

/-- Settles O29: the answer `ok` is the reply that ATTEMPT_OK acts on. -/
theorem attemptOkOfWriteAdvances : Obligations.AttemptOkOfWriteAdvances := fun _ _ _ hf ho hr hq =>
  execAttemptOk_eq hf ho (attemptReply_write_answered ho hr hq)

/-- Settles O31: the error of the attempt, with a retry left, is the reply that ATTEMPT_RETRY acts on. -/
theorem attemptRetryAbsorbsTheError : Obligations.AttemptRetryAbsorbsTheError := by
  intro s e tr hf ho hlt hr he hq
  have hm : s.mayRetry = true := by simp [State.mayRetry, ho, Config.maxRetries, hlt]
  have hreply := attemptReply_write_answered ho hr hq
  rw [replyOf_err he] at hreply
  exact execAttemptRetry_eq hf hm hreply

/-- Settles O33: the return of the sleep, whatever it carries, is the reply that DELAY acts on. -/
theorem delayCountsTheSleep : Obligations.DelayCountsTheSleep := fun _ _ _ hf ho hr hq =>
  execDelay_eq hf ho ((sleepReply_eq_performSleep hr).trans (performSleep_answered hq))

/-- Settles O30: the burst of the answer is stored at the chunk's place. -/
theorem attemptOkOfReadFillsTheBuffer : Obligations.AttemptOkOfReadFillsTheBuffer := by
  intro s bs tr hf ho hr hq
  exact ⟨_, received s.draws s.klen bs, execAttemptOk_eq hf ho (attemptReply_read_answered ho hr hq),
    received_length .., received_of_le _ _ _, bufSlice_burst (a := .ok bs) rfl,
    fun _ => bufAt_outside_burst (a := .ok bs) rfl, rfl⟩

/-- Settles O32: with no retry left, and for a read, the error of the attempt is the one ATTEMPT_FAIL raises. -/
theorem attemptFailSurfacesTheError : Obligations.AttemptFailSurfacesTheError := by
  intro s e tr hf hr he
  refine ⟨fun ho hn hq => ?_, fun ho hq => ?_⟩
  · have hm : s.mustFail = true := by simp [State.mustFail, Config.maxRetries, hn]
    have hreply := attemptReply_write_answered ho hr hq
    rw [replyOf_err he] at hreply
    exact execAttemptFail_eq hf ho hm hreply
  · have hm : s.mustFail = true := by simp [State.mustFail, ho]
    have hreply := attemptReply_read_answered ho hr hq
    simp only [replyOf_err he, recorded, portErr, Nat.mod_eq_of_lt he] at hreply
    exact ⟨_, execAttemptFail_eq hf ho hm hreply, fun _ => bufAt_outside_burst (a := .err e) rfl, rfl⟩

/-! ## RAW_WRITE is one retry loop (R120) -/

/-- The retry loop of RAW_WRITE, entered in `ATTEMPT` with the retries that `retries` leaves. -/
def retryLoop (s : State) : Outcome := finishRaw (rawAttempts (Config.maxRetries - s.retries.toNat) s)

/-- RAW_WRITE from the start builds the frame and enters the loop. -/
theorem exec_rawWrite_encode {s : State} (hf : s.fsm = .encode) (ho : s.op = .write) (hk : 1 ≤ s.klen) :
    exec (.rawWrite .encode) s = retryLoop (encodeChunk s) := by
  simp [exec, execRawWrite, hf, ho, Nat.ne_of_gt hk, rawWrite, retryLoop]

/-- RAW_WRITE taken up in `ATTEMPT` enters the loop where it stands. -/
theorem exec_rawWrite_attempt {s : State} (hf : s.fsm = .attempt) (ho : s.op = .write) (hk : 1 ≤ s.klen)
    (hle : s.retries.toNat ≤ 10) : exec (.rawWrite .attempt) s = retryLoop s := by
  simp [exec, execRawWrite, hf, ho, Nat.ne_of_gt hk, Config.maxRetries, hle, retryLoop]

/-- The four bits of `retries` count what is added while the ten retries last. -/
theorem retries_add_toNat {r : BitVec 4} {k : Nat} (h : r.toNat + k ≤ 10) :
    (r + BitVec.ofNat 4 k).toNat = r.toNat + k := by
  rw [BitVec.toNat_add, BitVec.toNat_ofNat]
  omega

/-- The sleep is counted as long as a retry is left. -/
theorem afterDelay_retries_toNat {s : State} (h : s.retries.toNat < 10) :
    (afterDelay s).retries.toNat = s.retries.toNat + 1 :=
  retries_add_toNat h

/-- RAW_WRITE taken up in `DELAY` enters the loop once the sleep has returned and is counted. -/
theorem exec_rawWrite_delay {s s1 : State} {r : Reply} (hf : s.fsm = .delay) (ho : s.op = .write) (hk : 1 ≤ s.klen)
    (hlt : s.retries.toNat < 10) (h : sleepReply s = .replied r s1) :
    exec (.rawWrite .delay) s = retryLoop (afterDelay s1) := by
  have hn : s1.retries = s.retries := (sleepReply_same h).retries
  have hleft : 10 - s.retries.toNat - 1 = 10 - (afterDelay s1).retries.toNat := by
    rw [afterDelay_retries_toNat (hn ▸ hlt), hn, Nat.sub_sub]
  simp [exec, execRawWrite, hf, ho, Nat.ne_of_gt hk, Config.maxRetries, hlt, h, retryLoop, hleft]

/-- RAW_WRITE taken up in `DELAY` stays there while its sleep has not returned. -/
theorem exec_rawWrite_delay_withheld {s : State} (hf : s.fsm = .delay) (ho : s.op = .write) (hk : 1 ≤ s.klen)
    (hlt : s.retries.toNat < 10) (h : sleepReply s = .withheld) : exec (.rawWrite .delay) s = .next s := by
  simp [exec, execRawWrite, hf, ho, Nat.ne_of_gt hk, Config.maxRetries, hlt, h]

/-- A sleep is never refused. -/
theorem sleepReply_meaning (s : State) : sleepReply s ≠ .noMeaning := by
  rcases sleepReply_cases s with ⟨_, _, h⟩ | ⟨_, _, h⟩ | ⟨_, _, _, _, h⟩ <;> simp [h]

/-- Settles O43: a chunk is never longer than NEXT_CHUNK allows, and RAW_WRITE tests for an empty one. -/
theorem rawWriteRefusesEmptyChunk : Obligations.RawWriteRefusesEmptyChunk := fun s =>
  ⟨klen_le_rem s, fun _ hf ho hk => (if_pos ⟨hf, ho⟩).trans (if_pos hk)⟩

/-! ## The loop against a list of answers (R128, R129) -/

/-- The loop accepts its frame after the failed attempts `errs`, if a retry is left for each of them. -/
theorem retryLoop_accepted {s : State} {errs : List Nat} {l : List Answer} (hf : s.fsm = .attempt) (ho : s.op = .write)
    (hr : s.reply = none) (he : ∀ e ∈ errs, e < 2 ^ s.params.errW) (hlen : s.retries.toNat + errs.length ≤ 10)
    (ha : AnswersFrom s (acceptAfter errs ++ l)) :
    retryLoop s = .next { s with
      retries := s.retries + BitVec.ofNat 4 errs.length
      err := errs.getLast?.getD s.err
      reply := some .ok
      transport := { s.transport with answers := l }
      trace := s.trace ++ acceptedGroup s.dev (s.scratchTo (2 + s.klen)) errs } := by
  rw [retryLoop, Config.maxRetries, rawAttempts_accepted (by omega) ho hr hf he ha]
  simp only [finishRaw, afterFailures, answered, ← hf]

/-- The loop ends with the error of the last attempt when no retry is left after the failed attempts `errs`. -/
theorem retryLoop_exhausted {s : State} {errs : List Nat} {e : Nat} {l : List Answer} (hf : s.fsm = .attempt)
    (ho : s.op = .write) (hr : s.reply = none) (he : ∀ x ∈ errs, x < 2 ^ s.params.errW) (hl : e < 2 ^ s.params.errW)
    (hlen : s.retries.toNat + errs.length = 10) (ha : AnswersFrom s (failAnswers errs ++ .err e :: l)) :
    retryLoop s = .next { s with
      retries := 10
      err := e
      reply := some (.err e)
      transport := { s.transport with answers := l }
      trace := s.trace ++ failedAttempts s.dev (s.scratchTo (2 + s.klen)) errs ++
        [.write s.dev (s.scratchTo (2 + s.klen)) (.err e)] } := by
  have hretries : s.retries + BitVec.ofNat 4 errs.length = 10 := by bv_omega
  have hleft : 10 - s.retries.toNat = errs.length := by omega
  rw [retryLoop, Config.maxRetries, hleft, rawAttempts_exhausted ho hr hf he hl ha]
  simp only [finishRaw, afterFailures, answered, hretries, ← hf]

theorem countP_isWrite_failedAttempts (dev : BitVec 7) (frame : List Byte) (errs : List Nat) :
    (failedAttempts dev frame errs).countP Event.isWrite = errs.length := by
  simp [failedAttempts, List.countP_flatMap, Function.comp_def, List.countP_cons, Event.isWrite]

theorem countP_isSleep_failedAttempts (dev : BitVec 7) (frame : List Byte) (errs : List Nat) :
    (failedAttempts dev frame errs).countP Event.isSleep = errs.length := by
  simp [failedAttempts, List.countP_flatMap, Function.comp_def, List.countP_cons, Event.isSleep]

/-- The frame that a raw write from the start sends. -/
theorem encodeChunk_scratchTo_frame {s : State} (ho : s.op = .write) :
    (encodeChunk s).scratchTo (2 + (encodeChunk s).klen) = headerBytes s.curAddr ++ s.dataSlice s.rel s.klen := by
  rw [encodeChunk_klen]
  exact encodeChunk_frame ho

/-- Settles O38: ENCODE builds the frame and clears `retries`, and the loop sends it `|errs| + 1` times. -/
theorem rawWriteSucceedsOnAttemptK : Obligations.RawWriteSucceedsOnAttemptK := by
  intro s errs l hf ho hr hcur hfew ha
  obtain ⟨hlen, herrs⟩ := hfew
  rw [Config.maxRetries] at hlen
  have hloop := retryLoop_accepted (s := encodeChunk s) (errs := errs) (l := l) (encodeChunk_fsm s) (by simpa using ho)
    (by simpa using hr) (by simpa using herrs) (by simpa using hlen) (by simpa [AnswersFrom] using ha)
  rw [encodeChunk_scratchTo_frame ho] at hloop
  have hretries := retries_add_toNat (r := 0) (by simpa using hlen)
  refine ⟨_, (exec_rawWrite_encode hf ho (klen_pos hcur)).trans hloop, ?_, ?_, ?_, ?_, ?_, ?_⟩
  · simp [State.dev, devAddrOf, Config.baseDevAddr]
  · simp [acceptedGroup, countP_isWrite_failedAttempts, Event.isWrite]
  · simp [acceptedGroup, countP_isSleep_failedAttempts, Event.isSleep]
  · simpa using hretries
  · exact encodeChunk_frame ho
  · apply State.ext <;> simp [encodeChunk_wdataReqs_write ho]

/-- Settles O39: ENCODE builds the frame and clears `retries`, and the loop sends it eleven times. -/
theorem rawWriteExhausts : Obligations.RawWriteExhausts := by
  intro s errs e l hf ho hr hcur hlen hfew he ha
  have hloop := retryLoop_exhausted (s := encodeChunk s) (errs := errs) (e := e) (l := l) (encodeChunk_fsm s)
    (by simpa using ho) (by simpa using hr) (by simpa using hfew.2) (by simpa using he) (by simpa using hlen)
    (by simpa [AnswersFrom] using ha)
  rw [encodeChunk_scratchTo_frame ho] at hloop
  refine ⟨_, (exec_rawWrite_encode hf ho (klen_pos hcur)).trans hloop, ?_, ?_, ?_, ?_, ?_⟩
  · simp [State.dev, devAddrOf, Config.baseDevAddr]
  · simp [countP_isWrite_failedAttempts, Event.isWrite, hlen]
  · simp [countP_isSleep_failedAttempts, Event.isSleep, hlen]
  · exact encodeChunk_frame ho
  · apply State.ext <;> simp [encodeChunk_wdataReqs_write ho]

/-- A raw write taken up in `DELAY` stands, once the sleep is answered and counted, in the loop with one retry less. -/
theorem exec_rawWrite_delay_answered {s : State} {x : Answer} {l : List Answer} (hf : s.fsm = .delay)
    (ho : s.op = .write) (hr : s.reply = none) (hk : 1 ≤ s.klen) (hlt : s.retries.toNat < 10)
    (ha : AnswersFrom s (x :: l)) :
    exec (.rawWrite .delay) s = retryLoop (afterDelay (answered s l [.sleep 1])) :=
  exec_rawWrite_delay hf ho hk hlt (sleepReply_answered hr ha)

/-- Settles O40: in `ATTEMPT` the loop goes on where it stands, in `DELAY` after the sleep and with one retry less. -/
theorem rawWriteTakenUpMidway : Obligations.RawWriteTakenUpMidway := by
  refine ⟨fun s errs l hf ho hr hcur hfew => ?_, fun s x errs l hf ho hr hcur hfew => ?_⟩
  · have hk := klen_pos hcur
    refine ⟨fun hlen ha => ?_, fun e he hlen ha => ?_⟩
    · exact ⟨_, (exec_rawWrite_attempt hf ho hk (by omega)).trans (retryLoop_accepted hf ho hr hfew.2 hlen ha), rfl,
        retries_add_toNat hlen, rfl⟩
    · exact (exec_rawWrite_attempt hf ho hk (by omega)).trans (retryLoop_exhausted hf ho hr hfew.2 he hlen ha)
  · have hk := klen_pos hcur
    refine ⟨fun hlen ha => ?_, fun e he hlen ha => ?_⟩
    · have hlt : s.retries.toNat < 10 := by omega
      have hn : (afterDelay (answered s (acceptAfter errs ++ l) [.sleep 1])).retries.toNat = s.retries.toNat + 1 :=
        afterDelay_retries_toNat hlt
      have hlen' := hn ▸ hlen
      exact ⟨_, (exec_rawWrite_delay_answered hf ho hr hk hlt ha).trans
        (retryLoop_accepted rfl ho hr hfew.2 hlen' ⟨ha.1, rfl⟩), rfl, hn ▸ retries_add_toNat hlen', rfl⟩
    · have hlt : s.retries.toNat < 10 := by omega
      have hn : (afterDelay (answered s (failAnswers errs ++ .err e :: l) [.sleep 1])).retries.toNat =
          s.retries.toNat + 1 := afterDelay_retries_toNat hlt
      exact (exec_rawWrite_delay_answered hf ho hr hk hlt ha).trans
        (retryLoop_exhausted rfl ho hr hfew.2 he (hn ▸ hlen) ⟨ha.1, rfl⟩)

/-! ## Bounds whatever the transport does (R131, R195) -/

/-- What RAW_WRITE has done when it enters the loop: every sleep it recorded is counted in `retries`. -/
structure EntersLoop (s s0 : State) : Prop where
  adds : Adds s s0 0 0 s0.retries.toNat
  fsm : s0.fsm = .attempt
  op : s0.op = .write
  retries : s0.retries.toNat ≤ 10
  cur : s0.cur = s.cur
  base : s0.base = s.base
  len : s0.len = s.len
  sameOp : s0.op = s.op
  rsp : s0.rsp = s.rsp
  buf : s0.buf = s.buf

theorem encodeChunk_entersLoop {s : State} (ho : s.op = .write) : EntersLoop s (encodeChunk s) where
  adds := (Adds.same (encodeChunk_trace s)).mono (Nat.zero_le _) (Nat.zero_le _) (Nat.zero_le _)
  fsm := encodeChunk_fsm s
  op := (encodeChunk_op s).trans ho
  retries := by simp
  cur := encodeChunk_cur s
  base := encodeChunk_base s
  len := encodeChunk_len s
  sameOp := encodeChunk_op s
  rsp := encodeChunk_rsp s
  buf := encodeChunk_buf s

theorem attempt_entersLoop {s : State} (hf : s.fsm = .attempt) (ho : s.op = .write) (hle : s.retries.toNat ≤ 10) :
    EntersLoop s s :=
  ⟨(Adds.same rfl).mono (Nat.zero_le _) (Nat.zero_le _) (Nat.zero_le _), hf, ho, hle, rfl, rfl, rfl, rfl, rfl, rfl⟩

theorem afterDelay_entersLoop {s s1 : State} {r : Reply} (ho : s.op = .write) (hlt : s.retries.toNat < 10)
    (h : sleepReply s = .replied r s1) : EntersLoop s (afterDelay s1) := by
  have hs := sleepReply_same h
  have hn := afterDelay_retries_toNat (hs.retries ▸ hlt)
  have hadds : Adds s s1 0 0 1 := sleepReply_adds h
  have hcounted : Adds s (afterDelay s1) 0 0 1 := hadds
  have hbuf := sleepReply_buf h
  exact
    { adds := hcounted.mono (Nat.zero_le _) (Nat.zero_le _) (by omega)
      fsm := afterDelay_fsm s1
      op := hs.op.trans ho
      retries := by rw [hn, hs.retries]; omega
      cur := hs.cur
      base := hs.base
      len := hs.len
      sameOp := hs.op
      rsp := hs.rsp
      buf := hbuf }

/-- Where RAW_WRITE answers a next state (R120, R130): taken up in its own phase, on a chunk that is not empty, with a retry
left for a sleep that has begun. -/
theorem exec_rawWrite_guard {f : Fsm} {s t : State} (h : exec (.rawWrite f) s = .next t) :
    s.fsm = f ∧ s.op = .write ∧ 1 ≤ s.klen ∧
      (f = .encode ∨ (f = .attempt ∧ s.retries.toNat ≤ 10) ∨ (f = .delay ∧ s.retries.toNat < 10)) := by
  simp only [exec, execRawWrite, Config.maxRetries] at h
  split at h
  case isFalse => simp at h
  case isTrue hg =>
    split at h
    case isTrue => simp at h
    case isFalse hk =>
      refine ⟨hg.1, hg.2, Nat.pos_of_ne_zero hk, ?_⟩
      cases f with
      | idle => simp at h
      | chunk => simp at h
      | encode => exact Or.inl rfl
      | attempt =>
        by_cases hle : s.retries.toNat ≤ 10
        · exact Or.inr (Or.inl ⟨rfl, hle⟩)
        · simp [hle] at h
      | delay =>
        by_cases hlt : s.retries.toNat < 10
        · exact Or.inr (Or.inr ⟨rfl, hlt⟩)
        · simp [hlt] at h

/-- All that RAW_WRITE can do when it answers a next state (R120): it enters the loop, or waits for a sleep to return. -/
theorem exec_rawWrite_next {f : Fsm} {s t : State} (h : exec (.rawWrite f) s = .next t) :
    (s.retries.toNat < 10 ∧ t = s) ∨ ∃ s0, EntersLoop s s0 ∧ retryLoop s0 = .next t := by
  obtain ⟨hf, ho, hk, rfl | ⟨rfl, hle⟩ | ⟨rfl, hlt⟩⟩ := exec_rawWrite_guard h
  · exact Or.inr ⟨_, encodeChunk_entersLoop ho, (exec_rawWrite_encode hf ho hk).symm.trans h⟩
  · exact Or.inr ⟨s, attempt_entersLoop hf ho hle, (exec_rawWrite_attempt hf ho hk hle).symm.trans h⟩
  · cases hq : sleepReply s with
    | withheld =>
      rw [exec_rawWrite_delay_withheld hf ho hk hlt hq] at h
      cases h
      exact Or.inl ⟨hlt, rfl⟩
    | noMeaning => exact absurd hq (sleepReply_meaning s)
    | replied r s1 =>
      exact Or.inr ⟨_, afterDelay_entersLoop ho hlt hq, (exec_rawWrite_delay hf ho hk hlt hq).symm.trans h⟩

theorem RawBound.setReply {s t : State} {w r z : Nat} (h : RawBound s t w r z) (x : Reply) :
    RawBound s { t with reply := some x } w r z :=
  ⟨h.adds, h.op, h.base, h.len, h.cur, h.rsp, h.data, h.buf, h.retries⟩

/-- The bounds of the loop, entered with `retries` of its sleeps made. -/
theorem retryLoop_bounded {s t : State} (ho : s.op = .write) (hf : s.fsm = .attempt) (h : retryLoop s = .next t) :
    RawBound s t (10 - s.retries.toNat + 1) 0 (10 - s.retries.toNat) := by
  have hb := rawAttempts_bounded (10 - s.retries.toNat) ho hf
  unfold retryLoop Config.maxRetries at h
  cases hend : rawAttempts (10 - s.retries.toNat) s with
  | waiting u =>
    rw [hend] at h hb
    cases h
    exact hb.1
  | noMeaning => simp [hend, finishRaw] at h
  | returned r u =>
    rw [hend] at h hb
    cases h
    exact hb.setReply r

/-- Without reads and responses every event recorded is a write or a sleep, and the sleeps are of one unit. -/
theorem Adds.writesAndSleeps {s t : State} {w z : Nat} (h : Adds s t w 0 z) :
    ∃ evs, t.trace = s.trace ++ evs ∧ (∀ e ∈ evs, e.isWrite = true ∨ e.isSleep = true) ∧
      evs.countP Event.isWrite ≤ w ∧ evs.countP Event.isSleep ≤ z ∧ sleepingTime evs ≤ z * Config.tUnit := by
  obtain ⟨evs, htrace, hwrites, hreads, hsleeps, hresponses, hunits⟩ := h
  refine ⟨evs, htrace, fun e he => ?_, hwrites, hsleeps, Nat.mul_le_mul_right _ hunits⟩
  have hread := List.countP_eq_zero.1 (Nat.le_zero.1 hreads) e he
  have hresponse := List.countP_eq_zero.1 hresponses e he
  cases e <;> simp_all [Event.isWrite, Event.isRead, Event.isSleep, Event.isResponse]

/-- Settles O41: what RAW_WRITE did before it enters the loop, and the bounds of the loop from there. -/
theorem rawWriteIsBounded : Obligations.RawWriteIsBounded := by
  intro f s t h
  rcases exec_rawWrite_next h with ⟨hlt, rfl⟩ | ⟨s0, hs, hloop⟩
  · exact ⟨[], by simp [sleepingTime, Nat.le_of_lt hlt]⟩
  · have hle := hs.retries
    have hb := retryLoop_bounded hs.op hs.fsm hloop
    have hadds : Adds s t 11 0 10 := (hs.adds.trans hb.adds).mono (by omega) (Nat.le_refl _) (by omega)
    obtain ⟨evs, htrace, hkinds, hwrites, hsleeps, htime⟩ := hadds.writesAndSleeps
    have hretries := hb.retries (by omega)
    exact ⟨evs, htrace, hkinds, hwrites, hsleeps, htime, hb.cur.trans hs.cur, hb.base.trans hs.base,
      hb.len.trans hs.len, hb.op.trans hs.sameOp, hb.rsp.trans hs.rsp, (hb.buf hs.op).trans hs.buf, by omega⟩

end Sys2Proof.Machine
end

section
/-! Proofs of the statement about the raw read (spec/42_raw_read.md): RAW_READ on its own is one combined transaction, after
its header is built or where its header already stands. -/

namespace Sys2Proof.Machine

/-! ## RAW_READ is one attempt (R140) -/

/-- RAW_READ from the start builds the header and makes its one attempt. -/
theorem exec_rawRead_encode {s : State} (hf : s.fsm = .encode) (ho : s.op = .read) (hk : 1 ≤ s.klen) :
    exec (.rawRead .encode) s = finishRaw (rawAttempts 0 (encodeChunk s)) := by
  simp [exec, execRawRead, hf, ho, Nat.ne_of_gt hk, rawRead]

/-- RAW_READ taken up in `ATTEMPT` makes its one attempt with the header it finds. -/
theorem exec_rawRead_attempt {s : State} (hf : s.fsm = .attempt) (ho : s.op = .read) (hk : 1 ≤ s.klen) :
    exec (.rawRead .attempt) s = finishRaw (rawAttempts 0 s) := by
  simp [exec, execRawRead, hf, ho, Nat.ne_of_gt hk]

/-! ## The attempt against a list of answers (R142, R143) -/

/-- Bytes of the chunk's length are received as they are. -/
theorem burst_ok {s : State} {bs : List Byte} (h : bs.length = s.klen) : burst s (.ok bs) = bs := by
  simp only [burst, ← h, received_eq]

/-- The attempt answered `ok`: its bytes fill the chunk's part of the buffer. -/
theorem finishRaw_read_ok {s : State} {bs : List Byte} {l : List Answer} (ho : s.op = .read) (hr : s.reply = none)
    (hb : bs.length = s.klen) (ha : AnswersFrom s (.ok bs :: l)) :
    finishRaw (rawAttempts 0 s) = .next { s with
      reply := some .ok
      buf := storeBuf s.buf s.rel (burst s (.ok bs))
      draws := s.draws + s.klen
      transport := { s.transport with answers := l }
      trace := s.trace ++ [.writeRead s.dev (s.scratchTo 2) s.klen (.ok bs)] } := by
  rw [rawAttempts_read_ok ho hr hb ha, burst_ok hb]
  rfl

/-- The attempt answered `err(e)`: the error is the result at once, with free values in the chunk's part of the buffer. -/
theorem finishRaw_read_err {s : State} {e : Nat} {l : List Answer} (ho : s.op = .read) (hr : s.reply = none)
    (he : e < 2 ^ s.params.errW) (ha : AnswersFrom s (.err e :: l)) :
    finishRaw (rawAttempts 0 s) = .next { s with
      err := e
      reply := some (.err e)
      buf := storeBuf s.buf s.rel (burst s (.err e))
      draws := s.draws + s.klen
      transport := { s.transport with answers := l }
      trace := s.trace ++ [.writeRead s.dev (s.scratchTo 2) s.klen (.err e)] } := by
  rw [rawAttempts_read_err ho hr he ha]
  rfl

/-! ## RAW_READ from the start (R140) -/

/-- ENCODE for a read leaves the payload's part of `scratch`. -/
theorem encodeChunk_payload_read {s : State} (ho : s.op = .read) (i : Nat) (h : i < 34) (h2 : 2 ≤ i) :
    (encodeChunk s).scratch[i] = s.scratch[i] := by
  simp only [encodeChunk_scratch_eq_encHdr ho]
  exact encHdr_payload _ s h h2

/-- ENCODE does not reach the transport. -/
@[simp] theorem answersFrom_encodeChunk (s : State) (l : List Answer) :
    AnswersFrom (encodeChunk s) l ↔ AnswersFrom s l := by
  simp [AnswersFrom]

/-- ENCODE changes nothing of what a burst puts into the buffer. -/
@[simp] theorem burst_encodeChunk (s : State) (a : Answer) : burst (encodeChunk s) a = burst s a := by
  cases a <;> simp [burst]

/-- RAW_READ from the start, answered `ok`: the frame sent is the header of the cursor. -/
theorem exec_rawRead_encode_ok {s : State} {bs : List Byte} {l : List Answer} (hf : s.fsm = .encode) (ho : s.op = .read)
    (hr : s.reply = none) (hk : 1 ≤ s.klen) (hb : bs.length = s.klen) (ha : AnswersFrom s (.ok bs :: l)) :
    exec (.rawRead .encode) s = .next { s with
      scratch := (encodeChunk s).scratch
      fsm := .attempt
      retries := 0
      reply := some .ok
      buf := storeBuf s.buf s.rel (burst s (.ok bs))
      draws := s.draws + s.klen
      transport := { s.transport with answers := l }
      trace := s.trace ++ [.writeRead s.dev (headerBytes s.curAddr) s.klen (.ok bs)] } := by
  rw [exec_rawRead_encode hf ho hk, finishRaw_read_ok (by simpa using ho) (by simpa using hr) (by simpa using hb)
    ((answersFrom_encodeChunk s _).2 ha)]
  simp [encodeChunk_header, encodeChunk_wdataReqs_read ho]

/-- RAW_READ from the start, answered `err(e)`: the frame sent is the header of the cursor. -/
theorem exec_rawRead_encode_err {s : State} {e : Nat} {l : List Answer} (hf : s.fsm = .encode) (ho : s.op = .read)
    (hr : s.reply = none) (hk : 1 ≤ s.klen) (he : e < 2 ^ s.params.errW) (ha : AnswersFrom s (.err e :: l)) :
    exec (.rawRead .encode) s = .next { s with
      scratch := (encodeChunk s).scratch
      fsm := .attempt
      retries := 0
      err := e
      reply := some (.err e)
      buf := storeBuf s.buf s.rel (burst s (.err e))
      draws := s.draws + s.klen
      transport := { s.transport with answers := l }
      trace := s.trace ++ [.writeRead s.dev (headerBytes s.curAddr) s.klen (.err e)] } := by
  rw [exec_rawRead_encode hf ho hk, finishRaw_read_err (by simpa using ho) (by simpa using hr) (by simpa using he)
    ((answersFrom_encodeChunk s _).2 ha)]
  simp [encodeChunk_header, encodeChunk_wdataReqs_read ho]

/-- Settles O42: the one attempt with the header that ENCODE builds, and with the one that RAW_READ finds in `ATTEMPT`; the
burst is stored at the chunk's place. -/
theorem rawReadIsOneTransaction : Obligations.RawReadIsOneTransaction := by
  refine ⟨fun s l hf ho hr hcur => ?_, fun s l hf ho hr hcur => ?_⟩
  · have hk := klen_pos hcur
    refine ⟨fun bs hbs ha => ?_, fun e he ha => ?_⟩
    · exact ⟨_, exec_rawRead_encode_ok hf ho hr hk hbs ha, rfl, (bufSlice_burst rfl).trans (burst_ok hbs),
        fun _ => bufAt_outside_burst rfl, encodeChunk_payload_read ho, rfl⟩
    · exact ⟨_, exec_rawRead_encode_err hf ho hr hk he ha, rfl, fun _ => bufAt_outside_burst rfl,
        encodeChunk_payload_read ho, rfl⟩
  · have hrun := exec_rawRead_attempt hf ho (klen_pos hcur)
    refine ⟨fun bs hbs ha => ?_, fun e he ha => ?_⟩
    · exact ⟨_, hrun.trans (finishRaw_read_ok ho hr hbs ha), rfl, (bufSlice_burst rfl).trans (burst_ok hbs),
        fun _ => bufAt_outside_burst rfl, rfl⟩
    · exact ⟨_, hrun.trans (finishRaw_read_err ho hr he ha), rfl, fun _ => bufAt_outside_burst rfl, rfl⟩

end Sys2Proof.Machine
end

section
/-! Proofs of the statements about the paginated write (spec/43_paginated_write.md): the sequencer's waits, guards and
transitions, the chunk arithmetic, and the command WRITE against any transport, a list of answers and the reference device. -/

namespace Sys2Proof.Machine

/-! ## The block waits (R160, R222) -/

/-- Where the block's environment has not acted, a step changes nothing. -/
theorem step_waits {s : State} (hs : s.slot = none)
    (h : (s.fsm = .idle ∧ s.cmds = []) ∨ (s.fsm = .attempt ∧ attemptReply s = .withheld) ∨
      (s.fsm = .delay ∧ s.op = .write ∧ sleepReply s = .withheld)) : step s = .next s := by
  rcases h with ⟨hf, hc⟩ | ⟨hf, ha⟩ | ⟨hf, ho, hz⟩
  · exact step_idle_waiting hs hf hc
  · exact step_attempt_withheld hs hf ha
  · exact step_delay_withheld hs hf ho hz

/-- Settles O8: a step of a waiting block answers the same state, and so does every run. -/
theorem blockWaitsForItsEnvironment : Obligations.BlockWaitsForItsEnvironment := fun _ hs hwait =>
  runs_stay (step_waits hs hwait)

/-! ## What a step runs (R160) -/

/-- Settles O9: what `step` does with the word in the slot, and that no operation fills the slot. -/
theorem stepRunsTheSlot : Obligations.StepRunsTheSlot := by
  refine ⟨fun s f bs i hslot hdecode => ?_, fun s t h => ?_⟩
  · have hfetch : fetch s = .word f bs := by simp [fetch, hslot]
    exact ⟨step_of_fetch_word hfetch hdecode, fun hblocks => by simp [step, hfetch, hdecode, hblocks]⟩
  · rcases step_keeps h with rfl | ⟨i, hexec⟩
    · exact Or.inr rfl
    · exact Or.inl (exec_keeps hexec).slot

theorem exec_chunkDone {s : State} (hf : s.fsm = .chunk) (h : s.endp ≤ s.cur) :
    exec (.chunkDone s.op) s = .next (respond .ok s) := if_pos ⟨hf, rfl, chunkTodo_false_iff.2 h⟩

theorem exec_chunkNext {s : State} (hf : s.fsm = .chunk) (h : s.cur < s.endp) :
    exec (.chunkNext s.op) s = .next { s with fsm := .encode } := if_pos ⟨hf, rfl, chunkTodo_iff.2 h⟩

theorem exec_encode {s : State} (hf : s.fsm = .encode) : exec (.encode s.op) s = .next (encodeChunk s) :=
  if_pos ⟨hf, rfl⟩

theorem mayRetry_of_lt {s : State} (ho : s.op = .write) (hlt : s.retries.toNat < 10) : s.mayRetry = true := by
  simp [State.mayRetry, Config.maxRetries, ho, hlt]

theorem mustFail_iff {s : State} : s.mustFail = true ↔ s.op = .read ∨ s.retries.toNat = 10 := decide_eq_true_iff

/-- Settles O10: in each case the step and the exec of the row come to the same state. -/
theorem stepRunsTheSequencer : Obligations.StepRunsTheSequencer := by
  refine fun s hs => ⟨fun hf hc => step_idle hs hf hc, fun hf h => ?_, fun hf h => ?_, fun hf => ?_,
    fun s1 hf ha => ?_, fun e s1 hf ha ho hlt => ?_, fun e s1 hf ha h => ?_, fun r s1 hf ho hz => ?_⟩
  · rw [step_chunk_done hs hf (chunkTodo_false_iff.2 h), exec_chunkDone hf h]
  · rw [step_chunk_next hs hf (chunkTodo_iff.2 h), exec_chunkNext hf h]
  · rw [step_encode hs hf, exec_encode hf]
  · exact (step_attempt_ok hs hf ha).trans (execAttemptOk_eq hf rfl ha).symm
  · have hm := mayRetry_of_lt ho hlt
    exact (step_attempt_retry hs hf ha hm).trans (execAttemptRetry_eq hf hm ha).symm
  · have hm := mustFail_iff.2 h
    exact (step_attempt_fail hs hf ha hm).trans (execAttemptFail_eq hf rfl hm ha).symm
  · exact (step_delay hs hf ho hz).trans (execDelay_eq hf ho hz).symm

/-! ## The guards exclude each other (R160) -/

/-- The one step of the table of R160 whose guard can hold in a state. -/
def guardedStep (s : State) : Option Instr :=
  match s.fsm with
  | .idle => some (.accept s.op)
  | .chunk => some (if s.chunkTodo then .chunkNext s.op else .chunkDone s.op)
  | .encode => some (.encode s.op)
  | .attempt =>
    match attemptReply s with
    | .withheld | .noMeaning => none
    | .replied .ok _ => some (.attemptOk s.op)
    | .replied (.err _) _ => some (if s.mayRetry then .attemptRetry else .attemptFail s.op)
  | .delay => some .delay

theorem mayRetry_of_mustFail {s : State} (h : s.mustFail = true) : s.mayRetry = false := by
  by_contra hm
  simp [mustFail_of_mayRetry (Bool.not_eq_false _ ▸ hm)] at h

theorem execEncode_next {o : Op} {s t : State} (h : execEncode o s = .next t) : s.fsm = .encode ∧ s.op = o := by
  unfold execEncode at h
  split at h
  · assumption
  · simp at h

/-- A sequencer step that has an effect is the one whose guard holds. -/
theorem guardedStep_of_exec {i : Instr} {s t : State} (hi : formatOf 0 i = .seq) (h : exec i s = .next t) :
    guardedStep s = some i := by
  cases i with
  | accept o =>
    obtain ⟨_, _, hf, ho, -⟩ := execAccept_next h
    simp [guardedStep, hf, ho]
  | chunkDone o =>
    obtain ⟨hf, ho, htodo, -⟩ := execChunkDone_next h
    simp [guardedStep, hf, ho, htodo]
  | chunkNext o =>
    obtain ⟨hf, ho, htodo, -⟩ := execChunkNext_next h
    simp [guardedStep, hf, ho, htodo]
  | encode o =>
    obtain ⟨hf, ho⟩ := execEncode_next h
    simp [guardedStep, hf, ho]
  | attemptOk o =>
    obtain ⟨_, hf, ho, ha, -⟩ := execAttemptOk_next h
    simp [guardedStep, hf, ho, ha]
  | attemptRetry =>
    obtain ⟨_, _, hf, hm, ha, -⟩ := execAttemptRetry_next h
    simp [guardedStep, hf, hm, ha]
  | attemptFail o =>
    obtain ⟨_, _, hf, ho, hm, ha, -⟩ := execAttemptFail_next h
    simp [guardedStep, hf, ho, mayRetry_of_mustFail hm, ha]
  | delay =>
    obtain ⟨_, _, hf, -⟩ := execDelay_next h
    simp [guardedStep, hf]
  | _ => simp [formatOf] at hi

/-- Settles O11: both operations are the one step whose guard holds. -/
theorem sequencerGuardsExclude : Obligations.SequencerGuardsExclude := fun _ _ _ _ _ hi hj hexec hexec' =>
  Option.some.inj ((guardedStep_of_exec hi hexec).symm.trans (guardedStep_of_exec hj hexec'))

/-! ## The sequencer's own steps (R161 to R163) -/

/-- Settles O26: ACCEPT latches the operands and lends the slice to `data` or to `buf`, by the command's kind. -/
theorem acceptLatchesCommand : Obligations.AcceptLatchesCommand := by
  intro s c rest hf hc
  refine (execAccept_eq hf hc).trans ?_
  cases ho : c.op <;> simp [lendSlice, latchCommand, portLen, ho]

/-- Settles O27: the two guards of `CHUNK` are the two results of the loop's test. -/
theorem chunkLoopTest : Obligations.ChunkLoopTest := fun _ hf => ⟨exec_chunkDone hf, exec_chunkNext hf⟩

/-! ## The chunk arithmetic (R153, R154) -/

theorem exec_nextChunk_pos (c : BitVec 5) {s : State} (h : 1 ≤ s.toGo) :
    exec (.nextChunk c) s = .next { s with result := some (.chunkLen (nextChunkLen c.toNat s.toGo)) } := by
  have hdraws : nextChunkDraws s.toGo = 0 := if_neg (Nat.ne_of_gt h)
  simp only [exec, execNextChunk, nextChunkValue_of_pos _ _ h, hdraws, Nat.add_zero]

/-- NEXT_CHUNK depends on the cursor through its position in the page only. -/
theorem nextChunkLen_mod_page {c c' : Nat} (m : Nat) (h : c % 32 = c' % 32) : nextChunkLen c m = nextChunkLen c' m := by
  rw [nextChunkLen, nextChunkLen, Config.pageSize, h]

/-- Settles O23: the five bits of the operand are the position in the page. -/
theorem nextChunkLength : Obligations.NextChunkLength := by
  refine ⟨fun c s h => ?_, fun c s h => ?_⟩
  · have hc : c.toNat % 32 = c.toNat := Nat.mod_eq_of_lt c.isLt
    have hle := nextChunkLen_le_rem c.toNat s.toGo
    have hformula : nextChunkLen c.toNat s.toGo = min (32 - c.toNat) s.toGo := by
      rw [nextChunkLen, Config.pageSize, hc]
    exact ⟨_, exec_nextChunk_pos c h, hformula, nextChunkLen_pos h, by omega, by omega,
      fun hcur => nextChunkLen_mod_page _ (hc.trans hcur)⟩
  · have hdraws : nextChunkDraws s.toGo = 1 := if_pos h
    exact ⟨_, by rw [exec, execNextChunk, hdraws]⟩

theorem chunkStart_aligned (a : Nat) {j : Nat} (h : 1 ≤ j) : chunkStart a j % 32 = 0 := by
  rw [chunkStart, if_neg (Nat.ne_of_gt h), Nat.mul_mod_right]

/-- A chunk between the first and the last fills its page. -/
theorem chunkLength_middle {a n j : Nat} (h1 : 1 ≤ j) (h2 : j + 1 < chunkCount a n) : chunkLength a n j = 32 := by
  have haligned := chunkStart_aligned a h1
  have hadjacent := chunkStart_add_length h2
  have hnext := chunkStart_succ a j
  omega

/-- Settles O53: the laws of the closed form, one by one. -/
theorem chunksPartitionTheRange : Obligations.ChunksPartitionTheRange := by
  refine fun a n => ⟨chunkStart_lt_iff a n, chunkStart_zero a, fun j => chunkStart_aligned a, fun j hj => ?_⟩
  have hlt := (chunkStart_lt_iff a n j).2 hj
  have hlen := nextChunkLen_chunkStart a n j
  have hpos : 1 ≤ chunkLength a n j := hlen ▸ nextChunkLen_pos (by omega)
  have hpage := hlen ▸ nextChunkLen_le_rem (chunkStart a j) (a + n - chunkStart a j)
  exact ⟨hlen.symm, hpos, by omega, chunkStart_add_length, chunkStart_add_length_last, chunkLength_middle⟩

/-! ## A run of the sequencer is the command (R164) -/

/-- What a raw operation leaves alone: the command, the cursor, and the model's slot. -/
structure SameChunk (s t : State) : Prop where
  op : t.op = s.op
  base : t.base = s.base
  len : t.len = s.len
  cur : t.cur = s.cur
  slot : t.slot = s.slot

theorem SameRegisters.chunk {s t : State} (h : SameRegisters s t) : SameChunk s t :=
  ⟨h.op, h.base, h.len, h.cur, h.slot⟩

theorem sameChunk_keeps : RawKeeps SameChunk where
  refl _ := ⟨rfl, rfl, rfl, rfl, rfl⟩
  trans h1 h2 := ⟨h2.op.trans h1.op, h2.base.trans h1.base, h2.len.trans h1.len, h2.cur.trans h1.cur,
    h2.slot.trans h1.slot⟩
  attempt h := (attemptReply_same h).chunk
  sleep h := (sleepReply_same h).chunk
  toDelay _ _ := ⟨rfl, rfl, rfl, rfl, rfl⟩
  afterDelay _ := ⟨rfl, rfl, rfl, rfl, rfl⟩
  setErr _ _ := ⟨rfl, rfl, rfl, rfl, rfl⟩

theorem encodeChunk_sameChunk (s : State) : SameChunk s (encodeChunk s) :=
  ⟨by simp, by simp, by simp, by simp, by simp⟩

theorem AtChunk.of_same {s t : State} {a n j : Nat} (h : AtChunk s a n j) (hs : SameChunk s t) : AtChunk t a n j :=
  ⟨by rw [hs.base, h.base], by rw [hs.len, h.len], by rw [hs.cur, h.cur]⟩

/-- The raw operation of a command: RAW_WRITE with ten retries, or RAW_READ with none. -/
def rawOf : Op → State → RawEnd
  | .write => rawWrite
  | .read => rawRead

theorem rawOf_sameChunk {o : Op} {s t : State} {r : Reply} (h : rawOf o s = .returned r t) : SameChunk s t := by
  have hkeeps (left : Nat) : (rawAttempts left (encodeChunk s)).Keeps SameChunk s :=
    RawEnd.Keeps.trans sameChunk_keeps (encodeChunk_sameChunk s) (rawAttempts_keeps sameChunk_keeps left _)
  cases o with
  | write => exact (h ▸ hkeeps 10 : (RawEnd.returned r t).Keeps SameChunk s)
  | read => exact (h ▸ hkeeps 0 : (RawEnd.returned r t).Keeps SameChunk s)

/-- The raw operation of the chunk at the cursor, run by the sequencer from ENCODE's result. -/
theorem rawOf_runs {s : State} (hs : s.slot = none) : ∃ k, runs k (encodeChunk s) = (rawOf s.op s).outcome := by
  cases ho : s.op with
  | write => exact rawAttempts_runs 10 (by simpa using hs) (by simp) (Or.inl ⟨by simpa using ho, by simp⟩)
  | read => exact rawAttempts_runs 0 (by simpa using hs) (by simp) (Or.inr ⟨by simpa using ho, rfl⟩)

/-- CHUNK_NEXT and ENCODE take the block from the loop's test to the chunk's first attempt. -/
theorem runs_to_attempt {s : State} (k : Nat) (hs : s.slot = none) (hf : s.fsm = .chunk) (htodo : s.chunkTodo = true) :
    runs (k + 1 + 1) s = runs k (encodeChunk s) := by
  have hencode : step { s with fsm := .encode } = .next (encodeChunk s) :=
    encodeChunk_fsm_irrelevant s .encode ▸ step_encode hs rfl
  rw [runs_step (step_chunk_next hs hf htodo), runs_step hencode]

/-- A chunk that does not succeed is the command's last, and the loop comes to what the chunk comes to. -/
theorem chunkLoop_last {raw : State → RawEnd} {s : State} (fuel : Nat) (htodo : s.chunkTodo = true)
    (h : ∀ s1, raw s ≠ .returned .ok s1) : chunkLoop raw (fuel + 1) s = (raw s).outcome := by
  rw [chunkLoop, if_pos htodo]
  cases hraw : raw s with
  | waiting s1 => rfl
  | noMeaning => rfl
  | returned r s1 =>
    cases r with
    | ok => exact absurd hraw (h s1)
    | err e => rfl

/-- The loop of a command from chunk `j` on is a run of the sequencer, if its fuel is enough for the chunks left. -/
theorem chunkLoop_runs {a n : Nat} {o : Op} {fuel j : Nat} {s : State} (hat : AtChunk s a n j) (hs : s.slot = none)
    (hf : s.fsm = .chunk) (ho : s.op = o) (hfuel : chunkCount a n - j < fuel) :
    ∃ k, runs k s = chunkLoop (rawOf o) fuel s := by
  induction fuel generalizing s j with
  | zero => omega
  | succ fuel ih =>
    cases htodo : s.chunkTodo with
    | false => exact ⟨1, by rw [runs_step (step_chunk_done hs hf htodo), chunkLoop_done fuel htodo]; rfl⟩
    | true =>
      obtain ⟨k, hk⟩ := rawOf_runs hs
      rw [ho] at hk
      by_cases hok : ∃ s1, rawOf o s = .returned .ok s1
      · obtain ⟨s1, hraw⟩ := hok
        have hsame := rawOf_sameChunk hraw
        have hj := hat.todo.1 htodo
        rw [hraw] at hk
        obtain ⟨m, hm⟩ := ih (hat.of_same hsame).advance (s := advance s1) (hsame.slot.trans hs) rfl
          (hsame.op.trans ho) (by omega)
        refine ⟨k + m + 1 + 1, ?_⟩
        rw [runs_to_attempt _ hs hf htodo, runs_trans hk, hm, chunkLoop_ok fuel htodo hraw]
      · refine ⟨k + 1 + 1, ?_⟩
        rw [runs_to_attempt _ hs hf htodo, hk, chunkLoop_last fuel htodo (not_exists.1 hok)]

/-- From the offer of a command, the sequencer accepts it and runs its loop, with the fuel of WRITE and READ. -/
theorem offered_runs {s : State} {c : Command} {rest : List Command} (h : Ready s) (hc : s.cmds = c :: rest) :
    ∃ k, runs k s = chunkLoop (rawOf c.op) (portLen s.params c.len + 1)
      (lendSlice c (latchCommand c.op c.addr c.len { s with cmds := rest })) := by
  have haccept := (step_idle h.slotEmpty h.fsm (by simp [hc])).trans (execAccept_eq h.fsm hc)
  generalize ht : lendSlice c (latchCommand c.op c.addr c.len { s with cmds := rest }) = t at haccept
  have hat : AtChunk t c.addr.toNat (portLen s.params c.len) 0 :=
    ⟨by simp [← ht], by simp [← ht], by simp [← ht, chunkStart_zero]⟩
  obtain ⟨k, hk⟩ := chunkLoop_runs (o := c.op) hat (by simpa [← ht] using h.slotEmpty) (by simp [← ht]) (by simp [← ht])
    (Nat.lt_succ_of_le (chunkCount_le _ _))
  exact ⟨k + 1, (runs_step haccept).trans hk⟩

theorem exec_write_idle {a : Addr} {n : Nat} {s : State} (hf : s.fsm = .idle) :
    exec (.write a n) s = chunkLoop rawWrite (portLen s.params n + 1) (latchCommand .write a n s) := if_pos hf

theorem exec_read_idle {a : Addr} {n : Nat} {s : State} (hf : s.fsm = .idle) :
    exec (.read a n) s = chunkLoop rawRead (portLen s.params n + 1) (latchCommand .read a n s) := if_pos hf

/-- Settles O52: the accepted command stands where WRITE and READ start their loop. -/
theorem sequencerAgreesWithPseudocode : Obligations.SequencerAgreesWithPseudocode := by
  refine fun a n slice s rest h => ⟨fun hc => ?_, fun hc => ?_⟩
  · obtain ⟨k, hk⟩ := offered_runs h hc
    exact ⟨k, hk.trans (exec_write_idle (s := { s with cmds := rest, data := slice }) h.fsm).symm⟩
  · obtain ⟨k, hk⟩ := offered_runs h hc
    exact ⟨k, hk.trans (exec_read_idle (s := { s with cmds := rest, buf := slice }) h.fsm).symm⟩

/-! ## WRITE against a list of answers (R158, R159) -/

/-- What a WRITE from `s` has done when its first `j` chunks are accepted: the groups `evs` are recorded, the answers down to
`l` are used, and the data up to the next chunk are fetched. -/
structure WroteChunks (a : Addr) (n : Nat) (s t : State) (j : Nat) (evs : List Event) (l : List Answer) : Prop where
  keeps : ChunkKeeps (latchCommand .write a n s) t
  atChunk : AtChunk t a.toNat n j
  trace : t.trace = s.trace ++ evs
  buf : t.buf = s.buf
  wdata : t.wdataReqs = List.range (chunkPos a.toNat n j)
  transport : t.transport = leftAnswers s l
  draws : t.draws = s.draws

/-- The chunks of a WRITE accepted after the failed attempts `ess`. -/
theorem execWrite_acceptedChunks {a : Addr} {n : Nat} {s : State} {ess : List (List Nat)} {l : List Answer} (h : Ready s)
    (hn : n < 2 ^ s.params.lenW) (hlen : ess.length ≤ chunkCount a.toNat n) (hfew : ∀ es ∈ ess, FewErrors s.params es)
    (ha : AnswersFrom s (ess.flatMap acceptAfter ++ l)) :
    ∃ t, exec (.write a n) s = chunkLoop rawWrite (n - ess.length + 1) t ∧
      WroteChunks a n s t ess.length (acceptedGroups s a.toNat n 0 ess) l := by
  have hfuel : portLen s.params n + 1 = ess.length + (n - ess.length + 1) := by
    have := chunkCount_le a.toNat n
    rw [portLen, Nat.mod_eq_of_lt hn]
    omega
  obtain ⟨t, hloop, hkeeps, hat, htrace, hbuf, hwdata, htransport, hdraws⟩ :=
    writeLoop_prefix (n - ess.length + 1) (latchCommand_atChunk .write a s hn) (by simpa using hlen) (by simp) (by simp)
      (by simpa using h.noReply) (by simp [chunkPos_zero]) (by simpa using hfew) (by simpa [AnswersFrom] using ha)
  rw [acceptedGroups_congr (s := s) (by simp) (by simp)] at htrace
  rw [Nat.zero_add] at hat hwdata
  exact ⟨t, by rw [exec_write_idle h.fsm, hfuel, hloop], hkeeps, hat, by simpa using htrace, by simpa using hbuf, hwdata,
    by simpa [leftAnswers] using htransport, by simpa using hdraws⟩

/-- The fields of the state between two chunks of a WRITE. -/
theorem WroteChunks.state_eq {a : Addr} {n j : Nat} {s t : State} {evs : List Event} {l : List Answer}
    (h : WroteChunks a n s t j evs l) (hr : s.reply = none) :
    t = { s with
      scratch := t.scratch
      fsm := .chunk
      op := .write
      base := a
      len := n
      cur := chunkStart a.toNat j
      retries := t.retries
      err := t.err
      rsp := none
      wdataReqs := List.range (chunkPos a.toNat n j)
      transport := { s.transport with answers := l }
      trace := s.trace ++ evs } := by
  obtain ⟨hkeeps, hat, htrace, hbuf, hwdata, htransport, hdraws⟩ := h
  apply State.ext <;>
    simp [hkeeps.params, hkeeps.hwAddr, hkeeps.fsm, hkeeps.op, hkeeps.base, hkeeps.cmds, hkeeps.reply, hr, hkeeps.rsp,
      hkeeps.data, hkeeps.slot, hkeeps.result, hat.len, hat.cur, htrace, hbuf, hwdata, htransport, hdraws, leftAnswers]

/-- Settles O46: all chunks are accepted, and the loop's last test answers `ok`. -/
theorem writeTraceWhenAccepted : Obligations.WriteTraceWhenAccepted := by
  intro a n s ess l h hn hlen hfew ha
  obtain ⟨t, hexec, ht⟩ := execWrite_acceptedChunks h hn (Nat.le_of_eq hlen) hfew ha
  have hdone : t.chunkTodo = false := by
    rw [Bool.eq_false_iff, ne_eq, ht.atChunk.todo]
    omega
  have heq := ht.state_eq h.noReply
  rw [hlen, chunkPos_count] at heq
  exact ⟨respond .ok t, hexec.trans (chunkLoop_done _ hdone), congrArg (respond .ok) heq⟩

/-- The indices fetched for the chunks before chunk `j` and for chunk `j`. -/
theorem range_append_chunk {t : State} {a n j : Nat} (hat : AtChunk t a n j) (hj : j < chunkCount a n) :
    List.range (chunkPos a n j) ++ (List.range t.klen).map (t.rel + ·) =
      List.range (chunkStart a j - a + chunkLength a n j) := by
  rw [hat.klen, hat.rel, chunkPos_of_lt hj, List.range_add]

/-- Settles O47: the chunks before are accepted, the failing chunk's raw write is exhausted, and its error is raised. -/
theorem writeTraceWhenExhausted : Obligations.WriteTraceWhenExhausted := by
  intro a n s ess errs e l h hn hlen hfew herrs hfewErrs he ha
  obtain ⟨t, hexec, ht⟩ := execWrite_acceptedChunks h hn (Nat.le_of_lt hlen) hfew ha
  have hparams : t.params = s.params := by simpa using ht.keeps.params
  obtain ⟨u, hraw, htrace, htransport, hwdata, hu⟩ := rawWrite_exhausted (l := l) ht.atChunk
    (ht.keeps.op.trans (latchCommand_op ..)) ht.keeps.reply herrs (hparams ▸ hfewErrs) (hparams ▸ he)
    (answersFrom_of_left ht.transport ha)
  rw [ht.wdata, range_append_chunk ht.atChunk hlen] at hwdata
  rw [leftAnswers_trans ht.transport] at htransport
  have hdev : t.dev = s.dev := by simpa using ht.keeps.dev
  have hdata : t.data = s.data := by simpa using ht.keeps.data
  rw [ht.trace, hdev, chunkFrame_congr hdata] at htrace
  refine ⟨raiseTransportError e u, hexec.trans (chunkLoop_err _ (ht.atChunk.todo.2 hlen) hraw), ?_⟩
  rw [hu, htrace, htransport, hwdata, ht.state_eq h.noReply]
  simp [raiseTransportError, respond, leftAnswers]

/-! ## Bounds whatever the transport does (R159, R195, R222) -/

/-- The events of a command that reads nothing: writes and sleeps, and one response if the command is over. -/
theorem CommandBound.events {s t : State} {w z : Nat} (h : CommandBound s t w 0 z) :
    ∃ evs, t.trace = s.trace ++ evs ∧ (∀ e ∈ evs, e.isRead = false) ∧ evs.countP Event.isWrite ≤ w ∧
      evs.countP Event.isSleep ≤ z ∧ sleepingTime evs ≤ z * Config.tUnit ∧
      evs.countP Event.isResponse = (if t.fsm = .idle then 1 else 0) := by
  obtain ⟨u, ⟨evs, hu, hwrites, hreads, hsleeps, hresponses, hunits⟩, hend⟩ := h
  have hread : ∀ e ∈ evs, e.isRead = false := by
    simpa using List.countP_eq_zero.1 (Nat.le_zero.1 hreads)
  have htime := Nat.mul_le_mul_right Config.tUnit hunits
  rcases hend with ⟨hf, ht⟩ | ⟨hf, r, ht⟩
  · exact ⟨evs, ht.trans hu, hread, hwrites, hsleeps, htime, by rw [hresponses, if_neg hf]⟩
  · refine ⟨evs ++ [.rsp r], by rw [ht, hu, List.append_assoc], ?_, ?_, ?_, ?_, ?_⟩
    · simpa [or_imp, forall_and, Event.isRead] using hread
    · simpa [Event.isWrite] using hwrites
    · simpa [Event.isSleep] using hsleeps
    · simpa [sleepingTime, Event.units] using htime
    · simp [hf, hresponses, Event.isResponse]

/-- Settles O51: the bounds of a raw write, once for each chunk, and the transport's answers, 21 for each chunk. -/
theorem writeIsBounded : Obligations.WriteIsBounded := by
  intro a n s t h hn hexec
  rw [exec_write_idle h.fsm] at hexec
  have hat := latchCommand_atChunk .write a s hn
  have hraw (u : State) (ho : u.op = .write) := rawWrite_bounded ho
  obtain ⟨hbound, -, hbuf⟩ := chunkLoop_bounded hraw hat (latchCommand_op ..) (latchCommand_fsm ..) hexec
  obtain ⟨evs, htrace, hread, hwrites, hsleeps, htime, hresponses⟩ := CommandBound.events (by simpa using hbound)
  refine ⟨evs, by simpa using htrace, hread, hwrites, hsleeps, htime, hresponses, by simpa using hbuf rfl, fun hlive => ?_⟩
  have hfuel : chunkCount a.toNat n - 0 < portLen s.params n + 1 := by
    rw [portLen, Nat.mod_eq_of_lt hn]
    exact Nat.lt_succ_of_le (chunkCount_le _ _)
  exact chunkLoop_live hraw rawWrite_live hat (latchCommand_op ..) hfuel (hlive.of_transport (by simp)) hexec

/-! ## WRITE against the reference device (R150, R52) -/

/-- Settles O56: a bound of at most ten units of sleep is the retry budget. -/
theorem writeReachesTheDevice : Obligations.WriteReachesTheDevice := by
  intro a n b s hs hd hin hn hw hb hc
  obtain ⟨t, hexec, ht⟩ := execWrite_device hs hd hin hn hw (cyclesEnd_mono hb hc)
  exact ⟨t, hexec, ht.rsp, ht.ready.fsm, ht.inside, ht.outside⟩

/-! ## Commands of length zero (R157, R172) -/

/-- A command of length zero has no chunk to do. -/
theorem latchCommand_zero_done (o : Op) (a : Addr) (s : State) : (latchCommand o a 0 s).chunkTodo = false :=
  chunkTodo_false_iff.2 (by simp [State.endp, portLen])

/-- Settles O44: the loop's first test finds nothing to do. -/
theorem zeroLengthCommands : Obligations.ZeroLengthCommands := by
  refine fun a s hf => ⟨?_, ?_, fun c rest hs hc hlen => ?_⟩
  · exact ⟨_, (exec_write_idle hf).trans (chunkLoop_done _ (latchCommand_zero_done .write a s)), by simp⟩
  · exact ⟨_, (exec_read_idle hf).trans (chunkLoop_done _ (latchCommand_zero_done .read a s)), by simp⟩
  · have haccept := execAccept_eq hf hc
    generalize ht : lendSlice c (latchCommand c.op c.addr c.len { s with cmds := rest }) = t at haccept
    have hchunk : t.fsm = .chunk := by simp [← ht]
    have hslot : t.slot = none := by simpa [← ht] using hs
    have hdone : t.endp ≤ t.cur := by simp [← ht, State.endp, hlen, portLen]
    refine ⟨t, respond .ok t, (step_idle hs hf (by simp [hc])).trans haccept, haccept,
      step_chunk_done hslot hchunk (chunkTodo_false_iff.2 hdone), exec_chunkDone hchunk hdone, ?_⟩
    simp [← ht]

end Sys2Proof.Machine
end

section
/-! Proofs of the statements about the paginated read (spec/44_paginated_read.md): READ against a list of answers, up to its
first error; its bounds whatever the transport does; and READ against the reference device. -/

namespace Sys2Proof.Machine

/-! ## READ against a list of answers (R173, R174) -/

/-- What a READ from `s` has done when its first `j` chunks are answered with bursts of the bytes `bytes` in all: the events `evs`
are recorded, the answers down to `l` are used, and the bytes fill the host's buffer up to the next chunk. -/
structure ReadChunks (a : Addr) (n : Nat) (s t : State) (j : Nat) (evs : List Event) (bytes : List Byte) (l : List Answer) :
    Prop where
  keeps : ChunkKeeps (latchCommand .read a n s) t
  atChunk : AtChunk t a.toNat n j
  trace : t.trace = s.trace ++ evs
  inside : t.bufSlice 0 (chunkPos a.toNat n j) = bytes
  outside : ∀ i, chunkPos a.toNat n j ≤ i → t.bufAt i = s.bufAt i
  transport : t.transport = leftAnswers s l
  err : t.err = s.err
  wdata : t.wdataReqs = []

/-- The chunks of a READ answered with `bursts`. -/
theorem execRead_answeredChunks {a : Addr} {n : Nat} {s : State} {bursts : List (List Byte)} {l : List Answer} (h : Ready s)
    (hn : n < 2 ^ s.params.lenW) (hlen : bursts.length ≤ chunkCount a.toNat n) (hfit : BurstsFit a.toNat n 0 bursts)
    (ha : AnswersFrom s (bursts.map .ok ++ l)) :
    ∃ t, exec (.read a n) s = chunkLoop rawRead (n - bursts.length + 1) t ∧
      ReadChunks a n s t bursts.length (readEvents s a.toNat n 0 bursts) bursts.flatten l := by
  have hfuel : portLen s.params n + 1 = bursts.length + (n - bursts.length + 1) := by
    have := command_fuel (a := a.toNat) hn
    have := chunkCount_le a.toNat n
    omega
  obtain ⟨t, hloop, hkeeps, hat, htrace, hpos, hinside, houtside, htransport, herr, hwdata⟩ :=
    readLoop_prefix (n - bursts.length + 1) (latchCommand_atChunk .read a s hn) (by simpa using hlen) (by simp) (by simp)
      (by simpa using h.noReply) hfit (by simpa [AnswersFrom] using ha)
  rw [readEvents_congr (s := s) (by simp)] at htrace
  rw [Nat.zero_add] at hat hpos houtside
  rw [chunkPos_zero, Nat.zero_add] at hpos
  rw [chunkPos_zero, hpos] at hinside
  refine ⟨t, by rw [exec_read_idle h.fsm, hfuel, hloop], hkeeps, hat, by simpa using htrace, hinside, fun i hi => ?_,
    by simpa [leftAnswers] using htransport, by simpa using herr, by simpa using hwdata⟩
  simpa using houtside i (Or.inr hi)

/-- The fields of the state between two chunks of a READ. -/
theorem ReadChunks.state_eq {a : Addr} {n j : Nat} {s t : State} {evs : List Event} {bytes : List Byte} {l : List Answer}
    (h : ReadChunks a n s t j evs bytes l) (hr : s.reply = none) :
    t = { s with
      scratch := t.scratch
      fsm := .chunk
      op := .read
      base := a
      len := n
      cur := chunkStart a.toNat j
      retries := t.retries
      rsp := none
      wdataReqs := []
      buf := t.buf
      draws := t.draws
      transport := { s.transport with answers := l }
      trace := s.trace ++ evs } := by
  obtain ⟨hkeeps, hat, htrace, -, -, htransport, herr, hwdata⟩ := h
  apply State.ext <;>
    simp [hkeeps.params, hkeeps.hwAddr, hkeeps.fsm, hkeeps.op, hkeeps.base, hkeeps.cmds, hkeeps.reply, hr, hkeeps.rsp,
      hkeeps.data, hkeeps.slot, hkeeps.result, hat.len, hat.cur, htrace, htransport, herr, hwdata, leftAnswers]

/-- Settles O48: all chunks are answered, and the loop's last test answers `ok`. -/
theorem readDeliversTheBursts : Obligations.ReadDeliversTheBursts := by
  intro a n s bursts l h hn hlen hfit ha
  obtain ⟨t, hexec, ht⟩ := execRead_answeredChunks h hn (Nat.le_of_eq hlen) hfit ha
  have hdone : t.chunkTodo = false := by
    rw [Bool.eq_false_iff, ne_eq, ht.atChunk.todo]
    omega
  have heq := ht.state_eq h.noReply
  have hinside := ht.inside
  have houtside := ht.outside
  rw [hlen, chunkPos_count] at hinside houtside
  rw [hlen] at heq
  exact ⟨respond .ok t, hexec.trans (chunkLoop_done _ hdone), hinside, houtside, congrArg (respond .ok) heq⟩

/-- Settles O49: the chunks before are answered, the failing chunk's one transaction touches its own part of the buffer, and its
error is raised. -/
theorem readStopsAtTheFirstError : Obligations.ReadStopsAtTheFirstError := by
  intro a n s bursts e l h hn hlen hfit he ha
  obtain ⟨t, hexec, ht⟩ := execRead_answeredChunks h hn (Nat.le_of_lt hlen) hfit ha
  have hparams : t.params = s.params := by simpa using ht.keeps.params
  have hdev : t.dev = s.dev := by simpa using ht.keeps.dev
  obtain ⟨u, hraw, htrace, hbuf, htransport, hu⟩ := rawRead_failed (l := l) ht.atChunk hlen
    (ht.keeps.op.trans (latchCommand_op ..)) ht.keeps.reply (hparams ▸ he) (answersFrom_of_left ht.transport ha)
  rw [leftAnswers_trans ht.transport] at htransport
  rw [ht.trace, hdev] at htrace
  rw [chunkPos_of_lt hlen, chunkPos_succ hlen]
  refine ⟨raiseTransportError e u, hexec.trans (chunkLoop_err _ (ht.atChunk.todo.2 hlen) hraw), ?_, fun i hi => ?_, ?_⟩
  · rw [← ht.inside]
    exact bufSlice_congr fun i hi => by simpa using hbuf i (Or.inl hi)
  · have hle : chunkPos a.toNat n bursts.length ≤ i := by
      have := chunkPos_succ hlen
      omega
    rw [raiseTransportError_bufAt, hbuf i (Or.inr hi), ht.outside i hle]
  · rw [hu, htrace, htransport, ht.state_eq h.noReply]
    simp [raiseTransportError, respond, leftAnswers]

/-! ## Bounds whatever the transport does (R175, R176, R222) -/

/-- Every event is of one of the four kinds: one that is no write, no sleep and no response is a read. -/
theorem Event.isRead_of_no_other_kind {e : Event} (hw : e.isWrite = false) (hs : e.isSleep = false)
    (hr : e.isResponse = false) : e.isRead = true := by
  cases e with
  | write | sleep | rsp => contradiction
  | writeRead => rfl

/-- Without writes and sleeps, and with no response among them, the events recorded are reads. -/
theorem Adds.reads {s t : State} {r : Nat} (h : Adds s t 0 r 0) :
    ∃ evs, t.trace = s.trace ++ evs ∧ (∀ e ∈ evs, e.isRead = true) ∧ evs.length ≤ r := by
  obtain ⟨evs, htrace, hwrites, hreads, hsleeps, hresponses, -⟩ := h
  have hread : ∀ e ∈ evs, e.isRead = true := fun e he => Event.isRead_of_no_other_kind
    (Bool.eq_false_iff.2 (List.countP_eq_zero.1 (Nat.le_zero.1 hwrites) e he))
    (Bool.eq_false_iff.2 (List.countP_eq_zero.1 (Nat.le_zero.1 hsleeps) e he))
    (Bool.eq_false_iff.2 (List.countP_eq_zero.1 hresponses e he))
  exact ⟨evs, htrace, hread, List.countP_eq_length.2 hread ▸ hreads⟩

/-- The events of a command that writes nothing and does not sleep: reads, and then one response if the command is over. -/
theorem CommandBound.reads {s t : State} {r : Nat} (h : CommandBound s t 0 r 0) :
    ∃ evs, (∀ e ∈ evs, e.isRead = true) ∧ evs.length ≤ r ∧
      ((t.fsm = .idle ∧ ∃ x, t.trace = s.trace ++ evs ++ [.rsp x]) ∨ (t.fsm ≠ .idle ∧ t.trace = s.trace ++ evs)) := by
  obtain ⟨u, hadds, hend⟩ := h
  obtain ⟨evs, htrace, hreads, hlen⟩ := hadds.reads
  rw [htrace] at hend
  exact ⟨evs, hreads, hlen, hend.symm⟩

/-- Settles O50: the bounds of a raw read, once for each chunk, and the transport's answers, one for each chunk. -/
theorem readHasNoRetryLayer : Obligations.ReadHasNoRetryLayer := by
  intro a n s t h hn hexec
  have hpayload (i : Nat) (hi : i < 34) (h2 : 2 ≤ i) : t.scratch[i] = s.scratch[i] := execRead_payload hexec hi h2
  rw [exec_read_idle h.fsm] at hexec
  have hat := latchCommand_atChunk .read a s hn
  have hraw (u : State) (ho : u.op = .read) := rawRead_bounded ho
  obtain ⟨hbound, hdata, -⟩ := chunkLoop_bounded hraw hat (latchCommand_op ..) (latchCommand_fsm ..) hexec
  obtain ⟨evs, hreads, hlen, hend⟩ := CommandBound.reads (by simpa using hbound)
  refine ⟨⟨evs, hreads, hlen, by simpa using hend⟩, by simpa using hdata, hpayload, fun hlive => ?_⟩
  have hfuel : chunkCount a.toNat n - 0 < portLen s.params n + 1 := by
    have := command_fuel (a := a.toNat) hn
    omega
  have hchunks : TransportLive (1 * (chunkCount a.toNat n - 0)) s := by simpa using hlive
  exact chunkLoop_live hraw rawRead_live hat (latchCommand_op ..) hfuel (hchunks.of_transport (by simp)) hexec

/-! ## READ against the reference device (R173, R176) -/

/-- Settles O57: every chunk finds the device idle, since a read starts no write cycle, and is answered from its memory. -/
theorem readReturnsTheDevice : Obligations.ReadReturnsTheDevice := fun _ _ _ hs hd hin hn hidle =>
  execRead_device hs hd hin hn hidle

end Sys2Proof.Machine
end

section
/-! Proofs of the statement about responses (spec/60_exceptions.md R186): what one transition of the sequencer records, and that
it responds exactly when it ends the command. -/

namespace Sys2Proof.Machine

/-- Every event is of one of the four kinds, and of no other. -/
theorem length_eq_sum_of_kinds (evs : List Event) :
    evs.length = evs.countP Event.isWrite + evs.countP Event.isRead + evs.countP Event.isSleep +
      evs.countP Event.isResponse := by
  induction evs with
  | nil => rfl
  | cons e evs ih =>
    simp only [List.length_cons, List.countP_cons, ih]
    cases e <;> simp [Event.isWrite, Event.isRead, Event.isSleep, Event.isResponse] <;> omega

/-- Between the two states at most one event was recorded, and no response. -/
def AddsEvent (s t : State) : Prop :=
  ∃ evs : List Event, (∀ e ∈ evs, e.isResponse = false) ∧ evs.length ≤ 1 ∧ t.trace = s.trace ++ evs

theorem Adds.event {s t : State} {w r z : Nat} (h : Adds s t w r z) (hone : w + r + z ≤ 1) : AddsEvent s t := by
  obtain ⟨evs, htrace, hwrites, hreads, hsleeps, hresponses, -⟩ := h
  have hkinds := length_eq_sum_of_kinds evs
  exact ⟨evs, fun e he => Bool.eq_false_iff.2 (List.countP_eq_zero.1 hresponses e he), by omega, htrace⟩

theorem AddsEvent.same {s t : State} (h : t.trace = s.trace) : AddsEvent s t := (Adds.same h).event (Nat.zero_le _)

/-- The one transaction of an attempt, or none where its reply is pending already. -/
theorem attemptReply_event {s s1 : State} {r : Reply} (h : attemptReply s = .replied r s1) : AddsEvent s s1 := by
  cases ho : s.op with
  | write => exact (attemptReply_adds_write ho h).event (Nat.le_refl _)
  | read => exact (attemptReply_adds_read ho h).event (Nat.le_refl _)

theorem sleepReply_event {s s1 : State} {r : Reply} (h : sleepReply s = .replied r s1) : AddsEvent s s1 :=
  (sleepReply_adds h).event (Nat.le_refl _)

/-- What is known of the state `t` after a step from `s` that had recorded its transport event in `u`: the command has ended and
responded, or it goes on, or the block waits. -/
def EndsOrGoesOn (s u t : State) : Prop :=
  (s.fsm ≠ .idle ∧ t.fsm = .idle ∧ ∃ r, t.rsp = some r ∧ t.trace = u.trace ++ [.rsp r]) ∨
    ((t.fsm ≠ .idle ∨ t = s) ∧ t.trace = u.trace)

theorem EndsOrGoesOn.respond {s : State} (u : State) (r : Reply) (hs : s.fsm ≠ .idle) :
    EndsOrGoesOn s u (respond r u) :=
  .inl ⟨hs, respond_fsm r u, r, respond_rsp r u, respond_trace r u⟩

theorem EndsOrGoesOn.raise {s : State} (u : State) (e : Nat) (hs : s.fsm ≠ .idle) :
    EndsOrGoesOn s u (raiseTransportError e u) :=
  .inl ⟨hs, raiseTransportError_fsm e u, .err e, raiseTransportError_rsp e u, raiseTransportError_trace e u⟩

theorem EndsOrGoesOn.goesOn {s u t : State} (hf : t.fsm ≠ .idle) (htrace : t.trace = u.trace) : EndsOrGoesOn s u t :=
  .inr ⟨.inl hf, htrace⟩

theorem EndsOrGoesOn.waits (s : State) : EndsOrGoesOn s s s := .inr ⟨.inr rfl, rfl⟩

/-- Each transition records its transport event, if it has one, and then ends the command or goes on: CHUNK_DONE and ATTEMPT_FAIL
are the two that respond. -/
theorem Transition.endsOrGoesOn {s t : State} (h : Transition s (.next t)) :
    ∃ u, AddsEvent s u ∧ EndsOrGoesOn s u t := by
  cases h with
  | idleWaits | attemptWaits | delayWaits => exact ⟨s, .same rfl, .waits s⟩
  | accept => exact ⟨s, .same rfl, .goesOn (by simp) (by simp)⟩
  | chunkDone hf => exact ⟨s, .same rfl, .respond s .ok (by simp [hf])⟩
  | chunkNext => exact ⟨s, .same rfl, .goesOn (by simp) rfl⟩
  | encode => exact ⟨s, .same rfl, .goesOn (by simp) (encodeChunk_trace s)⟩
  | attemptOk s1 _ hr => exact ⟨s1, attemptReply_event hr, .goesOn (by simp) (advance_trace s1)⟩
  | attemptRetry e s1 _ hr => exact ⟨s1, attemptReply_event hr, .goesOn (by simp) (toDelay_trace e s1)⟩
  | attemptFail e s1 hf hr => exact ⟨s1, attemptReply_event hr, .raise s1 e (by simp [hf])⟩
  | delay r s1 _ _ hr => exact ⟨s1, sleepReply_event hr, .goesOn (by simp) (afterDelay_trace s1)⟩

/-- Settles O19: each transition of the sequencer's table records its transport event and then ends the command or goes on. -/
theorem oneResponseEndsTheCommand : Obligations.OneResponseEndsTheCommand := by
  intro s t hs hstep
  have htransition : Transition s (.next t) := hstep ▸ step_transition hs
  obtain ⟨u, ⟨evs, hevents, hone, htrace⟩, hend⟩ := htransition.endsOrGoesOn
  rw [EndsOrGoesOn, htrace] at hend
  exact ⟨evs, hevents, hone, hend⟩

end Sys2Proof.Machine
end

section
/-! Proofs of the statements about reset and hazards (spec/70_reset_and_hazards.md): commands offered to a busy block, a bus
address at which no device answers, and reset as the initial state only. -/

namespace Sys2Proof.Machine

/-! ## Commands offered to a busy block (R216) -/

theorem exec_write_busy {s : State} (a : Addr) (n : Nat) (hf : s.fsm ≠ .idle) :
    exec (.write a n) s = .next (holdOff .write a n s) := if_neg hf

theorem exec_read_busy {s : State} (a : Addr) (n : Nat) (hf : s.fsm ≠ .idle) :
    exec (.read a n) s = .next (holdOff .read a n s) := if_neg hf

/-- Settles O45: outside IDLE both commands are held off. -/
theorem busyBlockHoldsCommandsOff : Obligations.BusyBlockHoldsCommandsOff := fun a n _ hf =>
  ⟨exec_write_busy a n hf, exec_read_busy a n hf⟩

/-! ## No device at the block's bus address (R221) -/

theorem latchCommand_pos_todo (o : Op) (a : Addr) {n : Nat} {s : State} (hn : n < 2 ^ s.params.lenW) (hpos : 0 < n) :
    (latchCommand o a n s).chunkTodo = true := by
  rw [chunkTodo_iff, (latchCommand_atChunk o a s hn).endp, latchCommand_cur]
  omega

section

variable {s : State} {e : Nat} (hr : s.reply = none) (hd : s.transport.responder = .device)
  (hst : s.transport.device.strap ≠ s.hwAddr) (he : portErr s.params s.transport.device.eAbsent = e)

include hr hd hst he

/-- The raw write of a chunk to an absent device uses up its eleven attempts. -/
theorem rawWrite_absent {a n j : Nat} (hat : AtChunk s a n j) (ho : s.op = .write) :
    ∃ s1, rawWrite s = .returned (.err e) s1 ∧
      s1.trace = s.trace ++ failedAttempts s.dev (chunkFrame s a n j) (List.replicate 10 e) ++
        [.write s.dev (chunkFrame s a n j) (.err e)] ∧
      s1.transport.device.mem = s.transport.device.mem := by
  have h := rawAttempts_absent 10 (s := encodeChunk s) (by simpa using ho) (by simpa using hr) (by simpa using hd)
    (by simpa using hst)
  rw [encodeChunk_frame_at hat ho] at h
  simpa [rawWrite, Config.maxRetries, he] using h

/-- The raw read of a chunk from an absent device is over after its one transaction. -/
theorem rawRead_absent {a n j : Nat} (hat : AtChunk s a n j) (ho : s.op = .read) :
    ∃ s1, rawRead s = .returned (.err e) s1 ∧
      s1.trace = s.trace ++
        [.writeRead s.dev (headerBytes (BitVec.ofNat 16 (chunkStart a j))) (chunkLength a n j) (.err e)] := by
  have hreply := attemptReply_read_answered (s := encodeChunk s) (by simpa using ho) (by simpa using hr)
    (serve_absent_read (by simpa using hd) (by simpa using hst))
  exact ⟨_, rawAttempts_zero_err (by simpa [replyOf, he] using hreply),
    by simp [recorded, encodeChunk_header_at hat, hat.klen, he]⟩

/-- A WRITE to an absent device fails with its first chunk, and the device keeps its memory. -/
theorem execWrite_absent {a : Addr} {n : Nat} (hf : s.fsm = .idle) (hn : n < 2 ^ s.params.lenW) (hpos : 0 < n) :
    ∃ t, exec (.write a n) s = .next t ∧
      t.trace = s.trace ++ failedAttempts s.dev (chunkFrame s a.toNat n 0) (List.replicate 10 e) ++
        [.write s.dev (chunkFrame s a.toNat n 0) (.err e), .rsp (.err e)] ∧
      t.transport.device.mem = s.transport.device.mem := by
  obtain ⟨s1, hraw, htrace, hmem⟩ := rawWrite_absent (s := latchCommand .write a n s) (by simpa using hr)
    (by simpa using hd) (by simpa using hst) (by simpa using he) (latchCommand_atChunk .write a s hn) (latchCommand_op ..)
  refine ⟨raiseTransportError e s1,
    (exec_write_idle hf).trans (chunkLoop_err _ (latchCommand_pos_todo .write a hn hpos) hraw), ?_, by simpa using hmem⟩
  rw [raiseTransportError_trace, htrace, chunkFrame_congr (latchCommand_data .write a n s)]
  simp

/-- A READ from an absent device fails with its first chunk. -/
theorem execRead_absent {a : Addr} {n : Nat} (hf : s.fsm = .idle) (hn : n < 2 ^ s.params.lenW) (hpos : 0 < n) :
    ∃ t, exec (.read a n) s = .next t ∧
      t.trace = s.trace ++ [.writeRead s.dev (headerBytes a) (chunkLength a.toNat n 0) (.err e), .rsp (.err e)] := by
  obtain ⟨s1, hraw, htrace⟩ := rawRead_absent (s := latchCommand .read a n s) (by simpa using hr) (by simpa using hd)
    (by simpa using hst) (by simpa using he) (latchCommand_atChunk .read a s hn) (latchCommand_op ..)
  refine ⟨raiseTransportError e s1,
    (exec_read_idle hf).trans (chunkLoop_err _ (latchCommand_pos_todo .read a hn hpos) hraw), ?_⟩
  rw [raiseTransportError_trace, htrace]
  simp [chunkStart_zero]

end

/-- Settles O59: with data the first chunk's raw operation fails and its error is raised; without data no request is made. -/
theorem absentDevice : Obligations.AbsentDevice := by
  refine fun a n s h hd hst hn => ⟨fun hpos => ?_, fun hzero => ?_⟩
  · obtain ⟨t, hwrite, htrace, hmem⟩ := execWrite_absent (a := a) h.noReply hd hst rfl h.fsm hn hpos
    obtain ⟨u, hread, hutrace⟩ := execRead_absent (a := a) h.noReply hd hst rfl h.fsm hn hpos
    exact ⟨t, u, _, rfl, hwrite, htrace, hmem, hread, hutrace⟩
  · subst hzero
    obtain ⟨⟨t, hwrite, -, htrsp, -⟩, ⟨u, hread, -, hursp, -⟩, -⟩ := zeroLengthCommands a s h.fsm
    exact ⟨t, u, hwrite, htrsp, hread, hursp⟩

/-! ## Reset is the initial state only (R225, R210) -/

/-- No move of the environment loads `hw_addr`. -/
theorem EnvMove.hwAddr {s t : State} (h : EnvMove s t) : t.hwAddr = s.hwAddr := by
  rcases h with ⟨c, rfl⟩ | rfl | ⟨a, rfl⟩ | rfl <;> rfl

/-- A step waits or performs one operation, and no operation loads `hw_addr` (spec/10_state.md R21). -/
theorem step_hwAddr {s t : State} (h : step s = .next t) : t.hwAddr = s.hwAddr := by
  rcases step_keeps h with rfl | ⟨i, hexec⟩
  · rfl
  · exact (exec_keeps hexec).hwAddr

/-- Settles O60: the two arms of a reset edge, the state at construction, and `hw_addr` along steps and moves. -/
theorem resetOnlyAsInitialState : Obligations.ResetOnlyAsInitialState := by
  refine ⟨fun s cfg => ⟨fun hbusy => ?_, fun hidle => ?_⟩, fun p cfg tr => ?_, fun s t h => ?_⟩
  · exact if_neg hbusy
  · exact if_pos hidle
  · exact ⟨construct_afterReset p cfg tr, rfl, rfl, rfl⟩
  · exact h.elim step_hwAddr EnvMove.hwAddr

end Sys2Proof.Machine
end
